-- ==== Sys2Proof/Word.lean ====
section
/-! DEFINITION. The word types of the core: 32-bit port words (R63), bytes of a byte transport (R64),
dibits (R10), the 4-bit transmitted values of the trellis code (R156), and bit buffers (R9). -/

namespace Sys2Proof

/-- The unit of every port and every register: 32 bits, bit 31 the most significant (R63). -/
abbrev Word := BitVec 32

/-- One byte of a byte transport (R64). -/
abbrev Byte := BitVec 8

/-- A demodulated symbol `b1 b0`, an integer 0..3 (R10). -/
abbrev Dibit := BitVec 2

/-- A transmitted value: the 4 raw bits of one trellis node (R156). -/
abbrev Nibble := BitVec 4

/-- A bit buffer: bit 0 is the head, the first bit received (R9). -/
abbrev Bits := List Bool

/-- A complex binary32 value `(re, im)` (R15). -/
abbrev Cplx := Word × Word

end Sys2Proof
end

