-- ==== Sys2Proof/Syntax.lean ====
section
/-! DEFINITION. The commands of the core (R82): one constructor per row of spec/opcode_table.json. -/

namespace Sys2Proof

/-- A command with its operands and payload (R82, R83). -/
inductive Instr where
  /-- NOP (0x00, R224) -/
  | nop
  /-- CFG_WRITE r, v (0x01, R214) -/
  | cfgWrite (reg : BitVec 8) (value : Word)
  /-- REG_READ r (0x02, R215). The whole 16-bit ARG is the operand: ARG > 0xFF is legal and gives BAD_REG. -/
  | regRead (arg : BitVec 16)
  /-- START (0x03, R216) -/
  | start
  /-- STOP (0x04, R217) -/
  | stop
  /-- PUSH_REAL n (0x05, R218), n the number of samples -/
  | pushReal (samples : List Word)
  /-- PUSH_COMPLEX n (0x06, R219), n the number of (I, Q) pairs -/
  | pushComplex (samples : List (Word × Word))
  /-- SET_CORRECTION sel, v (0x07, R220) -/
  | setCorrection (sel : BitVec 16) (value : Word)
  /-- SWEEP t (0x08, R221) -/
  | sweep (t : BitVec 64)
  /-- SUMMARY t (0x09, R222) -/
  | summary (t : BitVec 64)
  /-- CLEAR_STATUS m (0x0A, R223), m the 4-bit mask -/
  | clearStatus (mask : BitVec 4)
deriving DecidableEq, Repr

end Sys2Proof
end

