-- ==== Sys2Proof/WellFormed.lean ====
section
/-! DEFINITION. Which commands an encoding exists for: the sample count of a PUSH is the 16-bit ARG (R82, R83).
Every other operand is bounded by its type. -/

namespace Sys2Proof

/-- A command that has an encoding (R82, R83). -/
def Instr.WellFormed : Instr → Bool
  | .nop => true
  | .cfgWrite _ _ => true
  | .regRead _ => true
  | .start => true
  | .stop => true
  | .pushReal samples => samples.length < 65536
  | .pushComplex samples => samples.length < 65536
  | .setCorrection _ _ => true
  | .sweep _ => true
  | .summary _ => true
  | .clearStatus _ => true

end Sys2Proof
end

