-- ==== Sys2Proof/Decode.lean ====
section
/-! DEFINITION. The decoder of the command stream (R81 to R86), the encoder written from the same tables, the byte
transport of R64, and `decodeTableWord`. -/

namespace Sys2Proof

/-! ## The command word (R81) -/

/-- OPCODE, bits 31:24 (R81). -/
def opcodeOf (w : Word) : BitVec 8 := w.extractLsb' 24 8

/-- RSV, bits 23:16, which must be 0 (R81). -/
def rsvOf (w : Word) : BitVec 8 := w.extractLsb' 16 8

/-- ARG, bits 15:0 (R81). -/
def argOf (w : Word) : BitVec 16 := w.extractLsb' 0 16

/-- The opcodes whose whole ARG must be 0 (R85 c): NOP, START, STOP, SWEEP, SUMMARY. -/
def argMustBeZero (op : BitVec 8) : Bool :=
  op == 0x00 || op == 0x03 || op == 0x04 || op == 0x08 || op == 0x09

/-- A command word is illegal when any of R85 (a) to (e) holds. -/
def illegalWord (w : Word) : Bool :=
  decide (0x0B ≤ (opcodeOf w).toNat)
    || rsvOf w != 0
    || (argMustBeZero (opcodeOf w) && argOf w != 0)
    || (opcodeOf w == 0x01 && (argOf w).extractLsb' 8 8 != 0)
    || (opcodeOf w == 0x0A && (argOf w).extractLsb' 4 12 != 0)

/-- The number of payload words of a legal command word (R82, R84). -/
def payloadWords (w : Word) : Nat :=
  match (opcodeOf w).toNat with
  | 0x01 => 1
  | 0x05 => (argOf w).toNat
  | 0x06 => 2 * (argOf w).toNat
  | 0x07 => 1
  | 0x08 => 2
  | 0x09 => 2
  | _ => 0

/-- The length of a command in words (R84): an illegal word is one word long. -/
def commandLength (w : Word) : Nat :=
  if illegalWord w then 1 else 1 + payloadWords w

/-! ## Decoding -/

/-- Why a stream holds no command to perform. -/
inductive DecodeError where
  /-- no word is left: the run ends at a command boundary (R71) -/
  | endOfStream
  /-- the first word is illegal (R85) -/
  | illegal
  /-- the stream ends inside the command (R71) -/
  | truncated
deriving DecidableEq, Repr

/-- Complex samples from payload words, I first, then Q (R87). -/
def pairSamples : List Word → List (Word × Word)
  | i :: q :: rest => (i, q) :: pairSamples rest
  | _ => []

/-- A 64-bit time from two payload words, low word first (R66, R83). -/
def timeOfWords (lo hi : Word) : BitVec 64 := hi ++ lo

/-- The command of a legal command word and its payload words (R82, R83). `none` when the opcode is reserved. -/
def assemble (w : Word) (payload : List Word) : Option Instr :=
  match (opcodeOf w).toNat with
  | 0x00 => some .nop
  | 0x01 => some (.cfgWrite ((argOf w).extractLsb' 0 8) (payload.headD 0))
  | 0x02 => some (.regRead (argOf w))
  | 0x03 => some .start
  | 0x04 => some .stop
  | 0x05 => some (.pushReal payload)
  | 0x06 => some (.pushComplex (pairSamples payload))
  | 0x07 => some (.setCorrection (argOf w) (payload.headD 0))
  | 0x08 => some (.sweep (timeOfWords (payload.headD 0) (payload.tail.headD 0)))
  | 0x09 => some (.summary (timeOfWords (payload.headD 0) (payload.tail.headD 0)))
  | 0x0A => some (.clearStatus ((argOf w).extractLsb' 0 4))
  | _ => none

/-- The first command of a word stream and the words after it (R70, R81 to R86), or why there is none. The meaning
of a command word never depends on the run state or on a register (R86). -/
def decode : List Word → Except DecodeError (Instr × List Word)
  | [] => .error .endOfStream
  | w :: ws =>
    if illegalWord w then .error .illegal
    else if ws.length < payloadWords w then .error .truncated
    else
      match assemble w (ws.take (payloadWords w)) with
      | some i => .ok (i, ws.drop (payloadWords w))
      | none => .error .illegal

/-! ## The byte transport (R64) -/

/-- The four bytes of a word, most significant first (R64). -/
def bytesOfWord (w : Word) : List Byte :=
  [w.extractLsb' 24 8, w.extractLsb' 16 8, w.extractLsb' 8 8, w.extractLsb' 0 8]

/-- The words that a byte transport delivers, each from 4 bytes, most significant first (R64). A word is the smallest
unit that crosses the port (R63), so 1 to 3 last bytes deliver no word (log 14). -/
def wordsOfBytes : List Byte → List Word
  | a :: b :: c :: d :: rest => (a ++ b ++ c ++ d) :: wordsOfBytes rest
  | _ => []

/-- Decoding of a byte transport's bytes, total on any bytes (R64). -/
def decodeBytes (bs : List Byte) : Except DecodeError (Instr × List Word) :=
  decode (wordsOfBytes bs)

/-! ## Encoding -/

/-- A command word: OPCODE, RSV = 0, ARG (R81). -/
def commandWord (op : BitVec 8) (arg : BitVec 16) : Word := op ++ (0 : BitVec 8) ++ arg

/-- Payload words of complex samples, I first, then Q (R87). -/
def flattenSamples : List (Word × Word) → List Word
  | [] => []
  | (i, q) :: rest => i :: q :: flattenSamples rest

/-- The two payload words of a 64-bit time, low word first (R66). -/
def wordsOfTime (t : BitVec 64) : List Word := [t.extractLsb' 0 32, t.extractLsb' 32 32]

/-- The words of a well-formed command (R82). -/
def encode : Instr → List Word
  | .nop => [commandWord 0x00 0]
  | .cfgWrite reg value => [commandWord 0x01 ((0 : BitVec 8) ++ reg), value]
  | .regRead arg => [commandWord 0x02 arg]
  | .start => [commandWord 0x03 0]
  | .stop => [commandWord 0x04 0]
  | .pushReal samples => commandWord 0x05 (BitVec.ofNat 16 samples.length) :: samples
  | .pushComplex samples => commandWord 0x06 (BitVec.ofNat 16 samples.length) :: flattenSamples samples
  | .setCorrection sel value => [commandWord 0x07 sel, value]
  | .sweep t => commandWord 0x08 0 :: wordsOfTime t
  | .summary t => commandWord 0x09 0 :: wordsOfTime t
  | .clearStatus mask => [commandWord 0x0A ((0 : BitVec 12) ++ mask)]

/-- The bytes of a well-formed command on a byte transport (R64). -/
def encodeBytes (i : Instr) : List Byte := (encode i).flatMap bytesOfWord

/-! ## The opcode table's words -/

/-- The words of an instruction whose bits are `w`, numbered as the opcode table numbers them: word k is bits
32k+31..32k of the lowest `nbits` bits of `w`. Every bit above is 0, up to the length the first word declares. -/
def tableWords (nbits w : Nat) : List Word :=
  let given := (List.range ((nbits + 31) / 32)).map fun k => BitVec.ofNat 32 ((w % 2 ^ nbits) >>> (32 * k))
  given ++ List.replicate (commandLength (given.headD 0) - given.length) 0

/-- The instruction the decoder reads from a table word laid out as the hardware stores it. -/
def decodeTableWord (nbits w : Nat) : Option Instr :=
  match decodeBytes ((tableWords nbits w).flatMap bytesOfWord) with
  | .ok (i, _) => some i
  | .error _ => none

end Sys2Proof
end

