-- ==== Sys2Proof/Machine/Bits.lean ====
section
/-! DEFINITION. Bit buffers (R9, R10, R65): fields, packing into words (R94), and counting one bits (R11). -/

namespace Sys2Proof.Machine

open Sys2Proof

/-- The unsigned integer of a bit buffer, bit 0 the most significant (R9). -/
def natOfBits (b : Bits) : Nat := b.foldl (fun acc x => 2 * acc + x.toNat) 0

/-- `B[p : p+w]`, the w bits from p (R9). -/
def slice (b : Bits) (p w : Nat) : Bits := (b.drop p).take w

/-- `field(B, p, w)`: the unsigned integer whose most significant bit is `B[p]` (R9). -/
def field (b : Bits) (p w : Nat) : Nat := natOfBits (slice b p w)

/-- The two bits of a dibit in buffer order: b1, then b0 (R10). -/
def bitsOfDibit (d : Dibit) : Bits := [d.getLsbD 1, d.getLsbD 0]

/-- The number of one bits (R11). -/
def popcount {n : Nat} (x : BitVec n) : Nat := (List.range n).countP fun i => x.getLsbD i

/-- One payload word: at most 32 bits, the first in bit 31, positions past the end 0 (R94). -/
def packWord (b : Bits) : Word := BitVec.ofNat 32 (natOfBits b * 2 ^ (32 - b.length))

/-- Payload packing: word w holds bits 32w to 32w+31 (R94, R65). -/
def packBits (b : Bits) : List Word :=
  (List.range ((b.length + 31) / 32)).map fun w => packWord (slice b (32 * w) 32)

/-- The low and the high word of a 64-bit value, in that order (R66). -/
def wordsOf64 (t : BitVec 64) : List Word := [t.extractLsb' 0 32, t.extractLsb' 32 32]

end Sys2Proof.Machine
end

