-- ==== Sys2Proof/Config.lean ====
section
/-! DEFINITION. What an implementation fixes: the OPEN parameters of R7 as opaque constants with no body, and the
types of the sizes (R7) and of the protocol profile (R8). The reference values and the checks of R8 are in
Sys2Proof/Machine/Profile.lean. -/

namespace Sys2Proof

/-! ## The OPEN parameters (R7, D1, D9): free values -/

/-- The value of register HW_ID: OPEN (R7, R23, D1). Nothing constrains it (log 5). -/
opaque Config.hwId : Word

/-- The value of register HW_VERSION: OPEN (R7, R23, D1). Nothing constrains it (log 5). -/
opaque Config.hwVersion : Word

/-- The free part of F_ATAN2: any function of `y` and `x` (R14, D9). `Machine.fAtan2` puts the laws of R14 on it (log 6). -/
opaque Config.atan2Free : Word → Word → Word

/-- The free part of F_SIN: any function (R14, D9). `Machine.fSin` puts the laws of R14 on it (log 6). -/
opaque Config.sinFree : Word → Word

/-- The free part of F_COS: any function (R14, D9). `Machine.fCos` puts the laws of R14 on it (log 6). -/
opaque Config.cosFree : Word → Word

/-! ## The types of the profile tables (R8) -/

/-- Message categories (R96): how the aggregator folds a message. -/
inductive Category where
  | none
  | siteStatus
  | networkStatus
  | neighbor
  | scc
  | grant
  | terminate
  | idle
deriving DecidableEq, Repr

/-- Identifier roles (R91). -/
inductive Role where
  | source
  | target
  | channel
  | key
  | attrChannel
  | attrClass
  | attrChannel2
  | attrClass2
  | radio
deriving DecidableEq, Repr

/-- Message direction (R29, R173). -/
inductive Direction where
  | outbound
  | inbound
deriving DecidableEq, Repr

/-- Header kinds (R177): the four variants the source names, and unknown. -/
inductive HeaderKind where
  | ambtc
  | packetData
  | response
  | umbtc
  | unknown
deriving DecidableEq, Repr

/-- The frame types of R147. Lengths are in bits after the prefix, status dibits excluded. -/
inductive FrameType where
  /-- no frame of this type exists -/
  | invalid
  /-- a fixed-length frame of PREFIX_LEN + `rawLen` bits, not decoded further -/
  | raw (rawLen : Nat) (category : Category)
  /-- 1 to `maxBlocks` trellis-coded trunking control blocks; `ilv` names the interleave table -/
  | tsbk (blockLen maxBlocks ilv : Nat)
  /-- a trellis-coded header block, then the data blocks it declares -/
  | pdu (blockLen maxBlocks ilv : Nat)
deriving DecidableEq, Repr

/-- A check specification CHK of R170. -/
structure CheckSpec where
  /-- W, the width of the check -/
  width : Nat
  /-- P, the polynomial without its top bit -/
  poly : Nat
  /-- I, the initial value -/
  init : Nat
  /-- X, the final xor -/
  xorOut : Nat
  /-- COV, the number of covered bits, from bit 0 -/
  cov : Nat
  /-- CPOS, the position of the W-bit check field -/
  pos : Nat
deriving DecidableEq, Repr

/-- One identifier field of an opcode-table entry: (ROLE, POS, WIDTH) (R173). -/
structure FieldSpec where
  role : Role
  pos : Nat
  width : Nat
deriving DecidableEq, Repr

/-- VSEL of an opcode-table entry (R173): a standard opcode, or the opcode of one vendor. -/
inductive VendorSel where
  | std
  | exact (mfid : BitVec 8)
deriving DecidableEq, Repr

/-- One entry of OPCODE_TABLE (R173). -/
structure OpcodeEntry where
  dir : Direction
  vsel : VendorSel
  opcode : BitVec 6
  msgType : BitVec 8
  category : Category
  fields : List FieldSpec
deriving DecidableEq, Repr

/-- One row of HEADER_KIND (R177): a format, a SAP or any SAP, and the kind. The first row that matches wins, and
no row means unknown, so a list of rows is a total function of format and SAP. -/
structure HeaderRow where
  format : BitVec 5
  sap : Option (BitVec 6)
  kind : HeaderKind
deriving DecidableEq, Repr

/-- The position and width of a field of a decoded block (R172, R176). -/
structure FieldPos where
  pos : Nat
  width : Nat
deriving DecidableEq, Repr

/-- The protocol profile: the immutable constant tables of R8. -/
structure Profile where
  /-- CF_COEF[b] for b in 0..NUM_BW-1 (R101) -/
  cfCoef : List (List Word)
  /-- SF_COEF[sps], as pairs (sps, taps) (R113) -/
  sfCoef : List (Nat × List Word)
  /-- RRC_COEF[sps], as pairs (sps, taps) (R117) -/
  rrcCoef : List (Nat × List Word)
  /-- SYNC_LEN (R139) -/
  syncLen : Nat
  /-- SYNC[0..NSYNC-1], right-aligned in 64 bits (R139) -/
  sync : List (BitVec 64)
  /-- STATUS_PERIOD (R144) -/
  statusPeriod : Nat
  /-- PREFIX_LEN (R146) -/
  prefixLen : Nat
  /-- TYPE_POS (R146) -/
  typePos : Nat
  /-- TYPE_WIDTH (R146) -/
  typeWidth : Nat
  /-- FRAME_TYPE[t] (R147) -/
  frameTypes : List FrameType
  /-- ILV[id] (R152) -/
  ilv : List (List Nat)
  /-- CONST[v] = (state, input) for v in 0..15 (R157) -/
  const : List (Dibit × Dibit)
  /-- COST[a][b] (R158) -/
  cost : List (List Nat)
  /-- CHECK_TSBK (R170) -/
  checkTsbk : CheckSpec
  /-- CHECK_HEADER (R170) -/
  checkHeader : CheckSpec
  /-- TSBK_LB_POS (R172) -/
  tsbkLbPos : Nat
  /-- TSBK_OPCODE_POS (R172) -/
  tsbkOpcodePos : Nat
  /-- TSBK_MFID_POS (R172) -/
  tsbkMfidPos : Nat
  /-- HDR_FORMAT_POS, HDR_FORMAT_WIDTH (R176) -/
  hdrFormat : FieldPos
  /-- HDR_SAP_POS, HDR_SAP_WIDTH (R176) -/
  hdrSap : FieldPos
  /-- HDR_MFID_POS, 8 (R176) -/
  hdrMfidPos : Nat
  /-- HDR_LLID_POS, HDR_LLID_WIDTH (R176) -/
  hdrLlid : FieldPos
  /-- HDR_BTF_POS, HDR_BTF_WIDTH (R176) -/
  hdrBtf : FieldPos
  /-- OPCODE_TABLE (R173) -/
  opcodeTable : List OpcodeEntry
  /-- STANDARD_MFIDS (R173) -/
  standardMfids : List (BitVec 8)
  /-- HEADER_KIND (R177) -/
  headerRows : List HeaderRow
  /-- CONFIRMED_FORMATS (R177) -/
  confirmedFormats : List (BitVec 5)
deriving DecidableEq, Repr

/-- The parameters of R7 that have reference values: the sizes and the profile. Fixed when the core is built. -/
structure Params where
  maxTaps : Nat
  maxAgcWindow : Nat
  numBw : Nat
  spsSupported : List Nat
  minEnv : Word
  maxCalls : Nat
  maxNeighbors : Nat
  maxScc : Nat
  maxFrameBits : Nat
  maxIds : Nat
  profile : Profile
deriving DecidableEq, Repr

end Sys2Proof
end

