-- ==== Sys2Proof/Machine/Float.lean ====
section
/-! DEFINITION. IEEE 754 binary32 arithmetic on bit patterns (R12, R66): exact results over the integers, rounded once
to nearest, ties to even. Every NaN result is the canonical 0x7FC00000, subnormals are kept, no flag exists. The helper
functions and constants of R13, the transcendental functions under the laws of R14, and the complex product of R15. -/

namespace Sys2Proof.Machine

open Sys2Proof

/-! ## Bit patterns -/

/-- The canonical quiet NaN (R12). -/
def qNaN : Word := 0x7FC00000

/-- The pattern of +∞, and the largest magnitude that is not a NaN. -/
def infMag : Nat := 0x7F800000

/-- Bits 30:0, exponent and fraction (R66). -/
def mag (w : Word) : Nat := w.toNat % 2 ^ 31

/-- Bit 31, the sign (R66). -/
def signBit (w : Word) : Bool := w.msb

def isNaN (w : Word) : Bool := infMag < mag w
def isInf (w : Word) : Bool := mag w == infMag
/-- Neither a NaN nor an infinity. -/
def isFinite (w : Word) : Bool := mag w < infMag
def isZero (w : Word) : Bool := mag w == 0

/-- The bit pattern with a given sign and magnitude. -/
def packF (neg : Bool) (m : Nat) : Word := BitVec.ofNat 32 ((if neg then 2 ^ 31 else 0) + m)

/-- The magnitude of a finite pattern as a multiple of 2^-149, the smallest subnormal. -/
def units (w : Word) : Nat :=
  if mag w < 2 ^ 23 then mag w else (2 ^ 23 + mag w % 2 ^ 23) * 2 ^ (mag w / 2 ^ 23 - 1)

/-- The signed value of a finite pattern as a multiple of 2^-149. -/
def valueF (w : Word) : Int := if signBit w then -(units w : Int) else (units w : Int)

/-! ## Rounding (R12) -/

/-- The magnitude pattern nearest to `num / den` multiples of 2^-149, ties to even. The low 23 bits of the
significand are kept by a shift of `sh` places. A carry out of the significand runs into the exponent, and a result
past the largest finite value is infinite. -/
def roundMag (num den : Nat) : Nat :=
  let sh := Nat.log2 (num / den) - 23
  let d := den * 2 ^ sh
  let q := num / d
  let r := num % d
  let m := if d < 2 * r || (2 * r == d && q % 2 == 1) then q + 1 else q
  min (sh * 2 ^ 23 + m) infMag

/-- The integer square root, bit by bit from bit `k - 1` down. -/
def isqrt (x : Nat) : Nat → Nat → Nat
  | 0, acc => acc
  | k + 1, acc => isqrt x k (if (acc + 2 ^ k) * (acc + 2 ^ k) ≤ x then acc + 2 ^ k else acc)

/-! ## The operations of R12 -/

/-- Flips the sign bit: the unary minus of R13 and R116. -/
def fneg (a : Word) : Word := a ^^^ 0x80000000

/-- `|a|` clears the sign bit (R12). -/
def fabs (a : Word) : Word := a &&& 0x7FFFFFFF

/-- `a +f b` (R12). -/
def fadd (a b : Word) : Word :=
  if isNaN a || isNaN b then qNaN
  else if isInf a then (if isInf b && signBit a != signBit b then qNaN else a)
  else if isInf b then b
  else
    let z := valueF a + valueF b
    if z = 0 then packF (signBit a && signBit b) 0
    else packF (decide (z < 0)) (roundMag z.natAbs 1)

/-- `a -f b` (R12). -/
def fsub (a b : Word) : Word := fadd a (fneg b)

/-- `a *f b` (R12). -/
def fmul (a b : Word) : Word :=
  let neg := signBit a != signBit b
  if isNaN a || isNaN b then qNaN
  else if isInf a || isInf b then (if isZero a || isZero b then qNaN else packF neg infMag)
  else packF neg (roundMag (units a * units b) (2 ^ 149))

/-- `a /f b` (R12). -/
def fdiv (a b : Word) : Word :=
  let neg := signBit a != signBit b
  if isNaN a || isNaN b then qNaN
  else if isInf a then (if isInf b then qNaN else packF neg infMag)
  else if isInf b then packF neg 0
  else if isZero b then (if isZero a then qNaN else packF neg infMag)
  else packF neg (roundMag (units a * 2 ^ 149) (units b))

/-- `sqrtf(a)` (R12). The root of the exact radicand, in half units, is at most 216 bits long. A remainder makes the
value lie strictly between two half units, which the odd numerator over 4 says. -/
def fsqrt (a : Word) : Word :=
  if isNaN a then qNaN
  else if isZero a then a
  else if signBit a then qNaN
  else if isInf a then a
  else
    let x := units a * 2 ^ 149 * 4
    let r := isqrt x 216 0
    packF false (roundMag (2 * r + (if r * r = x then 0 else 1)) 4)

/-- The order of the patterns that are not NaN: equal for -0.0 and +0.0. -/
def fkey (w : Word) : Int := if signBit w then -(mag w : Int) else (mag w : Int)

/-- `a < b`, false when either operand is a NaN (R12). -/
def flt (a b : Word) : Bool := !isNaN a && !isNaN b && decide (fkey a < fkey b)

/-- `a <= b`, false when either operand is a NaN (R12). -/
def fle (a b : Word) : Bool := !isNaN a && !isNaN b && decide (fkey a ≤ fkey b)

/-! ## Constants and helper functions (R13) -/

def fOne : Word := 0x3F800000
def fTwo : Word := 0x40000000
def piF : Word := 0x40490FDB
def halfPiF : Word := 0x3FC90FDB
def quarterPiF : Word := 0x3F490FDB
def threeQuarterPiF : Word := 0x4016CBE4
def twoPiF : Word := 0x40C90FDB

/-- MAXF (R13): a NaN `b` never wins. -/
def maxF (a b : Word) : Word := if flt a b then b else a

/-- MINF (R13). -/
def minF (a b : Word) : Word := if flt b a then b else a

/-- SANE (R13): a NaN becomes +0.0. -/
def sane (v : Word) : Word := if isNaN v then 0 else v

/-- CLAMP (R13). -/
def clampF (v lo hi : Word) : Word := if flt v lo then lo else if flt hi v then hi else v

/-- SAT (R13). -/
def satF (v m : Word) : Word := clampF (sane v) (fneg m) m

/-- WRAP (R13): one correction by TWO_PI_F only. -/
def wrapF (v : Word) : Word :=
  let u := sane v
  if flt piF u then fsub u twoPiF
  else if flt u (fneg piF) then fadd u twoPiF
  else u

/-! ## The transcendental functions (R14) -/

/-- Every NaN produced is the canonical one (R12, item I15). -/
def canonNaN (v : Word) : Word := if isNaN v then qNaN else v

/-- F_ATAN2(y, x): any function under the laws (a) to (d) of R14. The free function of `Config` decides every value
the laws leave open, and SAT keeps it within law (b), so every function that obeys the laws is one choice of the free
function (log 6). -/
def fAtan2 (y x : Word) : Word :=
  if isNaN y || isNaN x then qNaN
  else if isZero y && isZero x then 0
  else if y == 0 && flt 0 x then 0
  else satF (Config.atan2Free y x) piF

/-- F_SIN(v): any function under law (e) of R14 (log 6). -/
def fSin (v : Word) : Word := if v == 0 then 0 else canonNaN (Config.sinFree v)

/-- F_COS(v): any function under law (e) of R14 (log 6). -/
def fCos (v : Word) : Word := if v == 0 then fOne else canonNaN (Config.cosFree v)

/-! ## Complex values (R15) -/

/-- CMULCONJ(a, b), evaluated in the order of R15. -/
def cmulConj (a b : Cplx) : Cplx :=
  (fadd (fmul a.1 b.1) (fmul a.2 b.2), fsub (fmul a.2 b.1) (fmul a.1 b.2))

end Sys2Proof.Machine
end

