-- ==== Sys2Proof/Machine/Profile.lean ====
section
/-! DEFINITION. Look-ups in the parameters and the profile (R7, R8), the check of their constraints that a model makes
when it loads a profile (R8, I14), and the reference values of R7 with the candidate P25 profile of
spec/93_implementation_defined.md §B, which is general knowledge (log 3, 4). -/

namespace Sys2Proof.Machine

open Sys2Proof

/-! ## Look-ups -/

/-- CAPS0: the capacity parameters (R24). -/
def caps0 (p : Params) : Word :=
  BitVec.ofNat 8 p.numBw ++ BitVec.ofNat 8 p.maxScc ++ BitVec.ofNat 8 p.maxNeighbors ++ BitVec.ofNat 8 p.maxCalls

/-- CF_COEF[b] (R101). -/
def cfTaps (p : Params) (b : Nat) : List Word := p.profile.cfCoef.getD b []

/-- A coefficient set by samples per symbol: SF_COEF[sps] or RRC_COEF[sps] (R113, R117). -/
def tapsFor (table : List (Nat × List Word)) (sps : Nat) : List Word :=
  match table.find? (fun e => e.1 == sps) with
  | some e => e.2
  | none => []

/-- FRAME_TYPE[t] (R147). -/
def frameType (P : Profile) (t : BitVec 4) : FrameType := P.frameTypes.getD t.toNat .invalid

/-- ILV[id] (R152). -/
def ilvTable (P : Profile) (id : Nat) : List Nat := P.ilv.getD id []

/-- The BLOCK_LEN of a frame type whose blocks are half-rate coded. -/
def blockLenOf : FrameType → Option Nat
  | .invalid => none
  | .raw _ _ => none
  | .tsbk bl _ _ => some bl
  | .pdu bl _ _ => some bl

/-- The half-rate block lengths of the profile (R37). -/
def blockLens (P : Profile) : List Nat := P.frameTypes.filterMap blockLenOf

/-- N_MIN, the smallest BLOCK_LEN / 4 (R37); none when the profile has no half-rate block (log 10). -/
def nMin (P : Profile) : Option Nat := ((blockLens P).map (· / 4)).min?

/-- CONST[v] = (state, input) (R157). -/
def constOf (P : Profile) (v : Nibble) : Dibit × Dibit := P.const.getD v.toNat (0, 0)

/-- NEXT[s][d], the inverse of CONST (R157). -/
def nextOf (P : Profile) (s d : Dibit) : Nibble := BitVec.ofNat 4 (P.const.findIdx (fun c => c == (s, d)))

/-- COST[a][b] (R158). -/
def costOf (P : Profile) (a b : Nibble) : Nat := (P.cost.getD a.toNat []).getD b.toNat 0

/-- The DIRECTION register value of an opcode-table direction (R29). -/
def directionCode : Direction → Word
  | .outbound => 0
  | .inbound => 1

/-- Whether VSEL of an entry matches an MFID (R173). -/
def vendorMatches (P : Profile) (v : VendorSel) (mfid : BitVec 8) : Bool :=
  match v with
  | .std => P.standardMfids.contains mfid
  | .exact m => m == mfid

/-- Lookup(dir, opcode, mfid): the first matching entry in table order (R173). -/
def lookupOpcode (P : Profile) (dir : Word) (opcode : BitVec 6) (mfid : BitVec 8) : Option OpcodeEntry :=
  P.opcodeTable.find? fun e => directionCode e.dir == dir && e.opcode == opcode && vendorMatches P e.vsel mfid

/-- Whether a row of HEADER_KIND matches (R177). -/
def headerRowMatches (r : HeaderRow) (format : BitVec 5) (sap : BitVec 6) : Bool :=
  r.format == format && (match r.sap with | some v => v == sap | none => true)

/-- HEADER_KIND(format, sap), total (R177). -/
def headerKind (P : Profile) (format : BitVec 5) (sap : BitVec 6) : HeaderKind :=
  match P.headerRows.find? (fun r => headerRowMatches r format sap) with
  | some r => r.kind
  | none => .unknown

/-! ## The constraints of R7 and R8 -/

/-- A coefficient set: 1..MAX_TAPS finite taps (R101, R113, R117). -/
def tapsOk (p : Params) (h : List Word) : Bool :=
  decide (1 ≤ h.length) && decide (h.length ≤ p.maxTaps) && h.all isFinite

/-- The sizes of R7. -/
def sizesOk (p : Params) : Bool :=
  decide (1 ≤ p.maxTaps ∧ p.maxTaps ≤ 1024)
    && decide (1 ≤ p.maxAgcWindow ∧ p.maxAgcWindow ≤ 1024)
    && decide (1 ≤ p.numBw ∧ p.numBw ≤ 255)
    && p.spsSupported.all (fun s => decide (1 ≤ s ∧ s ≤ 64))
    && p.spsSupported.contains 1
    && isFinite p.minEnv && flt 0 p.minEnv
    && decide (1 ≤ p.maxCalls ∧ p.maxCalls ≤ 255)
    && decide (1 ≤ p.maxNeighbors ∧ p.maxNeighbors ≤ 255)
    && decide (1 ≤ p.maxScc ∧ p.maxScc ≤ 255)
    && decide (p.maxFrameBits ≤ 65535)
    && decide (p.maxIds ≤ 15)

/-- The coefficient sets (R8, R101, R113, R117). -/
def coefsOk (p : Params) : Bool :=
  decide (p.profile.cfCoef.length = p.numBw)
    && p.profile.cfCoef.all (tapsOk p)
    && cfTaps p 0 == [fOne]
    && p.spsSupported.all (fun s => tapsOk p (tapsFor p.profile.sfCoef s) && tapsOk p (tapsFor p.profile.rrcCoef s))
    && tapsFor p.profile.sfCoef 1 == [fOne]
    && tapsFor p.profile.rrcCoef 1 == [fOne]

/-- The sync patterns, the status period and the prefix (R8, R139, R144, R146). -/
def syncOk (p : Params) : Bool :=
  let P := p.profile
  decide (P.syncLen % 2 = 0 ∧ 2 ≤ P.syncLen ∧ P.syncLen ≤ 64)
    && decide (1 ≤ P.sync.length ∧ P.sync.length ≤ 16)
    && P.sync.all (fun w => decide (w.toNat < 2 ^ P.syncLen))
    && decide (P.statusPeriod = 0 ∨ (2 ≤ P.statusPeriod ∧ P.statusPeriod ≤ 255))
    && decide (P.prefixLen % 2 = 0 ∧ 2 ≤ P.prefixLen)
    && decide (1 ≤ P.typeWidth ∧ P.typeWidth ≤ 4 ∧ P.typePos + P.typeWidth ≤ P.prefixLen)

/-- A permutation of 0..n-1 (R152). -/
def permOk (table : List Nat) (n : Nat) : Bool :=
  decide (table.length = n) && (List.range n).all (fun i => table.contains i)

/-- The block shape of a TSBK or PDU frame type (R147, R152). -/
def blocksOk (p : Params) (bl mb ilv : Nat) : Bool :=
  decide (bl % 4 = 0 ∧ 8 ≤ bl)
    && decide (p.profile.prefixLen + mb * bl ≤ p.maxFrameBits)
    && decide (ilv < p.profile.ilv.length)
    && permOk (ilvTable p.profile ilv) bl

/-- One frame type (R147). A header record has one identifier, so a PDU type needs room for it (R80, R178; log 21). A raw
frame's category needs no role that its record lacks (R209), and a broadcast has at
least 80 bits (R192). -/
def frameTypeOk (p : Params) : FrameType → Bool
  | .invalid => true
  | .raw len cat =>
    decide (len % 2 = 0) && decide (p.profile.prefixLen + len ≤ p.maxFrameBits)
      && cat != .grant && cat != .neighbor
      && ((cat != .siteStatus && cat != .networkStatus) || decide (80 ≤ p.profile.prefixLen + len))
  | .tsbk bl mb ilv => blocksOk p bl mb ilv && decide (1 ≤ mb ∧ mb ≤ 255)
  | .pdu bl mb ilv => blocksOk p bl mb ilv && decide (2 ≤ mb ∧ mb ≤ 255) && decide (1 ≤ p.maxIds)

/-- ILV: every table is a permutation, whether or not a frame type names it (R8, R152). -/
def ilvOk (P : Profile) : Bool := P.ilv.all fun table => permOk table table.length

/-- FRAME_TYPE (R8, R147); the prefix alone also fits the frame buffer. -/
def framesOk (p : Params) : Bool :=
  decide (p.profile.frameTypes.length = 2 ^ p.profile.typeWidth)
    && decide (p.profile.prefixLen ≤ p.maxFrameBits)
    && p.profile.frameTypes.all (frameTypeOk p)

/-- Every transmitted value, in order. -/
def nibbles16 : List Nibble := (List.range 16).map (BitVec.ofNat 4)

/-- Every dibit, in order. -/
def dibits4 : List Dibit := [0, 1, 2, 3]

/-- CONST is a bijection of the 16 values onto the 16 pairs (R157). -/
def constOk (P : Profile) : Bool :=
  decide (P.const.length = 16)
    && nibbles16.all (fun v => nextOf P (constOf P v).1 (constOf P v).2 == v)
    && dibits4.all (fun s => dibits4.all fun d => constOf P (nextOf P s d) == (s, d))

/-- COST is symmetric with a zero diagonal and values 0..255 (R158). -/
def costOk (P : Profile) : Bool :=
  decide (P.cost.length = 16) && P.cost.all (fun r => decide (r.length = 16))
    && nibbles16.all fun a => costOf P a a == 0
      && nibbles16.all fun b => costOf P a b == costOf P b a && decide (costOf P a b ≤ 255)

/-- A check specification: a width of 1 to 32, and values of that width (R8, R170). -/
def checkSpecOk (c : CheckSpec) : Bool :=
  decide (1 ≤ c.width ∧ c.width ≤ 32)
    && decide (c.poly < 2 ^ c.width ∧ c.init < 2 ^ c.width ∧ c.xorOut < 2 ^ c.width)

/-- The positions of a check inside a block of n decoded bits (R8, R170). -/
def checkFits (c : CheckSpec) (n : Nat) : Bool := decide (c.cov ≤ n) && decide (c.pos + c.width ≤ n)

/-- The decoded bits of one TSBK block (R164). -/
def tsbkBits (P : Profile) : List Nat :=
  P.frameTypes.filterMap fun
    | .tsbk bl _ _ => some (bl / 2)
    | _ => none

/-- The decoded bits of a PDU header block (R164). -/
def headerBits (P : Profile) : List Nat :=
  P.frameTypes.filterMap fun
    | .pdu bl _ _ => some (bl / 2)
    | _ => none

/-- Checks and field positions inside the decoded block (R8, R170, R172, R176); both check specifications are checked
whether or not a frame type uses them. The header widths are the ones that
R178 writes out (log 9). -/
def fieldsOk (P : Profile) : Bool :=
  checkSpecOk P.checkTsbk && checkSpecOk P.checkHeader
    && (tsbkBits P).all (fun n =>
      checkFits P.checkTsbk n && decide (P.tsbkLbPos < n)
        && decide (P.tsbkOpcodePos + 6 ≤ n) && decide (P.tsbkMfidPos + 8 ≤ n))
    && (headerBits P).all (fun n =>
      checkFits P.checkHeader n && decide (P.hdrFormat.pos + P.hdrFormat.width ≤ n)
        && decide (P.hdrSap.pos + P.hdrSap.width ≤ n) && decide (P.hdrMfidPos + 8 ≤ n)
        && decide (P.hdrLlid.pos + P.hdrLlid.width ≤ n) && decide (P.hdrBtf.pos + P.hdrBtf.width ≤ n))
    && decide (P.hdrFormat.width = 5 ∧ P.hdrSap.width = 6 ∧ P.hdrLlid.width = 24 ∧ P.hdrBtf.width = 7)

/-- Whether an entry lists a role. -/
def listsRole (e : OpcodeEntry) (r : Role) : Bool := e.fields.any fun f => f.role == r

/-- The roles that a category needs (R193, R197, R198). -/
def rolesOk (e : OpcodeEntry) : Bool :=
  match e.category with
  | .grant => listsRole e .channel && listsRole e .target && listsRole e .source
  | .neighbor => listsRole e .key
  | .scc => (!listsRole e .attrChannel || listsRole e .attrClass) && (!listsRole e .attrChannel2 || listsRole e .attrClass2)
  | .none => true
  | .siteStatus => true
  | .networkStatus => true
  | .terminate => true
  | .idle => true

/-- The widths that the SCC set's 16-bit channel and 8-bit class allow (R46; log 21). -/
def sccWidthOk (f : FieldSpec) : Bool :=
  match f.role with
  | .attrChannel => decide (f.width ≤ 16)
  | .attrChannel2 => decide (f.width ≤ 16)
  | .attrClass => decide (f.width ≤ 8)
  | .attrClass2 => decide (f.width ≤ 8)
  | .source => true
  | .target => true
  | .channel => true
  | .key => true
  | .radio => true

/-- OPCODE_TABLE (R8, R80, R173, R192). -/
def opcodesOk (p : Params) : Bool :=
  decide (p.profile.opcodeTable.length ≤ 256)
    && p.profile.opcodeTable.all fun e =>
      decide (e.fields.length ≤ p.maxIds) && e.msgType != 0xFF && rolesOk e
        && e.fields.all (fun f => decide (f.width ≤ 28) && sccWidthOk f)
        && (tsbkBits p.profile).all (fun n => e.fields.all fun f => decide (f.pos + f.width ≤ n))
        && ((e.category != .siteStatus && e.category != .networkStatus)
            || (tsbkBits p.profile).all fun n => decide (80 ≤ n))

/-- The constraints a model checks when it loads a profile (R7, R8, I14). -/
def paramsOk (p : Params) : Bool :=
  sizesOk p && coefsOk p && syncOk p && framesOk p && ilvOk p.profile && constOk p.profile && costOk p.profile
    && fieldsOk p.profile && opcodesOk p

/-! ## The candidate P25 profile (93 §B; PRESUMED general knowledge, log 4) -/

/-- tau(s), the air nibble of coded nibble s. -/
def p25Tau (s : Nat) : Nat :=
  match s % 4 with
  | 0 => s / 4
  | 1 => 13 + (s - 1) / 4
  | 2 => 25 + (s - 2) / 4
  | _ => 37 + (s - 3) / 4

/-- ILV[0]: ILV[0][4s + b] = 4 tau(s) + b. Its direction is unverified (I24). -/
def p25Ilv : List Nat := (List.range 49).flatMap fun s => (List.range 4).map fun b => 4 * p25Tau s + b

/-- CONST[v] for v in 0..15. -/
def p25Const : List (Dibit × Dibit) :=
  [(1, 1), (0, 2), (0, 0), (1, 3), (2, 3), (3, 0), (3, 2), (2, 1),
   (3, 3), (2, 0), (2, 2), (3, 1), (0, 1), (1, 2), (1, 0), (0, 3)]

/-- COST[a][b] = popcount(a xor b). -/
def p25Cost : List (List Nat) := nibbles16.map fun a => nibbles16.map fun b => popcount (a ^^^ b)

/-- FRAME_TYPE[t] by DUID. -/
def p25FrameTypes : List FrameType :=
  [.raw 658 .none, .invalid, .invalid, .raw 28 .terminate,
   .invalid, .raw 1568 .none, .invalid, .tsbk 196 3 0,
   .invalid, .invalid, .raw 1568 .none, .invalid,
   .pdu 196 128 0, .invalid, .invalid, .raw 308 .terminate]

/-- CRC-CCITT over bits 0..79, at bits 80..95. -/
def p25Check : CheckSpec := { width := 16, poly := 0x1021, init := 0, xorOut := 0xFFFF, cov := 80, pos := 80 }

/-- An outbound standard entry whose MSG_TYPE is its opcode. -/
def p25Entry (op : BitVec 6) (cat : Category) (fields : List FieldSpec) : OpcodeEntry :=
  { dir := .outbound, vsel := .std, opcode := op, msgType := op.setWidth 8, category := cat, fields := fields }

/-- The five entries of OPCODE_TABLE. -/
def p25Opcodes : List OpcodeEntry :=
  [p25Entry 0x00 .grant [⟨.channel, 24, 16⟩, ⟨.target, 40, 16⟩, ⟨.source, 56, 24⟩],
   p25Entry 0x39 .scc [⟨.attrChannel, 32, 16⟩, ⟨.attrClass, 48, 8⟩, ⟨.attrChannel2, 56, 16⟩, ⟨.attrClass2, 72, 8⟩],
   p25Entry 0x3A .siteStatus [],
   p25Entry 0x3B .networkStatus [],
   p25Entry 0x3C .neighbor [⟨.key, 28, 28⟩]]

/-- HEADER_KIND. -/
def p25HeaderRows : List HeaderRow :=
  [⟨0x17, none, .ambtc⟩, ⟨0x15, some 0x3D, .umbtc⟩, ⟨0x15, none, .packetData⟩, ⟨0x16, none, .packetData⟩,
   ⟨0x03, none, .response⟩]

/-- The candidate P25 Phase 1 profile of 93 §B. -/
def p25Profile : Profile :=
  { cfCoef := [[fOne]]
    sfCoef := [(1, [fOne])]
    rrcCoef := [(1, [fOne])]
    syncLen := 48
    sync := [0x5575F5FF77FF]
    statusPeriod := 36
    prefixLen := 64
    typePos := 12
    typeWidth := 4
    frameTypes := p25FrameTypes
    ilv := [p25Ilv]
    const := p25Const
    cost := p25Cost
    checkTsbk := p25Check
    checkHeader := p25Check
    tsbkLbPos := 0
    tsbkOpcodePos := 2
    tsbkMfidPos := 8
    hdrFormat := ⟨3, 5⟩
    hdrSap := ⟨10, 6⟩
    hdrMfidPos := 16
    hdrLlid := ⟨24, 24⟩
    hdrBtf := ⟨49, 7⟩
    opcodeTable := p25Opcodes
    standardMfids := [0x00, 0x01]
    headerRows := p25HeaderRows
    confirmedFormats := [0x16] }

/-- The reference values of R7 with the candidate profile (DESIGN CHOICE, log 3). -/
def referenceParams : Params :=
  { maxTaps := 256
    maxAgcWindow := 256
    numBw := 1
    spsSupported := [1]
    minEnv := 0x35800000
    maxCalls := 8
    maxNeighbors := 16
    maxScc := 16
    maxFrameBits := 25152
    maxIds := 8
    profile := p25Profile }

end Sys2Proof.Machine
end

