-- ==== Sys2Proof/Machine/Parts.lean ====
section
/-! DEFINITION. The parts of the state: the register files of R20 with their reset values, the internal elements of R46
with their cleared values, message records (R92), block results (R164) and output events (R58). -/

namespace Sys2Proof.Machine

open Sys2Proof

/-! ## Registers (R20) -/

/-- The run state (R21). -/
inductive RunState where
  | idle
  | running
  | configError
deriving DecidableEq, Repr

/-- The causes of a command refusal: the four sticky bits of STATUS (R22, R236). -/
inductive Cause where
  /-- bit 8: an unknown opcode or a nonzero reserved field -/
  | illegalCmd
  /-- bit 9: not allowed in the current run state or input kind -/
  | cmdRejected
  /-- bit 10: a register number unassigned or not writable by that command -/
  | badReg
  /-- bit 11: SET_CORRECTION received an out-of-range value -/
  | badValue
deriving DecidableEq, Repr

/-- The fields of STATUS (R22). Its other bits read 0. -/
structure Status where
  run : RunState
  illegalCmd : Bool
  cmdRejected : Bool
  badReg : Bool
  badValue : Bool
  cfgErrCode : BitVec 8
deriving DecidableEq, Repr

/-- STATUS after reset: IDLE, no sticky bit, no code (R256). -/
def statusReset : Status :=
  { run := .idle, illegalCmd := false, cmdRejected := false, badReg := false, badValue := false, cfgErrCode := 0 }

/-- The CFG registers by name (R20). -/
inductive CfgReg where
  | modulation | inputKind | decoderType | sps | direction | filterBw
  | agcWindow | agcTarget | agcMaxGain
  | dgcAttack | dgcDecay | dgcTarget | dgcMinGain | dgcMaxGain | dgcInitGain
  | sdgcAttack | sdgcDecay | sdgcTarget | sdgcMinGain | sdgcMaxGain | sdgcInitGain
  | costasAlpha | costasBeta | maxCorrection
  | slicerLevel
  | syncTol | trellisMax
  | callTimeoutLo | callTimeoutHi | pduTimeoutLo | pduTimeoutHi
deriving DecidableEq, Repr

/-- The COR registers by name (R20). -/
inductive CorReg where
  | slicerOffset | slicerSpan | timingPhase
deriving DecidableEq, Repr

/-- The RO registers by name (R20). -/
inductive RoReg where
  | hwId | hwVersion | status | caps0
  | sampleCountLo | sampleCountHi | feedback
  | symbolCount | syncCount | resyncCount | frameCount
  | blockOk | blockCorrected | blockRejected
  | msgCount | msgInvalid
  | pduComplete | pduAbandoned | orphanBlock
  | neighborOverflow | sccOverflow | callEvict
  | framerState | correctedBits
deriving DecidableEq, Repr

/-- The CFG registers: any 32-bit pattern until START judges it (R213). -/
structure CfgRegs where
  modulation : Word
  inputKind : Word
  decoderType : Word
  sps : Word
  direction : Word
  filterBw : Word
  agcWindow : Word
  agcTarget : Word
  agcMaxGain : Word
  dgcAttack : Word
  dgcDecay : Word
  dgcTarget : Word
  dgcMinGain : Word
  dgcMaxGain : Word
  dgcInitGain : Word
  sdgcAttack : Word
  sdgcDecay : Word
  sdgcTarget : Word
  sdgcMinGain : Word
  sdgcMaxGain : Word
  sdgcInitGain : Word
  costasAlpha : Word
  costasBeta : Word
  maxCorrection : Word
  slicerLevel : Word
  syncTol : Word
  trellisMax : Word
  callTimeoutLo : Word
  callTimeoutHi : Word
  pduTimeoutLo : Word
  pduTimeoutHi : Word
deriving DecidableEq, Repr

/-- The reset-value column of R20 for the CFG registers. -/
def cfgReset : CfgRegs :=
  { modulation := 0
    inputKind := 0
    decoderType := 0
    sps := 1
    direction := 0
    filterBw := 0
    agcWindow := 1
    agcTarget := 0x3F800000
    agcMaxGain := 0x3F800000
    dgcAttack := 0
    dgcDecay := 0
    dgcTarget := 0x3F800000
    dgcMinGain := 0x3F800000
    dgcMaxGain := 0x3F800000
    dgcInitGain := 0x3F800000
    sdgcAttack := 0
    sdgcDecay := 0
    sdgcTarget := 0x3F800000
    sdgcMinGain := 0x3F800000
    sdgcMaxGain := 0x3F800000
    sdgcInitGain := 0x3F800000
    costasAlpha := 0
    costasBeta := 0
    maxCorrection := 0x3E000000
    slicerLevel := 0x3F800000
    syncTol := 4
    trellisMax := 7
    callTimeoutLo := 0x0000BB80
    callTimeoutHi := 0
    pduTimeoutLo := 0x0000BB80
    pduTimeoutHi := 0 }

/-- The COR registers (R40). -/
structure CorRegs where
  slicerOffset : Word
  slicerSpan : Word
  timingPhase : Word
deriving DecidableEq, Repr

/-- The reset-value column of R20 for the COR registers. -/
def corReset : CorRegs := { slicerOffset := 0, slicerSpan := 0x3F800000, timingPhase := 0 }

/-- SAMPLE_COUNT (R41), FEEDBACK (R42) and the event counters (R43). -/
structure Counters where
  sampleCount : BitVec 64
  feedback : Word
  symbolCount : Word
  syncCount : Word
  resyncCount : Word
  frameCount : Word
  blockOk : Word
  blockCorrected : Word
  blockRejected : Word
  msgCount : Word
  msgInvalid : Word
  pduComplete : Word
  pduAbandoned : Word
  orphanBlock : Word
  neighborOverflow : Word
  sccOverflow : Word
  callEvict : Word
  correctedBits : Word
deriving DecidableEq, Repr

/-- ClearCounters: SAMPLE_COUNT, FEEDBACK and every counter of R43 at 0 (R60). -/
def countersCleared : Counters :=
  { sampleCount := 0
    feedback := 0
    symbolCount := 0
    syncCount := 0
    resyncCount := 0
    frameCount := 0
    blockOk := 0
    blockCorrected := 0
    blockRejected := 0
    msgCount := 0
    msgInvalid := 0
    pduComplete := 0
    pduAbandoned := 0
    orphanBlock := 0
    neighborOverflow := 0
    sccOverflow := 0
    callEvict := 0
    correctedBits := 0 }

/-! ## The front end: conditioner and demodulator (R46) -/

/-- The conditioner's state (R110): st.cf_line as its two components, st.env_ring oldest first, st.dgc_gain. -/
structure Conditioner where
  cfLineRe : List Word
  cfLineIm : List Word
  envRing : List Word
  dgcGain : Word
deriving DecidableEq, Repr

/-- The cleared conditioner (R46, R59): the ring has AGC_WINDOW entries, the register's
value at the clear. A later CFG_WRITE leaves the ring alone (log 8). -/
def conditionerCleared (p : Params) (c : CfgRegs) : Conditioner :=
  { cfLineRe := List.replicate p.maxTaps 0
    cfLineIm := List.replicate p.maxTaps 0
    envRing := List.replicate c.agcWindow.toNat 0
    dgcGain := c.dgcInitGain }

/-- The demodulator's state (R124): st.disc_prev, st.sf_line, st.sdgc_gain, st.rrc_line as its two components,
st.theta, st.freq, and st.zhist oldest first. -/
structure Demod where
  discPrev : Cplx
  sfLine : List Word
  sdgcGain : Word
  rrcLineRe : List Word
  rrcLineIm : List Word
  theta : Word
  freq : Word
  zhist : List Cplx
deriving DecidableEq, Repr

/-- The cleared demodulator (R46, R59): the history has SPS samples, the register's value at
the clear. A later CFG_WRITE leaves the history alone (log 8). -/
def demodCleared (p : Params) (c : CfgRegs) : Demod :=
  { discPrev := (0, 0)
    sfLine := List.replicate p.maxTaps 0
    sdgcGain := c.sdgcInitGain
    rrcLineRe := List.replicate p.maxTaps 0
    rrcLineIm := List.replicate p.maxTaps 0
    theta := 0
    freq := 0
    zhist := List.replicate c.sps.toNat (0, 0) }

/-! ## The framer (R46, R138) -/

/-- The four framer states (R138). -/
inductive FramerState where
  | searching
  | synchronized
  | framing
  | emit
deriving DecidableEq, Repr

/-- The status of a block result (R149). -/
inductive BlockStatus where
  | ok
  | corrected
  | rejected
  | undecoded
deriving DecidableEq, Repr

/-- A block result: status, decoded bits, error count, corrected-bit count (R164). -/
structure BlockResult where
  status : BlockStatus
  bits : Bits
  errors : Nat
  corrected : Nat
deriving DecidableEq, Repr

/-- The framer's state (R46). -/
structure Framer where
  fstate : FramerState
  /-- the sliding window, its SYNC_LEN bits right-aligned in 64 (R139, R141) -/
  window : BitVec 64
  fill : Nat
  /-- sample indices of the window's dibits, oldest first (R141) -/
  tsRing : List (BitVec 64)
  frameTs : BitVec 64
  k : Word
  buf : Bits
  target : Nat
  ftype : BitVec 4
  blocks : List BlockResult
  expected : Nat
  hdrFormat : BitVec 5
deriving DecidableEq, Repr

/-- The cleared framer (R46). -/
def framerCleared : Framer :=
  { fstate := .searching
    window := 0
    fill := 0
    tsRing := []
    frameTs := 0
    k := 0
    buf := []
    target := 0
    ftype := 0
    blocks := []
    expected := 0
    hdrFormat := 0 }

/-! ## Message records and the parser (R92, R179) -/

/-- Message classes (R89). -/
inductive MsgClass where
  | tsbk
  | header
  | dataBlock
  | pduSequence
  | unparsedSequence
  | rawFrame
deriving DecidableEq, Repr

/-- CHECK codes (R90). -/
inductive Check where
  | none
  | pass
  | fail
deriving DecidableEq, Repr

/-- An identifier: a role and a value of at most 28 bits (R93). -/
structure Ident where
  role : Role
  value : BitVec 28
deriving DecidableEq, Repr

/-- A message record by its fields (R92). VALID is a function of CHECK (R185). -/
structure Msg where
  cls : MsgClass
  msgType : BitVec 8
  ftype : BitVec 4
  check : Check
  undecoded : Bool
  blockIndex : Nat
  correctedBits : Nat
  ts : BitVec 64
  key : Word
  ids : List Ident
  payload : Bits
deriving DecidableEq, Repr

/-- A pending PDU sequence (R179). -/
structure Pending where
  header : Msg
  blocks : List Msg
  n : Nat
  ts : BitVec 64
deriving DecidableEq, Repr

/-! ## The aggregator (R46, R190) -/

/-- A stored broadcast: payload bits and timestamp (R192). -/
structure Broadcast where
  payload : Bits
  ts : BitVec 64
deriving DecidableEq, Repr

/-- A neighbor-table entry (R197). -/
structure Neighbor where
  key : BitVec 28
  payload : Bits
  ts : BitVec 64
deriving DecidableEq, Repr

/-- A call record (R193). -/
structure Call where
  source : BitVec 28
  target : BitVec 28
  channel : BitVec 28
  grantTs : BitVec 64
  lastTs : BitVec 64
deriving DecidableEq, Repr

/-- The aggregator's state (R46). The neighbor map is held in ascending key order, the order SUMMARY lists it in
(R206); the SCC set is sorted by (channel, class) (R198); a call slot is none when closed. -/
structure Agg where
  site : Option Broadcast
  network : Option Broadcast
  neighbors : List Neighbor
  scc : List (BitVec 16 × BitVec 8)
  calls : List (Option Call)
deriving DecidableEq, Repr

/-- The cleared aggregator: MAX_CALLS closed slots and nothing else (R46, R210). -/
def aggCleared (p : Params) : Agg :=
  { site := none, network := none, neighbors := [], scc := [], calls := List.replicate p.maxCalls none }

/-! ## Output (R58) -/

/-- The events of the output trace (R58), each as the words its port carries (R63, R88, R92, R95, R206). -/
inductive Event where
  /-- the answer to REG_READ -/
  | response (w : Word)
  /-- the word list answering SUMMARY -/
  | summary (ws : List Word)
  /-- one binary32 word per CQPSK sample -/
  | feedback (w : Word)
  /-- a message record -/
  | message (ws : List Word)
  /-- an attribute-changed notification -/
  | notify (n0 n1 n2 : Word)
deriving DecidableEq, Repr

/-- The half of the state that the framer, the parser and the aggregator share: counters, framer, pending sequence,
aggregator and output trace. The stage operations after the slicer read the parameters and the CFG registers and
write only this. -/
structure Backend where
  cnt : Counters
  framer : Framer
  pending : Option Pending
  agg : Agg
  trace : List Event
deriving DecidableEq, Repr

/-- What the stage rules may read besides their own state: the parameters and the CFG registers, which no stage
writes (R76, R77). -/
structure Env where
  par : Params
  cfg : CfgRegs
deriving DecidableEq, Repr

end Sys2Proof.Machine
end

