-- ==== Sys2Proof/Machine/State.lean ====
section
/-! DEFINITION. The machine's state, the reasons a step can stop, and the state after reset (R256). -/

namespace Sys2Proof.Machine

open Sys2Proof

/-- Everything the spec gives the core (R20, R46, R49, R58), with the parameters it was built with (R7, R8). -/
structure State where
  /-- the build-time parameters: sizes and profile; no step changes them (R8, R76) -/
  par : Params
  /-- the words of the command stream not yet consumed (R70) -/
  cmdIn : List Word
  /-- the index of the next unconsumed word of the command stream (R49) -/
  cmdPos : Nat
  /-- the CFG registers (R20) -/
  cfg : CfgRegs
  /-- the COR registers (R40) -/
  cor : CorRegs
  /-- STATUS (R22) -/
  status : Status
  /-- the sample conditioner (R110) -/
  cond : Conditioner
  /-- the demodulator (R124) -/
  demod : Demod
  /-- counters, framer, pending sequence, aggregator and output trace -/
  back : Backend
deriving DecidableEq, Repr

/-- Faults: none. The core has no trap (R16, R244) and no access that stops it (R79): every command ends in a next
state. -/
inductive Fault where
deriving DecidableEq, Repr

/-- Why a step has no next state. -/
inductive Refusal where
  /-- An instruction with no meaning yet, by its mnemonic: raised only by an arm of `exec`. Safe: nothing is claimed of
  such an instruction. No arm raises it now. -/
  | notModelled (mnemonic : String)
  /-- The command stream is exhausted at a command boundary, so the run has ended (R71): raised only by `step`. Safe:
  the core performs nothing more and the state stays as it is. -/
  | endOfStream
  /-- The command stream ends inside a command, which is not performed (R71, I12): raised only by `step`. Safe: the
  spec asks a model to report it as a refusal. -/
  | truncatedCommand
deriving DecidableEq, Repr

/-- What the stage rules may read of a state. -/
def State.env (s : State) : Env := { par := s.par, cfg := s.cfg }

/-- The state right after reset of a core built with parameters `p` (R256). -/
def State.resetWith (p : Params) : State :=
  { par := p
    cmdIn := []
    cmdPos := 0
    cfg := cfgReset
    cor := corReset
    status := statusReset
    cond := conditionerCleared p cfgReset
    demod := demodCleared p cfgReset
    back :=
      { cnt := countersCleared
        framer := framerCleared
        pending := none
        agg := aggCleared p
        trace := [] } }

/-- The state right after reset (R256) of a core with the reference parameters (R7; log 3, 4). -/
def State.reset : State := State.resetWith referenceParams

end Sys2Proof.Machine
end

