-- ==== Sys2Proof/Machine/Codes.lean ====
section
/-! DEFINITION. The numeric codes of every enumeration (R99): run states, framer states, message classes, checks,
roles, header kinds, notification categories. -/

namespace Sys2Proof.Machine

open Sys2Proof

/-- RUN_STATE (R21): the value 3 is never held. -/
def runCode : RunState → BitVec 2
  | .idle => 0
  | .running => 1
  | .configError => 2

/-- FRAMER_STATE (R44, R138). -/
def framerCode : FramerState → Word
  | .searching => 0
  | .synchronized => 1
  | .framing => 2
  | .emit => 3

/-- CLASS (R89). -/
def classCode : MsgClass → BitVec 4
  | .tsbk => 0
  | .header => 1
  | .dataBlock => 2
  | .pduSequence => 3
  | .unparsedSequence => 4
  | .rawFrame => 5

/-- CHECK (R90). -/
def checkCode : Check → BitVec 2
  | .none => 0
  | .pass => 1
  | .fail => 2

/-- ROLE (R91). -/
def roleCode : Role → BitVec 4
  | .source => 1
  | .target => 2
  | .channel => 3
  | .key => 4
  | .attrChannel => 5
  | .attrClass => 6
  | .attrChannel2 => 7
  | .attrClass2 => 8
  | .radio => 9

/-- The header kind of a record's MSG_TYPE (R92, R177). -/
def headerKindCode : HeaderKind → BitVec 8
  | .ambtc => 1
  | .packetData => 2
  | .response => 3
  | .umbtc => 4
  | .unknown => 0xFF

/-- Notification categories (R95). -/
inductive NCat where
  | site
  | network
  | neighbor
  | scc
  | callOpen
  | callUpdate
  | callClose
deriving DecidableEq, Repr

/-- NCAT (R95). -/
def ncatCode : NCat → BitVec 8
  | .site => 1
  | .network => 2
  | .neighbor => 3
  | .scc => 4
  | .callOpen => 5
  | .callUpdate => 6
  | .callClose => 7

/-! ## Records -/

/-- VALID: CHECK is not FAIL (R185). -/
def msgValid (m : Msg) : Bool := m.check != .fail

/-- W0 of a message record (R92). -/
def msgW0 (m : Msg) : Word :=
  classCode m.cls ++ m.msgType ++ m.ftype ++ BitVec.ofBool (msgValid m) ++ checkCode m.check
    ++ BitVec.ofBool m.undecoded ++ BitVec.ofNat 4 m.ids.length ++ BitVec.ofNat 8 m.blockIndex

/-- W1 of a message record: CORRECTED_BITS, NBITS (R92). -/
def msgW1 (m : Msg) : Word := BitVec.ofNat 16 m.correctedBits ++ BitVec.ofNat 16 m.payload.length

/-- An identifier word: (ROLE << 28) | VALUE (R93). -/
def identWord (i : Ident) : Word := roleCode i.role ++ i.value

/-- The words of a message record (R92). -/
def msgWords (m : Msg) : List Word :=
  msgW0 m :: msgW1 m :: wordsOf64 m.ts ++ m.key :: m.ids.map identWord ++ packBits m.payload

/-- N0 of a notification: NCAT << 24 | SLOT << 16 (R95). -/
def notifyN0 (c : NCat) (slot : Nat) : Word := ncatCode c ++ BitVec.ofNat 8 slot ++ (0 : BitVec 16)

/-- A NOTIFY event (R95, R199). -/
def notifyEvent (c : NCat) (slot : Nat) (a b : Word) : Event := .notify (notifyN0 c slot) a b

end Sys2Proof.Machine
end

