-- ==== Sys2Proof/Machine/Flags.lean ====
section
/-! DEFINITION. The flags of the core: STATUS as a word (R22), its sticky bits (R236), and what CLEAR_STATUS lowers
(R223). The per-message flags of R45 are `msgValid` and the fields of `Msg`. -/

namespace Sys2Proof.Machine

open Sys2Proof

/-- STATUS as a register read gives it: RUN_STATE, the sticky bits, CFG_ERR_CODE << 16, 0 elsewhere (R22, R215). -/
def statusWord (t : Status) : Word :=
  (0 : BitVec 8) ++ t.cfgErrCode ++ (0 : BitVec 4)
    ++ BitVec.ofBool t.badValue ++ BitVec.ofBool t.badReg ++ BitVec.ofBool t.cmdRejected ++ BitVec.ofBool t.illegalCmd
    ++ (0 : BitVec 6) ++ runCode t.run

/-- The STATUS bit number of a cause, its exception code (R236). -/
def causeBit : Cause → Nat
  | .illegalCmd => 8
  | .cmdRejected => 9
  | .badReg => 10
  | .badValue => 11

/-- Sets the sticky bit of a cause (R236). -/
def setCause (t : Status) : Cause → Status
  | .illegalCmd => { t with illegalCmd := true }
  | .cmdRejected => { t with cmdRejected := true }
  | .badReg => { t with badReg := true }
  | .badValue => { t with badValue := true }

/-- Clears the sticky bits that a mask names: mask bit i clears STATUS bit 8 + i (R83, R223). -/
def clearCauses (t : Status) (mask : BitVec 4) : Status :=
  { t with
    illegalCmd := t.illegalCmd && !mask.getLsbD 0
    cmdRejected := t.cmdRejected && !mask.getLsbD 1
    badReg := t.badReg && !mask.getLsbD 2
    badValue := t.badValue && !mask.getLsbD 3 }

end Sys2Proof.Machine
end

