-- ==== Sys2Proof/Machine/Operands.lean ====
section
/-! DEFINITION. Operands: register numbers and what they name (R20), reading and writing the register space (R214,
R215), the selector and the value ranges of SET_CORRECTION (R220), and samples (R87). -/

namespace Sys2Proof.Machine

open Sys2Proof

/-- What a register number names (R20): its access class and its register. -/
inductive RegName where
  | ro (r : RoReg)
  | cfg (r : CfgReg)
  | cor (r : CorReg)
deriving DecidableEq, Repr

/-- The register map of R20. A number it does not list is unassigned (R48). -/
def regOfNum (n : BitVec 8) : Option RegName :=
  match n.toNat with
  | 0x00 => some (.ro .hwId)
  | 0x01 => some (.ro .hwVersion)
  | 0x02 => some (.ro .status)
  | 0x03 => some (.ro .caps0)
  | 0x10 => some (.cfg .modulation)
  | 0x11 => some (.cfg .inputKind)
  | 0x12 => some (.cfg .decoderType)
  | 0x13 => some (.cfg .sps)
  | 0x14 => some (.cfg .direction)
  | 0x15 => some (.cfg .filterBw)
  | 0x16 => some (.cfg .agcWindow)
  | 0x17 => some (.cfg .agcTarget)
  | 0x18 => some (.cfg .agcMaxGain)
  | 0x19 => some (.cfg .dgcAttack)
  | 0x1A => some (.cfg .dgcDecay)
  | 0x1B => some (.cfg .dgcTarget)
  | 0x1C => some (.cfg .dgcMinGain)
  | 0x1D => some (.cfg .dgcMaxGain)
  | 0x1E => some (.cfg .dgcInitGain)
  | 0x20 => some (.cfg .sdgcAttack)
  | 0x21 => some (.cfg .sdgcDecay)
  | 0x22 => some (.cfg .sdgcTarget)
  | 0x23 => some (.cfg .sdgcMinGain)
  | 0x24 => some (.cfg .sdgcMaxGain)
  | 0x25 => some (.cfg .sdgcInitGain)
  | 0x28 => some (.cfg .costasAlpha)
  | 0x29 => some (.cfg .costasBeta)
  | 0x2A => some (.cfg .maxCorrection)
  | 0x30 => some (.cfg .slicerLevel)
  | 0x34 => some (.cfg .syncTol)
  | 0x35 => some (.cfg .trellisMax)
  | 0x38 => some (.cfg .callTimeoutLo)
  | 0x39 => some (.cfg .callTimeoutHi)
  | 0x3A => some (.cfg .pduTimeoutLo)
  | 0x3B => some (.cfg .pduTimeoutHi)
  | 0x40 => some (.cor .slicerOffset)
  | 0x41 => some (.cor .slicerSpan)
  | 0x42 => some (.cor .timingPhase)
  | 0x80 => some (.ro .sampleCountLo)
  | 0x81 => some (.ro .sampleCountHi)
  | 0x82 => some (.ro .feedback)
  | 0x83 => some (.ro .symbolCount)
  | 0x84 => some (.ro .syncCount)
  | 0x85 => some (.ro .resyncCount)
  | 0x86 => some (.ro .frameCount)
  | 0x87 => some (.ro .blockOk)
  | 0x88 => some (.ro .blockCorrected)
  | 0x89 => some (.ro .blockRejected)
  | 0x8A => some (.ro .msgCount)
  | 0x8B => some (.ro .msgInvalid)
  | 0x8C => some (.ro .pduComplete)
  | 0x8D => some (.ro .pduAbandoned)
  | 0x8E => some (.ro .orphanBlock)
  | 0x8F => some (.ro .neighborOverflow)
  | 0x90 => some (.ro .sccOverflow)
  | 0x91 => some (.ro .callEvict)
  | 0x92 => some (.ro .framerState)
  | 0x93 => some (.ro .correctedBits)
  | _ => none

/-- A CFG register's value (R20). -/
def cfgGet (c : CfgRegs) : CfgReg → Word
  | .modulation => c.modulation
  | .inputKind => c.inputKind
  | .decoderType => c.decoderType
  | .sps => c.sps
  | .direction => c.direction
  | .filterBw => c.filterBw
  | .agcWindow => c.agcWindow
  | .agcTarget => c.agcTarget
  | .agcMaxGain => c.agcMaxGain
  | .dgcAttack => c.dgcAttack
  | .dgcDecay => c.dgcDecay
  | .dgcTarget => c.dgcTarget
  | .dgcMinGain => c.dgcMinGain
  | .dgcMaxGain => c.dgcMaxGain
  | .dgcInitGain => c.dgcInitGain
  | .sdgcAttack => c.sdgcAttack
  | .sdgcDecay => c.sdgcDecay
  | .sdgcTarget => c.sdgcTarget
  | .sdgcMinGain => c.sdgcMinGain
  | .sdgcMaxGain => c.sdgcMaxGain
  | .sdgcInitGain => c.sdgcInitGain
  | .costasAlpha => c.costasAlpha
  | .costasBeta => c.costasBeta
  | .maxCorrection => c.maxCorrection
  | .slicerLevel => c.slicerLevel
  | .syncTol => c.syncTol
  | .trellisMax => c.trellisMax
  | .callTimeoutLo => c.callTimeoutLo
  | .callTimeoutHi => c.callTimeoutHi
  | .pduTimeoutLo => c.pduTimeoutLo
  | .pduTimeoutHi => c.pduTimeoutHi

/-- A CFG register written, any value (R213, R214). -/
def cfgSet (c : CfgRegs) (r : CfgReg) (v : Word) : CfgRegs :=
  match r with
  | .modulation => { c with modulation := v }
  | .inputKind => { c with inputKind := v }
  | .decoderType => { c with decoderType := v }
  | .sps => { c with sps := v }
  | .direction => { c with direction := v }
  | .filterBw => { c with filterBw := v }
  | .agcWindow => { c with agcWindow := v }
  | .agcTarget => { c with agcTarget := v }
  | .agcMaxGain => { c with agcMaxGain := v }
  | .dgcAttack => { c with dgcAttack := v }
  | .dgcDecay => { c with dgcDecay := v }
  | .dgcTarget => { c with dgcTarget := v }
  | .dgcMinGain => { c with dgcMinGain := v }
  | .dgcMaxGain => { c with dgcMaxGain := v }
  | .dgcInitGain => { c with dgcInitGain := v }
  | .sdgcAttack => { c with sdgcAttack := v }
  | .sdgcDecay => { c with sdgcDecay := v }
  | .sdgcTarget => { c with sdgcTarget := v }
  | .sdgcMinGain => { c with sdgcMinGain := v }
  | .sdgcMaxGain => { c with sdgcMaxGain := v }
  | .sdgcInitGain => { c with sdgcInitGain := v }
  | .costasAlpha => { c with costasAlpha := v }
  | .costasBeta => { c with costasBeta := v }
  | .maxCorrection => { c with maxCorrection := v }
  | .slicerLevel => { c with slicerLevel := v }
  | .syncTol => { c with syncTol := v }
  | .trellisMax => { c with trellisMax := v }
  | .callTimeoutLo => { c with callTimeoutLo := v }
  | .callTimeoutHi => { c with callTimeoutHi := v }
  | .pduTimeoutLo => { c with pduTimeoutLo := v }
  | .pduTimeoutHi => { c with pduTimeoutHi := v }

/-- A COR register's value (R40). -/
def corGet (c : CorRegs) : CorReg → Word
  | .slicerOffset => c.slicerOffset
  | .slicerSpan => c.slicerSpan
  | .timingPhase => c.timingPhase

/-- A COR register written (R220). -/
def corSet (c : CorRegs) (r : CorReg) (v : Word) : CorRegs :=
  match r with
  | .slicerOffset => { c with slicerOffset := v }
  | .slicerSpan => { c with slicerSpan := v }
  | .timingPhase => { c with timingPhase := v }

/-- An RO register's value: `Read(r)` of R215. HW_ID, HW_VERSION and CAPS0 are hard-wired (R23, R24). -/
def roGet (s : State) : RoReg → Word
  | .hwId => Config.hwId
  | .hwVersion => Config.hwVersion
  | .status => statusWord s.status
  | .caps0 => caps0 s.par
  | .sampleCountLo => s.back.cnt.sampleCount.extractLsb' 0 32
  | .sampleCountHi => s.back.cnt.sampleCount.extractLsb' 32 32
  | .feedback => s.back.cnt.feedback
  | .symbolCount => s.back.cnt.symbolCount
  | .syncCount => s.back.cnt.syncCount
  | .resyncCount => s.back.cnt.resyncCount
  | .frameCount => s.back.cnt.frameCount
  | .blockOk => s.back.cnt.blockOk
  | .blockCorrected => s.back.cnt.blockCorrected
  | .blockRejected => s.back.cnt.blockRejected
  | .msgCount => s.back.cnt.msgCount
  | .msgInvalid => s.back.cnt.msgInvalid
  | .pduComplete => s.back.cnt.pduComplete
  | .pduAbandoned => s.back.cnt.pduAbandoned
  | .orphanBlock => s.back.cnt.orphanBlock
  | .neighborOverflow => s.back.cnt.neighborOverflow
  | .sccOverflow => s.back.cnt.sccOverflow
  | .callEvict => s.back.cnt.callEvict
  | .framerState => framerCode s.back.framer.fstate
  | .correctedBits => s.back.cnt.correctedBits

/-- `Read(r)` of R215 for any assigned register. -/
def readReg (s : State) : RegName → Word
  | .ro r => roGet s r
  | .cfg r => cfgGet s.cfg r
  | .cor r => corGet s.cor r

/-- The register that a REG_READ operand names: none when ARG > 0xFF or the number is unassigned (R215). -/
def regOfArg (arg : BitVec 16) : Option RegName :=
  if arg.toNat ≤ 0xFF then regOfNum (arg.extractLsb' 0 8) else none

/-- The COR register that a SET_CORRECTION selector names (R82, R220). -/
def corOfSel (sel : BitVec 16) : Option CorReg :=
  match sel.toNat with
  | 0 => some .slicerOffset
  | 1 => some .slicerSpan
  | 2 => some .timingPhase
  | _ => none

/-- The range check of SET_CORRECTION (R220): OFFSET finite, 0 < SPAN <= 1, PHASE < SPS. -/
def corInRange (c : CfgRegs) (r : CorReg) (v : Word) : Bool :=
  match r with
  | .slicerOffset => isFinite v
  | .slicerSpan => flt 0 v && fle v fOne
  | .timingPhase => decide (v.toNat < c.sps.toNat)

/-- A 64-bit timeout held as a LO and a HI register (R38, R39, R66). -/
def callTimeout (c : CfgRegs) : Nat := (c.callTimeoutHi ++ c.callTimeoutLo).toNat

/-- PDU_TIMEOUT_HI:LO (R39). -/
def pduTimeout (c : CfgRegs) : Nat := (c.pduTimeoutHi ++ c.pduTimeoutLo).toNat

/-- One input sample (R87). -/
inductive Sample where
  | real (x : Word)
  | complex (c : Cplx)
deriving DecidableEq, Repr

end Sys2Proof.Machine
end

