-- ==== Sys2Proof/Machine/Ops.lean ====
section
/-! DEFINITION. The shared operations on the state: the output trace (R58), the one exception primitive
`raise Status(x)` (R16, R236), the clears (R59, R60), and consuming command words (R70). The core has no byte memory
(R61) and no return from an exception (R245). -/

namespace Sys2Proof.Machine

open Sys2Proof

/-- Appends events to the output trace of the back end (R58). -/
def emitEvents (es : List Event) (b : Backend) : Backend := { b with trace := b.trace ++ es }

/-- `Emit(EVENT)` inside a stage (R16, R58). -/
def emitBack (e : Event) (b : Backend) : Backend := emitEvents [e] b

/-- `Notify(ncat, slot, a, b)` (R199). -/
def notifyBack (c : NCat) (slot : Nat) (x y : Word) (b : Backend) : Backend := emitBack (notifyEvent c slot x y) b

/-- `Emit(EVENT)` of a command (R16, R58). -/
def emitState (e : Event) (s : State) : State := { s with back := emitBack e s.back }

/-- `raise Status(x)`, the only exception primitive (R16, R236): it sets the sticky bit of the cause and has no other
effect. There is no trap entry: nothing is saved, no mode changes, no control is transferred (R244). -/
def raiseStatus (c : Cause) (s : State) : State := { s with status := setCause s.status c }

/-- `ClearPipeline()` (R59): every element of R46 at its cleared value, with the register values of the moment.
Nothing is emitted. -/
def clearPipeline (s : State) : State :=
  { s with
    cond := conditionerCleared s.par s.cfg
    demod := demodCleared s.par s.cfg
    back := { s.back with framer := framerCleared, pending := none, agg := aggCleared s.par } }

/-- `ClearCounters()` (R60). -/
def clearCounters (s : State) : State := { s with back := { s.back with cnt := countersCleared } }

/-- Consumes `n` words of the command stream (R49, R70). -/
def consumeWords (n : Nat) (s : State) : State := { s with cmdIn := s.cmdIn.drop n, cmdPos := s.cmdPos + n }

/-- Consumes the command that starts at the next word, with its payload; an illegal word alone (R84, R85). -/
def consumeCommand (s : State) : State :=
  match s.cmdIn with
  | [] => s
  | w :: _ => consumeWords (commandLength w) s

/-- What an illegal command word does: one word consumed, ILLEGAL_CMD raised, nothing performed (R85, R212). -/
def illegalCommand (s : State) : State := raiseStatus .illegalCmd (consumeCommand s)

/-- The command at the head of the command stream (R70, R81). -/
def fetch (s : State) : Except DecodeError (Instr × List Word) := decode s.cmdIn

end Sys2Proof.Machine
end

