-- ==== Sys2Proof/Machine/ConfigCheck.lean ====
section
/-! DEFINITION. CheckConfig: the checks of R238 in code order, run by START (R213). -/

namespace Sys2Proof.Machine

open Sys2Proof

/-- Finite and > 0. -/
def positiveF (v : Word) : Bool := isFinite v && flt 0 v

/-- Finite and >= 0 (-0.0 passes). -/
def nonNegativeF (v : Word) : Bool := isFinite v && fle 0 v

/-- 0 <= v < 1, false for a NaN. -/
def unitRateF (v : Word) : Bool := fle 0 v && flt v fOne

/-- The three gain conditions of codes 14 and 18. -/
def gainsF (lo hi init : Word) : Bool :=
  positiveF lo && (isFinite hi && fle lo hi) && (fle lo init && fle init hi)

/-- TRELLIS_MAX < N_MIN (R37); a profile without half-rate blocks bounds nothing (log 10). -/
def trellisMaxOk (P : Profile) (v : Word) : Bool :=
  match nMin P with
  | some n => decide (v.toNat < n)
  | none => true

/-- The checks of R238, codes 1 to 27 in order. -/
def configChecks (p : Params) (c : CfgRegs) (k : CorRegs) : List Bool :=
  [ c.modulation == 0 || c.modulation == 1,                          -- 1 UNKNOWN_MODULATION
    c.inputKind == 0 || c.inputKind == 1,                            -- 2 UNKNOWN_INPUT_KIND
    c.decoderType == 0,                                              -- 3 UNKNOWN_DECODER
    !(c.modulation == 1 && c.inputKind == 1),                        -- 4 UNSUPPORTED_COMBINATION
    p.spsSupported.contains c.sps.toNat,                             -- 5 BAD_SPS
    c.direction == 0 || c.direction == 1,                            -- 6 BAD_DIRECTION
    decide (c.filterBw.toNat < p.numBw),                             -- 7 BAD_FILTER_BW
    decide (1 ≤ c.agcWindow.toNat ∧ c.agcWindow.toNat ≤ p.maxAgcWindow), -- 8 BAD_AGC_WINDOW
    positiveF c.agcTarget,                                           -- 9 BAD_AGC_TARGET
    positiveF c.agcMaxGain,                                          -- 10 BAD_AGC_MAX_GAIN
    unitRateF c.dgcAttack,                                           -- 11 BAD_DGC_ATTACK
    unitRateF c.dgcDecay,                                            -- 12 BAD_DGC_DECAY
    positiveF c.dgcTarget,                                           -- 13 BAD_DGC_TARGET
    gainsF c.dgcMinGain c.dgcMaxGain c.dgcInitGain,                  -- 14 BAD_DGC_GAINS
    unitRateF c.sdgcAttack,                                          -- 15 BAD_SDGC_ATTACK
    unitRateF c.sdgcDecay,                                           -- 16 BAD_SDGC_DECAY
    positiveF c.sdgcTarget,                                          -- 17 BAD_SDGC_TARGET
    gainsF c.sdgcMinGain c.sdgcMaxGain c.sdgcInitGain,               -- 18 BAD_SDGC_GAINS
    nonNegativeF c.costasAlpha,                                      -- 19 BAD_COSTAS_ALPHA
    nonNegativeF c.costasBeta,                                       -- 20 BAD_COSTAS_BETA
    positiveF c.maxCorrection,                                       -- 21 BAD_MAX_CORRECTION
    positiveF c.slicerLevel,                                         -- 22 BAD_SLICER_LEVEL
    decide (c.syncTol.toNat < p.profile.syncLen),                    -- 23 BAD_SYNC_TOL
    trellisMaxOk p.profile c.trellisMax,                             -- 24 BAD_TRELLIS_MAX
    callTimeout c != 0,                                              -- 25 BAD_CALL_TIMEOUT
    pduTimeout c != 0,                                               -- 26 BAD_PDU_TIMEOUT
    decide (k.timingPhase.toNat < c.sps.toNat) ]                     -- 27 BAD_TIMING_PHASE

/-- The code of the first failing check of a list that starts at code n, or 0. -/
def firstFailure (n : Nat) : List Bool → Nat
  | [] => 0
  | ok :: rest => if ok then firstFailure (n + 1) rest else n

/-- CheckConfig(): the first failing code, 1 to 27, or 0 if all pass (R213, R238). -/
def checkConfig (p : Params) (c : CfgRegs) (k : CorRegs) : Nat := firstFailure 1 (configChecks p c k)

end Sys2Proof.Machine
end

