-- ==== Sys2Proof/Machine/Control.lean ====
section
/-! DEFINITION. The control commands: NOP, START, STOP, CLEAR_STATUS (R216, R217, R223, R224). -/

namespace Sys2Proof.Machine

open Sys2Proof

/-- NOP: no effect, in any run state (R224). -/
def execNop (s : State) : Host.Outcome State Fault Refusal := .next s

/-- The run state and code that a configuration check gives (R216). -/
def startStatus (code : Nat) (t : Status) : Status :=
  if code = 0 then { t with run := .running, cfgErrCode := 0 }
  else { t with run := .configError, cfgErrCode := BitVec.ofNat 8 code }

/-- START from IDLE or CONFIG_ERROR: check, run state, clears (R216). -/
def startRun (s : State) : State :=
  clearCounters (clearPipeline { s with status := startStatus (checkConfig s.par s.cfg s.cor) s.status })

/-- START: refused while RUNNING (R216). -/
def execStart (s : State) : Host.Outcome State Fault Refusal :=
  if s.status.run = .running then .next (raiseStatus .cmdRejected s) else .next (startRun s)

/-- STOP: IDLE and a cleared pipeline; counters and CFG_ERR_CODE kept (R217). -/
def execStop (s : State) : Host.Outcome State Fault Refusal :=
  .next (clearPipeline { s with status := { s.status with run := .idle } })

/-- CLEAR_STATUS: the sticky bits that the mask names (R223). -/
def execClearStatus (mask : BitVec 4) (s : State) : Host.Outcome State Fault Refusal :=
  .next { s with status := clearCauses s.status mask }

end Sys2Proof.Machine
end

