-- ==== Sys2Proof/Machine/Aggregator.lean ====
section
/-! DEFINITION. The channel and trunking state aggregator: folding valid messages, notifications, housekeeping and the
summary (R190 to R210). -/

namespace Sys2Proof.Machine

open Sys2Proof

/-- `ids(m, ROLE)`: the value of the first identifier with a role (R191). -/
def idOf (m : Msg) (r : Role) : Option (BitVec 28) :=
  match m.ids.find? (fun i => i.role == r) with
  | some i => some i.value
  | none => none

/-- An identifier value as a port word (R93, R95). -/
def idWord (v : BitVec 28) : Word := v.setWidth 32

/-! ## Broadcasts (R192) -/

/-- FoldBroadcast: the stored broadcast is replaced; a new or changed payload is notified (R192). -/
def foldBroadcast (ncat : NCat) (m : Msg) (old : Option Broadcast) (b : Backend) : Backend :=
  if (match old with | some o => o.payload == m.payload | none => false) then b
  else notifyBack ncat 0 (BitVec.ofNat 32 (field m.payload 16 32)) (BitVec.ofNat 32 (field m.payload 48 32)) b

/-- FoldBroadcast for SITE_STATUS (R192). -/
def foldSite (m : Msg) (b : Backend) : Backend :=
  foldBroadcast .site m b.agg.site { b with agg.site := some { payload := m.payload, ts := m.ts } }

/-- FoldBroadcast for NETWORK_STATUS (R192). -/
def foldNetwork (m : Msg) (b : Backend) : Backend :=
  foldBroadcast .network m b.agg.network { b with agg.network := some { payload := m.payload, ts := m.ts } }

/-! ## Calls (R193 to R196) -/

/-- The first open slot on a channel, with its call (R193). -/
def findCall (ch : BitVec 28) : List (Option Call) → Option (Nat × Call)
  | [] => none
  | some c :: rest => if c.channel == ch then some (0, c) else (findCall ch rest).map fun x => (x.1 + 1, x.2)
  | none :: rest => (findCall ch rest).map fun x => (x.1 + 1, x.2)

/-- The lowest free slot (R193). -/
def freeSlot (calls : List (Option Call)) : Option Nat := calls.findIdx? Option.isNone

/-- The open slot with the smallest last_ts, the lowest among equals (R194, I20). -/
def oldestCall : List (Option Call) → Option (Nat × Call)
  | [] => none
  | none :: rest => (oldestCall rest).map fun x => (x.1 + 1, x.2)
  | some c :: rest =>
    match oldestCall rest with
    | none => some (0, c)
    | some x => if c.lastTs.toNat ≤ x.2.lastTs.toNat then some (0, c) else some (x.1 + 1, x.2)

/-- A call slot written. -/
def setCall (i : Nat) (c : Option Call) (b : Backend) : Backend := { b with agg.calls := b.agg.calls.set i c }

/-- A call notification: VALUE_A the target, VALUE_B the channel (R95, R199). -/
def notifyCall (ncat : NCat) (i : Nat) (c : Call) (b : Backend) : Backend :=
  notifyBack ncat i (idWord c.target) (idWord c.channel) b

/-- Opens a call in a slot and notifies it (R193). -/
def openCall (i : Nat) (c : Call) (b : Backend) : Backend := notifyCall .callOpen i c (setCall i (some c) b)

/-- Evict() of the given oldest call: notified, counted, closed (R194). -/
def evictCall (i : Nat) (c : Call) (b : Backend) : Backend :=
  setCall i none { notifyCall .callClose i c b with cnt.callEvict := b.cnt.callEvict + 1 }

/-- A grant on a channel that slot i already carries (R193). -/
def regrant (i : Nat) (old new : Call) (b : Backend) : Backend :=
  if old.target = new.target then
    if old.source ≠ new.source then
      notifyCall .callUpdate i new (setCall i (some { old with source := new.source, lastTs := new.lastTs }) b)
    else setCall i (some { old with lastTs := new.lastTs }) b
  else openCall i new (notifyCall .callClose i old b)

/-- A grant on a channel that no slot carries: the lowest free slot, or the evicted one (R193, R194). A table without
slots is outside R7 and stays as it is (log 11). -/
def grantNew (c : Call) (b : Backend) : Backend :=
  match freeSlot b.agg.calls with
  | some i => openCall i c b
  | none =>
    match oldestCall b.agg.calls with
    | some x => openCall x.1 c (evictCall x.1 x.2 b)
    | none => b

/-- FoldGrant (R193). -/
def foldGrantCall (c : Call) (b : Backend) : Backend :=
  match findCall c.channel b.agg.calls with
  | some x => regrant x.1 x.2 c b
  | none => grantNew c b

/-- FoldGrant of a message: a record that lacks one of the three roles is excluded by the profile and folds to
nothing (R193, R209; log 11). -/
def foldGrant (m : Msg) (b : Backend) : Backend :=
  match idOf m .channel, idOf m .target, idOf m .source with
  | some ch, some tg, some src =>
    foldGrantCall { source := src, target := tg, channel := ch, grantTs := m.ts, lastTs := m.ts } b
  | _, _, _ => b

/-- The slots of the calls that meet a condition closed. -/
def closedCalls (p : Call → Bool) (calls : List (Option Call)) : List (Option Call) :=
  calls.map fun
    | some c => if p c then none else some c
    | none => none

/-- The CALL_CLOSE events of the calls that meet a condition, in ascending slot order from slot i. -/
def closeEvents (p : Call → Bool) : Nat → List (Option Call) → List Event
  | _, [] => []
  | i, none :: rest => closeEvents p (i + 1) rest
  | i, some c :: rest =>
    if p c then notifyEvent .callClose i (idWord c.target) (idWord c.channel) :: closeEvents p (i + 1) rest
    else closeEvents p (i + 1) rest

/-- Closes every call that meets a condition, in ascending slot order, each notified (R196, R204). -/
def closeCalls (p : Call → Bool) (b : Backend) : Backend :=
  { emitEvents (closeEvents p 0 b.agg.calls) b with agg.calls := closedCalls p b.agg.calls }

/-- Termination and idle indicators close every open call (R196). -/
def foldTerminate (b : Backend) : Backend := closeCalls (fun _ => true) b

/-! ## Tables (R197, R198) -/

/-- The entry of a key (R197). -/
def findNeighbor (key : BitVec 28) (ns : List Neighbor) : Option Neighbor := ns.find? fun n => n.key == key

/-- The table with an entry written, in ascending key order, one entry per key (R197, I19). -/
def putNeighbor (e : Neighbor) : List Neighbor → List Neighbor
  | [] => [e]
  | n :: rest =>
    if e.key = n.key then e :: rest
    else if e.key.toNat < n.key.toNat then e :: n :: rest
    else n :: putNeighbor e rest

/-- FoldNeighbor for a table entry (R197). -/
def foldNeighborEntry (p : Params) (e : Neighbor) (b : Backend) : Backend :=
  match findNeighbor e.key b.agg.neighbors with
  | some old =>
    if old.payload = e.payload then { b with agg.neighbors := putNeighbor e b.agg.neighbors }
    else notifyBack .neighbor 0 (idWord e.key) 0 { b with agg.neighbors := putNeighbor e b.agg.neighbors }
  | none =>
    if b.agg.neighbors.length < p.maxNeighbors then
      notifyBack .neighbor 0 (idWord e.key) 0 { b with agg.neighbors := putNeighbor e b.agg.neighbors }
    else { b with cnt.neighborOverflow := b.cnt.neighborOverflow + 1 }

/-- FoldNeighbor (R197); a record without a KEY is excluded by the profile (R209; log 11). -/
def foldNeighbor (p : Params) (m : Msg) (b : Backend) : Backend :=
  match idOf m .key with
  | some key => foldNeighborEntry p { key := key, payload := m.payload, ts := m.ts } b
  | none => b

/-- The total order of the SCC set: lexicographic on (channel, class) (R198). -/
def sccBefore (x y : BitVec 16 × BitVec 8) : Bool :=
  decide (x.1.toNat < y.1.toNat) || (x.1 == y.1 && decide (x.2.toNat < y.2.toNat))

/-- Insertion that keeps the set sorted (R198). -/
def insertScc (x : BitVec 16 × BitVec 8) : List (BitVec 16 × BitVec 8) → List (BitVec 16 × BitVec 8)
  | [] => [x]
  | y :: rest => if sccBefore x y then x :: y :: rest else y :: insertScc x rest

/-- One pair of an SCC record: deduplicated, counted when the set is full, otherwise inserted and notified with its
position (R198). -/
def foldSccPair (p : Params) (x : BitVec 16 × BitVec 8) (b : Backend) : Backend :=
  if b.agg.scc.contains x then b
  else if p.maxScc ≤ b.agg.scc.length then { b with cnt.sccOverflow := b.cnt.sccOverflow + 1 }
  else
    notifyBack .scc (b.agg.scc.countP fun y => sccBefore y x) (x.1.setWidth 32) (x.2.setWidth 32)
      { b with agg.scc := insertScc x b.agg.scc }

/-- One declared pair of an SCC record: skipped when its channel role is absent (R198). The set holds 16-bit channels
and 8-bit classes (R46; log 21). -/
def foldSccRoles (p : Params) (m : Msg) (chan cls : Role) (b : Backend) : Backend :=
  match idOf m chan, idOf m cls with
  | some a, some c => foldSccPair p (a.setWidth 16, c.setWidth 8) b
  | _, _ => b

/-- The two declared pairs in order (R198). -/
def foldScc (p : Params) (m : Msg) (b : Backend) : Backend :=
  foldSccRoles p m .attrChannel2 .attrClass2 (foldSccRoles p m .attrChannel .attrClass b)

/-! ## Fold (R191) -/

/-- Fold(m, cat): dispatch on the category (R191). -/
def foldMsg (p : Params) (m : Msg) (cat : Category) (b : Backend) : Backend :=
  match cat with
  | .none => b
  | .siteStatus => foldSite m b
  | .networkStatus => foldNetwork m b
  | .neighbor => foldNeighbor p m b
  | .scc => foldScc p m b
  | .grant => foldGrant m b
  | .terminate => foldTerminate b
  | .idle => foldTerminate b

/-! ## Housekeeping (R203, R204) -/

/-- `t >= x + D` on exact integers (R203). -/
def expired (t x : BitVec 64) (d : Nat) : Bool := decide (x.toNat + d ≤ t.toNat)

/-- The pending sequence abandoned when its timeout has passed (R180, R204). -/
def sweepPending (c : CfgRegs) (t : BitVec 64) (b : Backend) : Backend :=
  match b.pending with
  | some q =>
    if expired t q.ts (pduTimeout c) then { b with pending := none, cnt.pduAbandoned := b.cnt.pduAbandoned + 1 } else b
  | none => b

/-- Sweep(t): calls first, then the pending sequence (R204). -/
def sweepBack (c : CfgRegs) (t : BitVec 64) (b : Backend) : Backend :=
  sweepPending c t (closeCalls (fun call => expired t call.lastTs (callTimeout c)) b)

/-! ## Summary (R206) -/

/-- The active calls at t, in ascending slot order: open and not timed out (R206). -/
def activeCalls (c : CfgRegs) (t : BitVec 64) (calls : List (Option Call)) : List Call :=
  calls.filterMap fun
    | some call => if expired t call.lastTs (callTimeout c) then none else some call
    | none => none

/-- S0 (R206). -/
def summaryS0 (run : RunState) (a : Agg) : Word :=
  BitVec.ofNat 8 a.scc.length ++ BitVec.ofNat 8 a.neighbors.length ++ (0 : BitVec 6)
    ++ BitVec.ofBool a.network.isSome ++ BitVec.ofBool a.site.isSome ++ (0 : BitVec 6) ++ runCode run

/-- A payload with its length and timestamp: NBITS, TS_LO, TS_HI, payload words (R206). -/
def summaryPayload (payload : Bits) (ts : BitVec 64) : List Word :=
  BitVec.ofNat 32 payload.length :: wordsOf64 ts ++ packBits payload

/-- A site or network block, only if present (R206). -/
def summaryBroadcast : Option Broadcast → List Word
  | some x => summaryPayload x.payload x.ts
  | none => []

/-- A neighbor block (R206). -/
def summaryNeighbor (n : Neighbor) : List Word := idWord n.key :: summaryPayload n.payload n.ts

/-- An SCC word: (channel << 8) | class (R206). -/
def summarySccWord (x : BitVec 16 × BitVec 8) : Word := (0 : BitVec 8) ++ x.1 ++ x.2

/-- A call block (R206). -/
def summaryCall (c : Call) : List Word :=
  [idWord c.source, idWord c.target, idWord c.channel] ++ wordsOf64 c.grantTs ++ wordsOf64 c.lastTs

/-- Summary(t): the word list of R206. -/
def summaryWords (s : State) (t : BitVec 64) : List Word :=
  let a := s.back.agg
  let active := activeCalls s.cfg t a.calls
  [summaryS0 s.status.run a, BitVec.ofNat 32 active.length, s.back.cnt.msgInvalid]
    ++ summaryBroadcast a.site ++ summaryBroadcast a.network
    ++ a.neighbors.flatMap summaryNeighbor
    ++ a.scc.map summarySccWord
    ++ active.flatMap summaryCall

end Sys2Proof.Machine
end

