-- ==== Sys2Proof/Machine/Housekeeping.lean ====
section
/-! DEFINITION. The housekeeping commands: SWEEP, SUMMARY (R221, R222). -/

namespace Sys2Proof.Machine

open Sys2Proof

/-- SWEEP t (R221): refused outside RUNNING. -/
def execSweep (t : BitVec 64) (s : State) : Host.Outcome State Fault Refusal :=
  if s.status.run = .running then .next { s with back := sweepBack s.cfg t s.back }
  else .next (raiseStatus .cmdRejected s)

/-- SUMMARY t (R222): one SUMMARY event, in any run state; nothing else changes (R207). -/
def execSummary (t : BitVec 64) (s : State) : Host.Outcome State Fault Refusal :=
  .next (emitState (.summary (summaryWords s t)) s)

end Sys2Proof.Machine
end

