-- ==== Sys2Proof/Machine/Parser.lean ====
section
/-! DEFINITION. The message parser: integrity checks, trunking blocks, headers, data blocks, PDU sequences, raw frames,
and emission (R169 to R189). -/

namespace Sys2Proof.Machine

open Sys2Proof

/-! ## Integrity check (R170) -/

/-- One step of the CRC register (R170). -/
def crcStep (c : CheckSpec) (reg : Nat) (bit : Bool) : Nat :=
  let top := (reg >>> (c.width - 1)) % 2 == 1
  let shifted := (reg <<< 1) % 2 ^ c.width
  if top != bit then shifted ^^^ c.poly else shifted

/-- CRC(CHK, B), most significant bit first over the covered bits (R170). -/
def crcOf (c : CheckSpec) (b : Bits) : Nat := (b.take c.cov).foldl (crcStep c) c.init ^^^ c.xorOut

/-- CheckPass(CHK, B) (R170). -/
def checkPass (c : CheckSpec) (b : Bits) : Bool := crcOf c b == field b c.pos c.width

/-- The CHECK code of an outcome (R174, R178). -/
def checkOf (pass : Bool) : Check := if pass then .pass else .fail

/-! ## Emission (R186) -/

/-- EmitMessage: counted, put on the trace, and folded when valid (R186). -/
def emitMessage (p : Params) (m : Msg) (cat : Category) (b : Backend) : Backend :=
  let counted := { b with cnt.msgCount := b.cnt.msgCount + 1 }
  let sent :=
    emitBack (.message (msgWords m))
      (if msgValid m then counted else { counted with cnt.msgInvalid := counted.cnt.msgInvalid + 1 })
  if msgValid m then foldMsg p m cat sent else sent

/-! ## Trunking control blocks (R172 to R175) -/

/-- The identifiers of an entry's fields, in order (R174). -/
def entryIds (fields : List FieldSpec) (b : Bits) : List Ident :=
  fields.map fun f => { role := f.role, value := BitVec.ofNat 28 (field b f.pos f.width) }

/-- The opcode-table entry of a trunking block under a DIRECTION (R173, R174). -/
def tsbkEntry (P : Profile) (dir : Word) (bits : Bits) : Option OpcodeEntry :=
  lookupOpcode P dir (BitVec.ofNat 6 (field bits P.tsbkOpcodePos 6)) (BitVec.ofNat 8 (field bits P.tsbkMfidPos 8))

/-- KEY of a trunking block: (DIRECTION << 16) | (MFID << 8) | OPCODE (R92, R174). -/
def tsbkKey (P : Profile) (dir : Word) (bits : Bits) : Word :=
  (dir <<< 16) ||| (BitVec.ofNat 32 (field bits P.tsbkMfidPos 8) <<< 8)
    ||| BitVec.ofNat 32 (field bits P.tsbkOpcodePos 6)

/-- The TSBK record (R174). -/
def tsbkMsg (e : Env) (r : BlockResult) (j : Nat) (t : BitVec 4) (ts : BitVec 64) : Msg :=
  let P := e.par.profile
  let entry := tsbkEntry P e.cfg.direction r.bits
  { cls := .tsbk
    msgType := (match entry with | some x => x.msgType | none => 0xFF)
    ftype := t
    check := checkOf (checkPass P.checkTsbk r.bits)
    undecoded := false
    blockIndex := j
    correctedBits := r.corrected
    ts := ts
    key := tsbkKey P e.cfg.direction r.bits
    ids := (match entry with | some x => entryIds x.fields r.bits | none => [])
    payload := r.bits }

/-- The category of a TSBK record (R174, R187). -/
def tsbkCategory (e : Env) (bits : Bits) : Category :=
  match tsbkEntry e.par.profile e.cfg.direction bits with
  | some x => x.category
  | none => .none

/-- ParseTsbk (R174). -/
def parseTsbk (e : Env) (r : BlockResult) (j : Nat) (t : BitVec 4) (ts : BitVec 64) (b : Backend) : Backend :=
  emitMessage e.par (tsbkMsg e r j t ts) (tsbkCategory e r.bits) b

/-! ## Headers and PDU sequences (R176 to R183) -/

/-- The sequence record of a completed sequence (R182). -/
def sequenceMsg (q : Pending) : Msg :=
  let h := q.header
  { cls := if h.msgType = 0xFF then .unparsedSequence else .pduSequence
    msgType := h.msgType
    ftype := h.ftype
    check := if h.check = .fail || q.blocks.any (fun m => m.check == .fail) then .fail else .none
    undecoded := false
    blockIndex := 0
    correctedBits := h.correctedBits + (q.blocks.map Msg.correctedBits).sum
    ts := q.ts
    key := h.key
    ids := h.ids
    payload := h.payload ++ q.blocks.flatMap Msg.payload }

/-- CompleteSequence() for the pending sequence q (R182). -/
def completeSequence (p : Params) (q : Pending) (b : Backend) : Backend :=
  let sent := emitMessage p (sequenceMsg q) .none b
  { sent with cnt.pduComplete := sent.cnt.pduComplete + 1, pending := none }

/-- The pending sequence stored, or completed when it has its declared blocks (R178, R181, R182). -/
def storePending (p : Params) (q : Pending) (b : Backend) : Backend :=
  if q.blocks.length = q.n then completeSequence p q { b with pending := some q } else { b with pending := some q }

/-- The header record (R178). -/
def headerMsg (e : Env) (r : BlockResult) (t : BitVec 4) (ts : BitVec 64) : Msg :=
  let P := e.par.profile
  let fmt := field r.bits P.hdrFormat.pos 5
  let sap := field r.bits P.hdrSap.pos 6
  let mf := field r.bits P.hdrMfidPos 8
  { cls := .header
    msgType := headerKindCode (headerKind P (BitVec.ofNat 5 fmt) (BitVec.ofNat 6 sap))
    ftype := t
    check := checkOf (checkPass P.checkHeader r.bits)
    undecoded := false
    blockIndex := 0
    correctedBits := r.corrected
    ts := ts
    key := (BitVec.ofNat 32 sap <<< 16) ||| (BitVec.ofNat 32 mf <<< 8) ||| BitVec.ofNat 32 fmt
    ids := [{ role := .radio, value := BitVec.ofNat 28 (field r.bits P.hdrLlid.pos 24) }]
    payload := r.bits }

/-- A new valid header abandons the sequence that is pending (R178, R180). -/
def abandonPending (b : Backend) : Backend :=
  match b.pending with
  | some _ => { b with cnt.pduAbandoned := b.cnt.pduAbandoned + 1 }
  | none => b

/-- ParseHeader (R178): the record, and a pending sequence when the check passes. -/
def parseHeader (e : Env) (r : BlockResult) (t : BitVec 4) (ts : BitVec 64) (b : Backend) : Backend :=
  let h := headerMsg e r t ts
  let sent := emitMessage e.par h .none b
  if checkPass e.par.profile.checkHeader r.bits then
    storePending e.par { header := h, blocks := [], n := field r.bits e.par.profile.hdrBtf.pos 7, ts := ts }
      (abandonPending sent)
  else sent

/-- The data-block record (R181). -/
def dataBlockMsg (r : BlockResult) (j : Nat) (t : BitVec 4) (ts : BitVec 64) : Msg :=
  { cls := .dataBlock
    msgType := 0
    ftype := t
    check := .none
    undecoded := r.status == .undecoded
    blockIndex := j
    correctedBits := r.corrected
    ts := ts
    key := 0
    ids := []
    payload := r.bits }

/-- A data block appended to the pending sequence when there is room, otherwise dropped and counted (R181, R183). -/
def appendBlock (p : Params) (m : Msg) (b : Backend) : Backend :=
  match b.pending with
  | some q =>
    if q.blocks.length < q.n then storePending p { q with blocks := q.blocks ++ [m] } b
    else { b with cnt.orphanBlock := b.cnt.orphanBlock + 1 }
  | none => { b with cnt.orphanBlock := b.cnt.orphanBlock + 1 }

/-- ParseDataBlock (R181). -/
def parseDataBlock (e : Env) (r : BlockResult) (j : Nat) (t : BitVec 4) (ts : BitVec 64) (b : Backend) : Backend :=
  appendBlock e.par (dataBlockMsg r j t ts) (emitMessage e.par (dataBlockMsg r j t ts) .none b)

/-- Whether a frame type is a TSBK type. -/
def isTsbkType : FrameType → Bool
  | .tsbk _ _ _ => true
  | .invalid => false
  | .raw _ _ => false
  | .pdu _ _ _ => false

/-- ParseBlock: dispatch on the frame type and the block's position (R171). -/
def parseBlock (e : Env) (r : BlockResult) (j : Nat) (t : BitVec 4) (ts : BitVec 64) (b : Backend) : Backend :=
  if isTsbkType (frameType e.par.profile t) then parseTsbk e r j t ts b
  else if j = 0 then parseHeader e r t ts b
  else parseDataBlock e r j t ts b

/-! ## Raw frames (R184) -/

/-- The raw-frame record (R184). -/
def rawMsg (bits : Bits) (t : BitVec 4) (ts : BitVec 64) : Msg :=
  { cls := .rawFrame
    msgType := 0
    ftype := t
    check := .none
    undecoded := true
    blockIndex := 0
    correctedBits := 0
    ts := ts
    key := 0
    ids := []
    payload := bits }

/-- ParseRaw (R184). -/
def parseRaw (e : Env) (bits : Bits) (t : BitVec 4) (ts : BitVec 64) (cat : Category) (b : Backend) : Backend :=
  emitMessage e.par (rawMsg bits t ts) cat b

end Sys2Proof.Machine
end

