-- ==== Sys2Proof/Machine/Trellis.lean ====
section
/-! DEFINITION. The half-rate trellis decoder (R156 to R168) and the de-interleave (R152). -/

namespace Sys2Proof.Machine

open Sys2Proof

/-- De-interleave: D[j] = raw[P[j]] (R152). -/
def deinterleave (raw : Bits) (table : List Nat) : Bits := table.map fun i => raw.getD i false

/-- A 4-bit transmitted value, its first bit the most significant (R156). -/
def nibbleOf (a b c d : Bool) : Nibble := BitVec.ofBool a ++ BitVec.ofBool b ++ BitVec.ofBool c ++ BitVec.ofBool d

/-- The transmitted values of a coded block (R156). -/
def nibblesOf : Bits → List Nibble
  | a :: b :: c :: d :: rest => nibbleOf a b c d :: nibblesOf rest
  | _ => []

/-- The error count: links whose input differs from the next node's state (R159). -/
def linkErrors : List (Dibit × Dibit) → Nat
  | a :: b :: rest => (if a.2 ≠ b.1 then 1 else 0) + linkErrors (b :: rest)
  | _ => 0

/-- Out(x_0, ..., x_(N-1)): dibit i at bits 2i and 2i+1 (R160, R164). -/
def outBits (ds : List Dibit) : Bits := ds.flatMap bitsOfDibit

/-- M[s]: the minimal cost from each state of the nodes that follow. -/
structure Costs where
  c0 : Nat
  c1 : Nat
  c2 : Nat
  c3 : Nat
deriving DecidableEq, Repr

/-- M[d] (R162). -/
def Costs.at (m : Costs) (d : Dibit) : Nat :=
  match d.toNat with
  | 0 => m.c0
  | 1 => m.c1
  | 2 => m.c2
  | _ => m.c3

/-- The cost of taking input d at a node: COST[tx][NEXT[s][d]] + M[d] (R162). -/
def pathCost (P : Profile) (tx : Nibble) (m : Costs) (s d : Dibit) : Nat := costOf P tx (nextOf P s d) + m.at d

/-- The minimal achievable cost at a node from state s (R162). -/
def bestCost (P : Profile) (tx : Nibble) (m : Costs) (s : Dibit) : Nat :=
  min (min (pathCost P tx m s 0) (pathCost P tx m s 1)) (min (pathCost P tx m s 2) (pathCost P tx m s 3))

/-- The smallest input that achieves the minimal cost (R162): ties go to the smallest value. -/
def bestInput (P : Profile) (tx : Nibble) (m : Costs) (s : Dibit) : Dibit :=
  if pathCost P tx m s 0 = bestCost P tx m s then 0
  else if pathCost P tx m s 1 = bestCost P tx m s then 1
  else if pathCost P tx m s 2 = bestCost P tx m s then 2
  else 3

/-- The tables M[i] for every node, in node order, and M[N] = 0 last (R162). -/
def costTables (P : Profile) : List Nibble → List Costs
  | [] => [⟨0, 0, 0, 0⟩]
  | tx :: rest =>
    match costTables P rest with
    | [] => []
    | m :: ms => ⟨bestCost P tx m 0, bestCost P tx m 1, bestCost P tx m 2, bestCost P tx m 3⟩ :: m :: ms

/-- The forward pass of Correct from state s, given M[i+1] for each node: the chosen inputs and the corrected-bit
count (R162, R163). -/
def correctFrom (P : Profile) : Dibit → List Nibble → List Costs → List Dibit × Nat
  | s, tx :: txs, m :: ms =>
    let d := bestInput P tx m s
    let rest := correctFrom P d txs ms
    (d :: rest.1, popcount (tx ^^^ nextOf P s d) + rest.2)
  | _, [], _ => ([], 0)
  | _, _ :: _, [] => ([], 0)

/-- Correct(tx): from the received state of node 0 (R162). -/
def correctChain (P : Profile) (tx : List Nibble) : List Dibit × Nat :=
  correctFrom P (constOf P (tx.headD 0)).1 tx (costTables P tx).tail

/-- TrellisDecode(D) (R160). -/
def trellisDecode (P : Profile) (trellisMax : Nat) (coded : Bits) : BlockResult :=
  let tx := nibblesOf coded
  let chain := tx.map (constOf P)
  let errors := linkErrors chain
  if errors = 0 then { status := .ok, bits := outBits (chain.map Prod.snd), errors := 0, corrected := 0 }
  else if errors ≤ trellisMax then
    let fixed := correctChain P tx
    { status := .corrected, bits := outBits fixed.1, errors := errors, corrected := fixed.2 }
  else { status := .rejected, bits := [], errors := errors, corrected := 0 }

/-- CountBlock(r) (R166). -/
def countBlock (r : BlockResult) (b : Backend) : Backend :=
  match r.status with
  | .ok => { b with cnt.blockOk := b.cnt.blockOk + 1 }
  | .corrected =>
    { b with
      cnt.blockCorrected := b.cnt.blockCorrected + 1
      cnt.correctedBits := b.cnt.correctedBits + BitVec.ofNat 32 r.corrected }
  | .rejected => { b with cnt.blockRejected := b.cnt.blockRejected + 1 }
  | .undecoded => b

end Sys2Proof.Machine
end

