-- ==== Sys2Proof/Machine/Framer.lean ====
section
/-! DEFINITION. The frame synchronizer and message framer: sync search, status dibits, frame progress, resync and emit
(R138 to R155). -/

namespace Sys2Proof.Machine

open Sys2Proof

/-! ## Returning to SEARCHING (R150, R151) -/

/-- The framer back in SEARCHING: the window, the fill, the timestamps, the buffer, the blocks and the expected count
cleared (R143, R150, R151). -/
def toSearching (f : Framer) : Framer :=
  { f with fstate := .searching, window := 0, fill := 0, tsRing := [], buf := [], blocks := [], expected := 0 }

/-- Resync() (R150): counted, nothing emitted. -/
def resync (b : Backend) : Backend :=
  { b with cnt.resyncCount := b.cnt.resyncCount + 1, framer := toSearching b.framer }

/-- The blocks of a frame, in block order from j: each counted, and parsed unless rejected (R151). -/
def emitBlocks (e : Env) (t : BitVec 4) (ts : BitVec 64) : Nat → List BlockResult → Backend → Backend
  | _, [], b => b
  | j, r :: rest, b =>
    emitBlocks e t ts (j + 1) rest
      (if r.status = .rejected then countBlock r b else parseBlock e r j t ts (countBlock r b))

/-- The messages of a frame (R151): one raw record, or one per block. -/
def emitPayload (e : Env) (b : Backend) : Backend :=
  match frameType e.par.profile b.framer.ftype with
  | .raw _ cat => parseRaw e b.framer.buf b.framer.ftype b.framer.frameTs cat b
  | .invalid => emitBlocks e b.framer.ftype b.framer.frameTs 0 b.framer.blocks b
  | .tsbk _ _ _ => emitBlocks e b.framer.ftype b.framer.frameTs 0 b.framer.blocks b
  | .pdu _ _ _ => emitBlocks e b.framer.ftype b.framer.frameTs 0 b.framer.blocks b

/-- Emit() (R151): EMIT, the frame's messages, then SEARCHING unconditionally. -/
def emitFrame (e : Env) (b : Backend) : Backend :=
  let sent := emitPayload e { b with framer.fstate := .emit, cnt.frameCount := b.cnt.frameCount + 1 }
  { sent with framer := toSearching sent.framer }

/-! ## SEARCHING (R141) -/

/-- The SYNC_LEN bits of a window: reduction modulo 2^SYNC_LEN (R141). -/
def windowMask (P : Profile) (w : BitVec 64) : BitVec 64 := w &&& BitVec.ofNat 64 (2 ^ P.syncLen - 1)

/-- The window with a dibit shifted in, the newest in bits 1:0 (R141). -/
def pushWindow (P : Profile) (w : BitVec 64) (d : Dibit) : BitVec 64 :=
  windowMask P ((w <<< 2) ||| d.setWidth 64)

/-- Whether a window is within SYNC_TOL of a known pattern (R141, R142). -/
def syncMatches (P : Profile) (tol : Nat) (w : BitVec 64) : Bool := P.sync.any fun v => decide (popcount (w ^^^ v) ≤ tol)

/-- The timestamps with a new one: at most SYNC_LEN / 2, the oldest dropped (R141). -/
def pushTs (P : Profile) (ring : List (BitVec 64)) (n : BitVec 64) : List (BitVec 64) :=
  if P.syncLen / 2 < (ring ++ [n]).length then (ring ++ [n]).tail else ring ++ [n]

/-- The framer with one more dibit in its window (R141). -/
def shiftIn (P : Profile) (f : Framer) (d : Dibit) (n : BitVec 64) : Framer :=
  { f with
    window := pushWindow P f.window d
    fill := min (f.fill + 2) P.syncLen
    tsRing := pushTs P f.tsRing n }

/-- SYNCHRONIZED, then FRAMING immediately (R141). -/
def beginFrame (P : Profile) (f : Framer) : Framer :=
  { f with
    fstate := .framing
    frameTs := f.tsRing.headD 0
    k := BitVec.ofNat 32 (P.syncLen / 2)
    buf := []
    target := P.prefixLen
    blocks := []
    expected := 0 }

/-- SearchStep (R141). -/
def searchStep (e : Env) (d : Dibit) (n : BitVec 64) (b : Backend) : Backend :=
  let f := shiftIn e.par.profile b.framer d n
  if f.fill = e.par.profile.syncLen && syncMatches e.par.profile e.cfg.syncTol.toNat f.window then
    { b with framer := beginFrame e.par.profile f, cnt.syncCount := b.cnt.syncCount + 1 }
  else { b with framer := f }

/-! ## FRAMING (R144 to R149) -/

/-- DecodeBlock(raw, j) (R149): de-interleaved, and trellis-decoded unless it is a data block of a confirmed format. -/
def decodeBlock (e : Env) (ilv : Nat) (confirmed : Bool) (raw : Bits) : BlockResult :=
  let coded := deinterleave raw (ilvTable e.par.profile ilv)
  if confirmed then { status := .undecoded, bits := coded, errors := 0, corrected := 0 }
  else trellisDecode e.par.profile e.cfg.trellisMax.toNat coded

/-- The index of the block just completed (R148). -/
def blockIndex (P : Profile) (bl : Nat) (f : Framer) : Nat := (f.buf.length - P.prefixLen) / bl - 1

/-- The raw bits of block j (R148). -/
def blockBits (P : Profile) (bl j : Nat) (f : Framer) : Bits := slice f.buf (P.prefixLen + j * bl) bl

/-- A block result appended (R148). -/
def addBlock (r : BlockResult) (b : Backend) : Backend := { b with framer.blocks := b.framer.blocks ++ [r] }

/-- `if end: Emit() else st.target <- st.target + BL` (R148). -/
def endOrContinue (e : Env) (bl : Nat) (isEnd : Bool) (b : Backend) : Backend :=
  if isEnd then emitFrame e b else { b with framer.target := b.framer.target + bl }

/-- A completed block of a TSBK frame (R148): the frame ends at a rejected block, at the last-block flag, or at
MAX_BLOCKS. -/
def progressTsbk (e : Env) (bl mb ilv : Nat) (b : Backend) : Backend :=
  let P := e.par.profile
  let j := blockIndex P bl b.framer
  let r := decodeBlock e ilv false (blockBits P bl j b.framer)
  endOrContinue e bl (r.status == .rejected || r.bits.getD P.tsbkLbPos false || j + 1 == mb) (addBlock r b)

/-- The header block of a PDU frame (R148): a rejected or failing header ends the frame, too many declared blocks are
a resync, and otherwise the declared count gives the frame's length. -/
def progressHeader (e : Env) (bl mb : Nat) (r : BlockResult) (b : Backend) : Backend :=
  let P := e.par.profile
  if r.status == .rejected || !checkPass P.checkHeader r.bits then emitFrame e b
  else
    let btf := field r.bits P.hdrBtf.pos P.hdrBtf.width
    if mb - 1 < btf then resync b
    else
      let b' := { b with framer.hdrFormat := BitVec.ofNat 5 (field r.bits P.hdrFormat.pos P.hdrFormat.width) }
      if btf = 0 then emitFrame e b'
      else endOrContinue e bl false { b' with framer.expected := 1 + btf }

/-- A completed block of a PDU frame (R148, R149). -/
def progressPdu (e : Env) (bl mb ilv : Nat) (b : Backend) : Backend :=
  let P := e.par.profile
  let j := blockIndex P bl b.framer
  let confirmed := decide (1 ≤ j) && P.confirmedFormats.contains b.framer.hdrFormat
  let r := decodeBlock e ilv confirmed (blockBits P bl j b.framer)
  if j = 0 then progressHeader e bl mb r (addBlock r b)
  else endOrContinue e bl (j + 1 == b.framer.expected) (addBlock r b)

/-- The prefix is complete (R146, R148): the frame type decides what follows; an invalid type is a resync. -/
def progressPrefix (e : Env) (b : Backend) : Backend :=
  let P := e.par.profile
  let t := BitVec.ofNat 4 (field b.framer.buf P.typePos P.typeWidth)
  let b' := { b with framer.ftype := t }
  match frameType P t with
  | .invalid => resync b'
  | .raw len _ =>
    if len = 0 then emitFrame e { b' with framer.target := P.prefixLen + len }
    else { b' with framer.target := P.prefixLen + len }
  | .tsbk bl _ _ => { b' with framer.target := P.prefixLen + bl }
  | .pdu bl _ _ => { b' with framer.target := P.prefixLen + bl }

/-- Progress() (R148). The second case for an invalid type is never reached from a run: the prefix resynced (log 11). -/
def progress (e : Env) (b : Backend) : Backend :=
  if b.framer.buf.length = e.par.profile.prefixLen then progressPrefix e b
  else
    match frameType e.par.profile b.framer.ftype with
    | .invalid => resync b
    | .raw _ _ => emitFrame e b
    | .tsbk bl mb ilv => progressTsbk e bl mb ilv b
    | .pdu bl mb ilv => progressPdu e bl mb ilv b

/-- Whether the dibit at st.k is a status dibit (R144). -/
def isStatusDibit (P : Profile) (k : Word) : Bool :=
  P.statusPeriod != 0 && k.toNat % P.statusPeriod == P.statusPeriod - 1

/-- The framer with a payload dibit appended, b1 first (R10, R144, R145). -/
def appendDibit (d : Dibit) (f : Framer) : Framer := { f with k := f.k + 1, buf := f.buf ++ bitsOfDibit d }

/-- FrameStep (R144). -/
def frameStep (e : Env) (d : Dibit) (b : Backend) : Backend :=
  if isStatusDibit e.par.profile b.framer.k then { b with framer.k := b.framer.k + 1 }
  else
    let b' := { b with framer := appendDibit d b.framer }
    if b'.framer.buf.length = b'.framer.target then progress e b' else b'

/-- FramerStep(dib, n) (R140). SYNCHRONIZED and EMIT are left within the step that enters them (R138), so a dibit
never finds the framer there; the model leaves such a state as it is (log 11). -/
def framerStep (e : Env) (d : Dibit) (n : BitVec 64) (b : Backend) : Backend :=
  match b.framer.fstate with
  | .searching => searchStep e d n b
  | .framing => frameStep e d b
  | .synchronized => b
  | .emit => b

end Sys2Proof.Machine
end

