-- ==== Sys2Proof/Machine/Conditioner.lean ====
section
/-! DEFINITION. The sample conditioner: FIR low-pass, feed-forward AGC for complex input, direct gain control for real
input (R101 to R110). -/

namespace Sys2Proof.Machine

open Sys2Proof

/-- The delay line with a new sample in front; the oldest value leaves (R102). -/
def shiftLine (maxTaps : Nat) (line : List Word) (x : Word) : List Word := (x :: line).take maxTaps

/-- The tap sum of R102, ascending, one rounding per operation. -/
def tapSum : List Word → List Word → Word → Word
  | h :: hs, v :: vs, acc => tapSum hs vs (fadd acc (fmul h v))
  | [], _, acc => acc
  | _ :: _, [], acc => acc

/-- FIR(line, h, x): the shifted line and the output (R102). -/
def fir (maxTaps : Nat) (line h : List Word) (x : Word) : List Word × Word :=
  (shiftLine maxTaps line x, tapSum h (shiftLine maxTaps line x) 0)

/-- The envelope of a ring: the largest magnitude, oldest first, no NaN (R104). -/
def envelope (ring : List Word) : Word := ring.foldl maxF 0

/-- The magnitude of a complex sample (R104). -/
def magnitude (i q : Word) : Word := fsqrt (fadd (fmul i i) (fmul q q))

/-- The AGC gain of an envelope (R104). -/
def agcGain (p : Params) (c : CfgRegs) (env : Word) : Word :=
  minF (fdiv c.agcTarget (maxF env p.minEnv)) c.agcMaxGain

/-- AGC(I, Q): the new ring and the scaled sample (R104). -/
def agc (p : Params) (c : CfgRegs) (ring : List Word) (i q : Word) : List Word × Cplx :=
  let ring' := ring.tail ++ [magnitude i q]
  let gain := agcGain p c (envelope ring')
  (ring', (fmul i gain, fmul q gain))

/-- DGC(x, g, ...): the scaled sample and the next gain (R106). -/
def dgc (x g attack decay target lo hi : Word) : Word × Word :=
  let y := fmul x g
  let g' := if flt target (fabs y) then fmul g (fsub fOne attack) else fmul g (fadd fOne decay)
  (y, clampF g' lo hi)

/-- A conditioned sample. -/
inductive Conditioned where
  | real (y : Word)
  | complex (c : Cplx)
deriving DecidableEq, Repr

/-- The complex path: FIR on each component, then AGC (R103). -/
def conditionComplex (e : Env) (c : Conditioner) (x : Cplx) : Conditioned × Conditioner :=
  let h := cfTaps e.par e.cfg.filterBw.toNat
  let fi := fir e.par.maxTaps c.cfLineRe h x.1
  let fq := fir e.par.maxTaps c.cfLineIm h x.2
  let out := agc e.par e.cfg c.envRing fi.2 fq.2
  (.complex out.2, { c with cfLineRe := fi.1, cfLineIm := fq.1, envRing := out.1 })

/-- The real path: FIR, then DGC (R105). -/
def conditionReal (e : Env) (c : Conditioner) (x : Word) : Conditioned × Conditioner :=
  let f := fir e.par.maxTaps c.cfLineRe (cfTaps e.par e.cfg.filterBw.toNat) x
  let out := dgc f.2 c.dgcGain e.cfg.dgcAttack e.cfg.dgcDecay e.cfg.dgcTarget e.cfg.dgcMinGain e.cfg.dgcMaxGain
  (.real out.1, { c with cfLineRe := f.1, dgcGain := out.2 })

/-- The conditioner on one sample: exactly one conditioned sample (R107, R225). -/
def condition (e : Env) (c : Conditioner) : Sample → Conditioned × Conditioner
  | .real x => conditionReal e c x
  | .complex x => conditionComplex e c x

end Sys2Proof.Machine
end

