-- ==== Sys2Proof/Machine/Demod.lean ====
section
/-! DEFINITION. The demodulator: FM discriminator, symbol filter and symbol DGC for C4FM; matched filter, derotation
and Costas loop for CQPSK (R111 to R125). -/

namespace Sys2Proof.Machine

open Sys2Proof

/-- What the demodulator gives for one sample: exactly one soft symbol, the feedback value in CQPSK mode, and its
state (R125). -/
structure DemodOut where
  soft : Word
  feedback : Option Word
  demod : Demod
deriving DecidableEq, Repr

/-- Symbol filter, then symbol DGC, of a discriminator value (R113, R114). -/
def symbolPath (e : Env) (m : Demod) (d : Word) : DemodOut :=
  let f := fir e.par.maxTaps m.sfLine (tapsFor e.par.profile.sfCoef e.cfg.sps.toNat) d
  let out := dgc f.2 m.sdgcGain e.cfg.sdgcAttack e.cfg.sdgcDecay e.cfg.sdgcTarget e.cfg.sdgcMinGain e.cfg.sdgcMaxGain
  { soft := out.1, feedback := none, demod := { m with sfLine := f.1, sdgcGain := out.2 } }

/-- The FM discriminator: the phase step since the previous sample (R115). -/
def discriminate (m : Demod) (c : Cplx) : Word × Demod :=
  let z := cmulConj c m.discPrev
  (fAtan2 z.2 z.1, { m with discPrev := c })

/-- QREF: the reference phase of the quadrant that holds a phase (R116). -/
def qref (phi : Word) : Word :=
  if fle 0 phi then (if flt phi halfPiF then quarterPiF else threeQuarterPiF)
  else (if fle (fneg halfPiF) phi then fneg quarterPiF else fneg threeQuarterPiF)

/-- A value rotated back by the loop phase (R118). -/
def derotate (theta : Word) (m : Cplx) : Cplx :=
  let cs := fCos theta
  let sn := fSin theta
  (fadd (fmul m.1 cs) (fmul m.2 sn), fsub (fmul m.2 cs) (fmul m.1 sn))

/-- The new loop frequency f', capped at MAX_CORRECTION (R119, R121). -/
def loopFreq (c : CfgRegs) (freq err : Word) : Word := satF (fadd freq (fmul c.costasBeta err)) c.maxCorrection

/-- The new loop phase (R119). -/
def loopTheta (c : CfgRegs) (theta freq' err : Word) : Word :=
  wrapF (fadd (fadd theta freq') (fmul c.costasAlpha err))

/-- The CQPSK path: matched filter (R117), derotation and differential phase (R118), loop update and feedback (R119);
the soft symbol is the phase before the update (R120). -/
def costas (e : Env) (m : Demod) (c : Cplx) : DemodOut :=
  let taps := tapsFor e.par.profile.rrcCoef e.cfg.sps.toNat
  let fr := fir e.par.maxTaps m.rrcLineRe taps c.1
  let fi := fir e.par.maxTaps m.rrcLineIm taps c.2
  let z := derotate m.theta (fr.2, fi.2)
  let p := cmulConj z (m.zhist.headD (0, 0))
  let phi := sane (fAtan2 p.2 p.1)
  let err := fsub phi (qref phi)
  let f' := loopFreq e.cfg m.freq err
  { soft := phi
    feedback := some f'
    demod :=
      { m with
        rrcLineRe := fr.1
        rrcLineIm := fi.1
        zhist := m.zhist.tail ++ [z]
        freq := f'
        theta := loopTheta e.cfg m.theta f' err } }

/-- The variant table of R111. CQPSK with a real sample never runs, since START refuses it; a state that no run
reaches takes the C4FM path there (log 12). -/
def demodulate (e : Env) (m : Demod) : Conditioned → DemodOut
  | .real y => symbolPath e m y
  | .complex c =>
    if e.cfg.modulation == 1 then costas e m c
    else symbolPath e (discriminate m c).2 (discriminate m c).1

end Sys2Proof.Machine
end

