-- ==== Sys2Proof/Machine/Slicer.lean ====
section
/-! DEFINITION. The symbol slicer: the strobe and the four-level and quadrant decisions (R126 to R135). It has no state
of its own (R134). -/

namespace Sys2Proof.Machine

open Sys2Proof

/-- Whether sample n is a strobe sample: n mod SPS = TIMING_PHASE (R128). -/
def isStrobe (c : CfgRegs) (k : CorRegs) (n : BitVec 64) : Bool := n.toNat % c.sps.toNat == k.timingPhase.toNat

/-- The outer decision threshold (R129). -/
def sliceThreshold (c : CfgRegs) (k : CorRegs) : Word := fmul (fmul fTwo c.slicerLevel) k.slicerSpan

/-- SLICE_C4FM (R129). -/
def sliceC4fm (c : CfgRegs) (k : CorRegs) (soft : Word) : Dibit :=
  let v := sane (fsub soft k.slicerOffset)
  let thr := sliceThreshold c k
  if fle thr v then 1
  else if fle 0 v then 0
  else if fle (fneg thr) v then 2
  else 3

/-- SLICE_CQPSK (R131). -/
def sliceCqpsk (k : CorRegs) (soft : Word) : Dibit :=
  let u := wrapF (fsub soft k.slicerOffset)
  if fle 0 u then (if flt u halfPiF then 0 else 1)
  else (if fle (fneg halfPiF) u then 2 else 3)

/-- SLICE: the decision rule of the modulation (R25, R128). -/
def sliceSoft (c : CfgRegs) (k : CorRegs) (soft : Word) : Dibit :=
  if c.modulation == 1 then sliceCqpsk k soft else sliceC4fm c k soft

end Sys2Proof.Machine
end

