-- ==== Sys2Proof/Machine/SampleStep.lean ====
section
/-! DEFINITION. One sample through the whole pipeline (R225). -/

namespace Sys2Proof.Machine

open Sys2Proof

/-- The FEEDBACK register written and the FEEDBACK event emitted, in CQPSK mode only (R42, R119). -/
def sendFeedback (f : Option Word) (b : Backend) : Backend :=
  match f with
  | some w => emitBack (.feedback w) { b with cnt.feedback := w }
  | none => b

/-- On a strobe sample: one dibit, counted, to the framer (R128). -/
def strobeStep (e : Env) (k : CorRegs) (soft : Word) (n : BitVec 64) (b : Backend) : Backend :=
  if isStrobe e.cfg k n then
    framerStep e (sliceSoft e.cfg k soft) n { b with cnt.symbolCount := b.cnt.symbolCount + 1 }
  else b

/-- SAMPLE_COUNT advanced (R225). -/
def countSample (b : Backend) : Backend := { b with cnt.sampleCount := b.cnt.sampleCount + 1 }

/-- SampleStep(x) (R225): conditioner, demodulator, slicer on a strobe, framer and what follows it, then
SAMPLE_COUNT. -/
def sampleStep (s : State) (x : Sample) : State :=
  let c := condition s.env s.cond x
  let m := demodulate s.env s.demod c.1
  { s with
    cond := c.2
    demod := m.demod
    back := countSample (strobeStep s.env s.cor m.soft s.back.cnt.sampleCount (sendFeedback m.feedback s.back)) }

/-- The samples of a PUSH, in payload order (R72). -/
def pushSamples (xs : List Sample) (s : State) : State := xs.foldl sampleStep s

end Sys2Proof.Machine
end

