-- ==== Sys2Proof/Machine/Push.lean ====
section
/-! DEFINITION. The sample commands: PUSH_REAL, PUSH_COMPLEX (R218, R219). -/

namespace Sys2Proof.Machine

open Sys2Proof

/-- PUSH_REAL (R218): refused as a whole unless RUNNING with INPUT_KIND = REAL. -/
def execPushReal (samples : List Word) (s : State) : Host.Outcome State Fault Refusal :=
  if s.status.run = .running ∧ s.cfg.inputKind = 1 then .next (pushSamples (samples.map Sample.real) s)
  else .next (raiseStatus .cmdRejected s)

/-- PUSH_COMPLEX (R219): refused as a whole unless RUNNING with INPUT_KIND = COMPLEX. -/
def execPushComplex (samples : List (Word × Word)) (s : State) : Host.Outcome State Fault Refusal :=
  if s.status.run = .running ∧ s.cfg.inputKind = 0 then .next (pushSamples (samples.map Sample.complex) s)
  else .next (raiseStatus .cmdRejected s)

end Sys2Proof.Machine
end

