-- ==== Sys2Proof/Machine/RegAccess.lean ====
section
/-! DEFINITION. The register commands: CFG_WRITE, REG_READ, SET_CORRECTION (R214, R215, R220). -/

namespace Sys2Proof.Machine

open Sys2Proof

/-- CFG_WRITE r, v (R214): BAD_REG first, then CMD_REJECTED while RUNNING; the value is not checked (R213). -/
def execCfgWrite (reg : BitVec 8) (value : Word) (s : State) : Host.Outcome State Fault Refusal :=
  match regOfNum reg with
  | some (.cfg r) =>
    if s.status.run = .running then .next (raiseStatus .cmdRejected s)
    else .next { s with cfg := cfgSet s.cfg r value }
  | some (.ro _) => .next (raiseStatus .badReg s)
  | some (.cor _) => .next (raiseStatus .badReg s)
  | none => .next (raiseStatus .badReg s)

/-- REG_READ r (R215): one RESPONSE; 0 and BAD_REG for an unassigned number or ARG > 0xFF. -/
def execRegRead (arg : BitVec 16) (s : State) : Host.Outcome State Fault Refusal :=
  match regOfArg arg with
  | some r => .next (emitState (.response (readReg s r)) s)
  | none => .next (raiseStatus .badReg (emitState (.response 0) s))

/-- SET_CORRECTION sel, v (R220): BAD_REG first, then BAD_VALUE; allowed in every run state. -/
def execSetCorrection (sel : BitVec 16) (value : Word) (s : State) : Host.Outcome State Fault Refusal :=
  match corOfSel sel with
  | none => .next (raiseStatus .badReg s)
  | some r =>
    if corInRange s.cfg r value then .next { s with cor := corSet s.cor r value }
    else .next (raiseStatus .badValue s)

end Sys2Proof.Machine
end

