-- ==== Sys2Proof/Machine/Dispatch.lean ====
section
/-! DEFINITION. One arm per command (R82). -/

namespace Sys2Proof.Machine

open Sys2Proof

/-- Performs a command whose words have been consumed (R212). -/
def exec (i : Instr) (s : State) : Host.Outcome State Fault Refusal :=
  match i with
  | .nop => Sys2Proof.Machine.execNop s
  | .cfgWrite reg value => Sys2Proof.Machine.execCfgWrite reg value s
  | .regRead arg => Sys2Proof.Machine.execRegRead arg s
  | .start => Sys2Proof.Machine.execStart s
  | .stop => Sys2Proof.Machine.execStop s
  | .pushReal samples => Sys2Proof.Machine.execPushReal samples s
  | .pushComplex samples => Sys2Proof.Machine.execPushComplex samples s
  | .setCorrection sel value => Sys2Proof.Machine.execSetCorrection sel value s
  | .sweep t => Sys2Proof.Machine.execSweep t s
  | .summary t => Sys2Proof.Machine.execSummary t s
  | .clearStatus mask => Sys2Proof.Machine.execClearStatus mask s

end Sys2Proof.Machine
end

