-- ==== Sys2Proof/Machine/Step.lean ====
section
/-! DEFINITION. One step of the core: the next command of the stream, consumed and performed (R70, R212). -/

namespace Sys2Proof.Machine

open Sys2Proof

/-- One command (R212). The command's words are consumed first, then it is performed to completion. An illegal word is
consumed alone and raises ILLEGAL_CMD (R85). An exhausted stream ends the run, and so does a command cut short, which
is not performed (R71). -/
def step (s : State) : Host.Outcome State Fault Refusal :=
  match fetch s with
  | .ok (i, _) => exec i (consumeCommand s)
  | .error .illegal => .next (illegalCommand s)
  | .error .endOfStream => .refused .endOfStream
  | .error .truncated => .refused .truncatedCommand

/-- `s` with a table word's instruction as the next words of its command stream, before the words already there. -/
def State.withFetchWord (s : State) (nbits w : Nat) : State := { s with cmdIn := tableWords nbits w ++ s.cmdIn }

end Sys2Proof.Machine
end

