-- ==== Sys2Proof/Safety.lean ====
section
/-! DEFINITION. What the claims call a good state and a good run: the invariants that the rules promise, and the relations
between a state and a later one. -/

namespace Sys2Proof.Machine

open Sys2Proof

/-! ## Relations between two states -/

/-- Everything that only the host commands write: parameters, command stream, registers, STATUS. -/
structure SameHost (s t : State) : Prop where
  par : t.par = s.par
  cmdIn : t.cmdIn = s.cmdIn
  cmdPos : t.cmdPos = s.cmdPos
  cfg : t.cfg = s.cfg
  cor : t.cor = s.cor
  status : t.status = s.status

/-- The pipeline elements of R46: conditioner, demodulator, framer, pending sequence, aggregator. -/
structure SamePipeline (s t : State) : Prop where
  cond : t.cond = s.cond
  demod : t.demod = s.demod
  framer : t.back.framer = s.back.framer
  pending : t.back.pending = s.back.pending
  agg : t.back.agg = s.back.agg

/-- Every element of R46 at its cleared value for the parameters and registers of the state (R59). -/
structure PipelineCleared (s : State) : Prop where
  cond : s.cond = conditionerCleared s.par s.cfg
  demod : s.demod = demodCleared s.par s.cfg
  framer : s.back.framer = framerCleared
  pending : s.back.pending = none
  agg : s.back.agg = aggCleared s.par

/-- A NOTIFY event. -/
def Event.isNotify : Event → Bool
  | .notify _ _ _ => true
  | .response _ => false
  | .summary _ => false
  | .feedback _ => false
  | .message _ => false

/-- An event of the parser or the aggregator: MESSAGE or NOTIFY. -/
def Event.isRecord : Event → Bool
  | .notify _ _ _ => true
  | .message _ => true
  | .response _ => false
  | .summary _ => false
  | .feedback _ => false

/-- A FEEDBACK event. -/
def Event.isFeedback : Event → Bool
  | .feedback _ => true
  | .response _ => false
  | .summary _ => false
  | .message _ => false
  | .notify _ _ _ => false

/-- What folding a message leaves alone: the framer, the pending sequence and every counter but the three that R190
names; it only appends NOTIFY events (R190, R199). -/
structure FoldFrame (b b' : Backend) : Prop where
  framer : b'.framer = b.framer
  pending : b'.pending = b.pending
  cnt : b'.cnt = { b.cnt with
    neighborOverflow := b'.cnt.neighborOverflow, sccOverflow := b'.cnt.sccOverflow, callEvict := b'.cnt.callEvict }
  trace : ∃ es, b'.trace = b.trace ++ es ∧ ∀ e ∈ es, e.isNotify = true

/-- What the stages after the slicer leave alone: SAMPLE_COUNT, FEEDBACK and SYMBOL_COUNT; they only append MESSAGE and
NOTIFY events (R72, R225). -/
structure StageFrame (b b' : Backend) : Prop where
  sampleCount : b'.cnt.sampleCount = b.cnt.sampleCount
  feedback : b'.cnt.feedback = b.cnt.feedback
  symbolCount : b'.cnt.symbolCount = b.cnt.symbolCount
  trace : ∃ es, b'.trace = b.trace ++ es ∧ ∀ e ∈ es, e.isRecord = true

/-! ## The spec's tables in the claims' own words -/

/-- R85 (a) to (e), in the bit positions of R81. -/
abbrev IllegalBits (w : Word) : Prop :=
  0x0B ≤ w.toNat / 2 ^ 24
    ∨ w.toNat / 2 ^ 16 % 2 ^ 8 ≠ 0
    ∨ ((w.toNat / 2 ^ 24 = 0 ∨ w.toNat / 2 ^ 24 = 3 ∨ w.toNat / 2 ^ 24 = 4 ∨ w.toNat / 2 ^ 24 = 8
          ∨ w.toNat / 2 ^ 24 = 9) ∧ w.toNat % 2 ^ 16 ≠ 0)
    ∨ (w.toNat / 2 ^ 24 = 1 ∧ w.toNat % 2 ^ 16 / 2 ^ 8 ≠ 0)
    ∨ (w.toNat / 2 ^ 24 = 0x0A ∧ w.toNat % 2 ^ 16 / 2 ^ 4 ≠ 0)

/-- len(cmd) of R84. -/
def lengthRule (w : Word) : Nat :=
  if IllegalBits w then 1
  else if w.toNat / 2 ^ 24 = 1 ∨ w.toNat / 2 ^ 24 = 7 then 2
  else if w.toNat / 2 ^ 24 = 5 then 1 + w.toNat % 2 ^ 16
  else if w.toNat / 2 ^ 24 = 6 then 1 + 2 * (w.toNat % 2 ^ 16)
  else if w.toNat / 2 ^ 24 = 8 ∨ w.toNat / 2 ^ 24 = 9 then 3
  else 1

/-- Whether a register or selector operand is not valid for its command (R214, R215, R220, check 1 of R212). -/
def BadOperand : Instr → Prop
  | .cfgWrite n _ => ∀ r, regOfNum n ≠ some (.cfg r)
  | .regRead a => 0xFF < a.toNat ∨ regOfNum (a.extractLsb' 0 8) = none
  | .setCorrection sel _ => 2 < sel.toNat
  | .nop => False
  | .start => False
  | .stop => False
  | .pushReal _ => False
  | .pushComplex _ => False
  | .sweep _ => False
  | .summary _ => False
  | .clearStatus _ => False

/-- The R entries of the host table (R227). -/
def RefusedByState (s : State) : Instr → Prop
  | .cfgWrite _ _ => s.status.run = .running
  | .start => s.status.run = .running
  | .pushReal _ => ¬ (s.status.run = .running ∧ s.cfg.inputKind = 1)
  | .pushComplex _ => ¬ (s.status.run = .running ∧ s.cfg.inputKind = 0)
  | .sweep _ => s.status.run ≠ .running
  | .nop => False
  | .regRead _ => False
  | .stop => False
  | .setCorrection _ _ => False
  | .summary _ => False
  | .clearStatus _ => False

/-- The three conditions of codes 14 and 18 (R238). -/
def GainsLegal (lo hi init : Word) : Prop :=
  (isFinite lo = true ∧ flt 0 lo = true) ∧ (isFinite hi = true ∧ fle lo hi = true)
    ∧ (fle lo init = true ∧ fle init hi = true)

/-- The check of each configuration error code (R238). -/
def CheckHolds (p : Params) (c : CfgRegs) (k : CorRegs) : Nat → Prop
  | 1 => c.modulation = 0 ∨ c.modulation = 1
  | 2 => c.inputKind = 0 ∨ c.inputKind = 1
  | 3 => c.decoderType = 0
  | 4 => ¬ (c.modulation = 1 ∧ c.inputKind = 1)
  | 5 => c.sps.toNat ∈ p.spsSupported
  | 6 => c.direction = 0 ∨ c.direction = 1
  | 7 => c.filterBw.toNat < p.numBw
  | 8 => 1 ≤ c.agcWindow.toNat ∧ c.agcWindow.toNat ≤ p.maxAgcWindow
  | 9 => isFinite c.agcTarget = true ∧ flt 0 c.agcTarget = true
  | 10 => isFinite c.agcMaxGain = true ∧ flt 0 c.agcMaxGain = true
  | 11 => fle 0 c.dgcAttack = true ∧ flt c.dgcAttack fOne = true
  | 12 => fle 0 c.dgcDecay = true ∧ flt c.dgcDecay fOne = true
  | 13 => isFinite c.dgcTarget = true ∧ flt 0 c.dgcTarget = true
  | 14 => GainsLegal c.dgcMinGain c.dgcMaxGain c.dgcInitGain
  | 15 => fle 0 c.sdgcAttack = true ∧ flt c.sdgcAttack fOne = true
  | 16 => fle 0 c.sdgcDecay = true ∧ flt c.sdgcDecay fOne = true
  | 17 => isFinite c.sdgcTarget = true ∧ flt 0 c.sdgcTarget = true
  | 18 => GainsLegal c.sdgcMinGain c.sdgcMaxGain c.sdgcInitGain
  | 19 => isFinite c.costasAlpha = true ∧ fle 0 c.costasAlpha = true
  | 20 => isFinite c.costasBeta = true ∧ fle 0 c.costasBeta = true
  | 21 => isFinite c.maxCorrection = true ∧ flt 0 c.maxCorrection = true
  | 22 => isFinite c.slicerLevel = true ∧ flt 0 c.slicerLevel = true
  | 23 => c.syncTol.toNat < p.profile.syncLen
  | 24 => ∀ bl ∈ blockLens p.profile, c.trellisMax.toNat < bl / 4
  | 25 => c.callTimeoutHi.toNat * 2 ^ 32 + c.callTimeoutLo.toNat ≠ 0
  | 26 => c.pduTimeoutHi.toNat * 2 ^ 32 + c.pduTimeoutLo.toNat ≠ 0
  | 27 => k.timingPhase.toNat < c.sps.toNat
  | _ => True

/-- The sum that Correct minimises: COST of each transmitted value against the candidate of a path of inputs from a
state (R162). -/
def chainCost (P : Profile) : Dibit → List Nibble → List Dibit → Nat
  | s, tx :: txs, d :: ds => costOf P tx (nextOf P s d) + chainCost P d txs ds
  | _, [], _ => 0
  | _, _ :: _, [] => 0

/-- The nodes NEXT[s_i][d_i] of a path of inputs from a state (R163, R165): also the encoder of a dibit list. -/
def chainNodes (P : Profile) : Dibit → List Dibit → List Nibble
  | _, [] => []
  | s, d :: ds => nextOf P s d :: chainNodes P d ds

/-- The number of raw bits that differ between two chains (R163). -/
def chainDiff : List Nibble → List Nibble → Nat
  | a :: as, b :: bs => popcount (a ^^^ b) + chainDiff as bs
  | [], _ => 0
  | _ :: _, [] => 0

/-- The bits of a 4-bit value, most significant first (R156). -/
def bitsOfNibble (v : Nibble) : Bits := [v.getLsbD 3, v.getLsbD 2, v.getLsbD 1, v.getLsbD 0]

/-- The values of the aggregator that R200 calls visible: everything but the timestamps. -/
def visible (a : Agg) :
    Option Bits × Option Bits × List (BitVec 28 × Bits) × List (BitVec 16 × BitVec 8)
      × List (Option (BitVec 28 × BitVec 28 × BitVec 28)) :=
  (a.site.map Broadcast.payload, a.network.map Broadcast.payload, a.neighbors.map (fun n => (n.key, n.payload)),
    a.scc, a.calls.map (Option.map fun c => (c.source, c.target, c.channel)))

/-- The CALL_CLOSE notifications of the open calls that meet a condition, in ascending slot order (R196, R204). -/
def closingNotes (q : Call → Bool) (calls : List (Option Call)) : List Event :=
  (List.range calls.length).filterMap fun i =>
    match calls[i]? with
    | some (some c) => if q c then some (.notify (notifyN0 .callClose i) (idWord c.target) (idWord c.channel)) else none
    | _ => none

/-! ## The words of records, in the spec's own numbers -/

/-- CLASS (R89). -/
def classNumber : MsgClass → Nat
  | .tsbk => 0
  | .header => 1
  | .dataBlock => 2
  | .pduSequence => 3
  | .unparsedSequence => 4
  | .rawFrame => 5

/-- CHECK (R90). -/
def checkNumber : Check → Nat
  | .none => 0
  | .pass => 1
  | .fail => 2

/-- ROLE (R91). -/
def roleNumber : Role → Nat
  | .source => 1
  | .target => 2
  | .channel => 3
  | .key => 4
  | .attrChannel => 5
  | .attrClass => 6
  | .attrChannel2 => 7
  | .attrClass2 => 8
  | .radio => 9

/-- NCAT (R95). -/
def ncatNumber : NCat → Nat
  | .site => 1
  | .network => 2
  | .neighbor => 3
  | .scc => 4
  | .callOpen => 5
  | .callUpdate => 6
  | .callClose => 7

/-- A stored payload in a summary: NBITS, TS_LO, TS_HI, payload words (R206). -/
def payloadBlock (payload : Bits) (ts : BitVec 64) : List Word :=
  [BitVec.ofNat 32 payload.length, ts.extractLsb' 0 32, ts.extractLsb' 32 32] ++ packBits payload

/-- A MESSAGE event of a class other than the two sequence classes (R89, R92). -/
def Event.isBlockRecord : Event → Bool
  | .message ws => decide (((ws.headD 0).toNat / 2 ^ 28) ≠ 3 ∧ ((ws.headD 0).toNat / 2 ^ 28) ≠ 4)
  | .notify _ _ _ => false
  | .response _ => false
  | .summary _ => false
  | .feedback _ => false

/-- The framer as EMIT and a resync leave it (R150, R151). -/
def searchingAgain (f : Framer) : Framer :=
  { fstate := .searching, window := 0, fill := 0, tsRing := [], frameTs := f.frameTs, k := f.k, buf := [],
    target := f.target, ftype := f.ftype, blocks := [], expected := 0, hdrFormat := f.hdrFormat }

/-- The record of a RAW frame (R184). -/
def rawRecord (f : Framer) : Msg :=
  { cls := .rawFrame, msgType := 0, ftype := f.ftype, check := .none, undecoded := true, blockIndex := 0,
    correctedBits := 0, ts := f.frameTs, key := 0, ids := [], payload := f.buf }

/-- The record of a block that is not rejected, by the frame's type and the block's position (R171): a trunking block
(R174), a header (R178) or a data block (R181). -/
def blockRecord (e : Env) (f : Framer) (r : BlockResult) (j : Nat) : Msg :=
  let P := e.par.profile
  if isTsbkType (frameType P f.ftype) then
    let op := field r.bits P.tsbkOpcodePos 6
    let mfid := field r.bits P.tsbkMfidPos 8
    let entry := lookupOpcode P e.cfg.direction (BitVec.ofNat 6 op) (BitVec.ofNat 8 mfid)
    { cls := .tsbk
      msgType := (entry.map OpcodeEntry.msgType).getD 0xFF
      ftype := f.ftype
      check := if checkPass P.checkTsbk r.bits then .pass else .fail
      undecoded := false
      blockIndex := j
      correctedBits := r.corrected
      ts := f.frameTs
      key := (e.cfg.direction <<< 16) ||| BitVec.ofNat 32 (mfid * 2 ^ 8 + op)
      ids := ((entry.map OpcodeEntry.fields).getD []).map fun g => ⟨g.role, BitVec.ofNat 28 (field r.bits g.pos g.width)⟩
      payload := r.bits }
  else if j = 0 then
    let fmt := field r.bits P.hdrFormat.pos 5
    let sap := field r.bits P.hdrSap.pos 6
    { cls := .header
      msgType := headerKindCode (headerKind P (BitVec.ofNat 5 fmt) (BitVec.ofNat 6 sap))
      ftype := f.ftype
      check := if checkPass P.checkHeader r.bits then .pass else .fail
      undecoded := false
      blockIndex := 0
      correctedBits := r.corrected
      ts := f.frameTs
      key := BitVec.ofNat 32 (sap * 2 ^ 16 + field r.bits P.hdrMfidPos 8 * 2 ^ 8 + fmt)
      ids := [⟨.radio, BitVec.ofNat 28 (field r.bits P.hdrLlid.pos 24)⟩]
      payload := r.bits }
  else
    { cls := .dataBlock
      msgType := 0
      ftype := f.ftype
      check := .none
      undecoded := r.status == .undecoded
      blockIndex := j
      correctedBits := r.corrected
      ts := f.frameTs
      key := 0
      ids := []
      payload := r.bits }

/-- The exact value, in units of 2^-149, from which a binary32 result overflows: the largest finite value and a half of its
last place (R12). -/
def overflowAt : Int := (2 ^ 25 - 1) * 2 ^ 252

/-- A window read as dibits, the first received most significant (R141). -/
def windowOf (ds : List Dibit) : BitVec 64 := ds.foldl (fun w d => (w <<< 2) ||| d.setWidth 64) 0

/-- The framer fed a list of dibits with their sample indices (R140). -/
def feedDibits (e : Env) (b : Backend) (xs : List (Dibit × BitVec 64)) : Backend :=
  xs.foldl (fun b x => framerStep e x.1 x.2 b) b

/-! ## Invariants -/

/-- RUNNING is entered only with a legal configuration, and nothing makes it illegal after that (R77, R239); the code
of STATUS fits the run state (R216). -/
structure ConfigInv (s : State) : Prop where
  legal : s.status.run = .running → checkConfig s.par s.cfg s.cor = 0
  code : s.status.run = .running → s.status.cfgErrCode = 0
  failed : s.status.run = .configError → s.status.cfgErrCode ≠ 0
  bounded : s.status.cfgErrCode.toNat ≤ 27

/-- A binary32 value within closed bounds. -/
def within (lo v hi : Word) : Prop := fle lo v = true ∧ fle v hi = true

/-- While RUNNING both gains stay inside their configured bounds (R106). -/
structure GainInv (s : State) : Prop where
  config : ConfigInv s
  dgc : s.status.run = .running → within s.cfg.dgcMinGain s.cond.dgcGain s.cfg.dgcMaxGain
  sdgc : s.status.run = .running → within s.cfg.sdgcMinGain s.demod.sdgcGain s.cfg.sdgcMaxGain

/-- While RUNNING the feedback register and the loop frequency stay within MAX_CORRECTION (R121). -/
structure FeedbackInv (s : State) : Prop where
  config : ConfigInv s
  feedback : s.status.run = .running → within (fneg s.cfg.maxCorrection) s.back.cnt.feedback s.cfg.maxCorrection
  freq : s.status.run = .running → within (fneg s.cfg.maxCorrection) s.demod.freq s.cfg.maxCorrection

/-- The sizes of the delay lines and histories (R46): the lines hold MAX_TAPS values, and while RUNNING the ring holds
AGC_WINDOW entries and the history SPS entries. -/
structure LineInv (s : State) : Prop where
  params : paramsOk s.par = true
  config : ConfigInv s
  cfRe : s.cond.cfLineRe.length = s.par.maxTaps
  cfIm : s.cond.cfLineIm.length = s.par.maxTaps
  sf : s.demod.sfLine.length = s.par.maxTaps
  rrcRe : s.demod.rrcLineRe.length = s.par.maxTaps
  rrcIm : s.demod.rrcLineIm.length = s.par.maxTaps
  ring : s.status.run = .running → s.cond.envRing.length = s.cfg.agcWindow.toNat
  hist : s.status.run = .running → s.demod.zhist.length = s.cfg.sps.toNat

/-- The COR registers hold what SET_CORRECTION accepts (R40, R220): OFFSET and SPAN in every run state, TIMING_PHASE while
RUNNING, since outside RUNNING a later SPS may leave it out of range, which START refuses with code 27 (R220, R238). -/
structure CorInv (s : State) : Prop where
  offset : isFinite s.cor.slicerOffset = true
  spanPositive : flt 0 s.cor.slicerSpan = true
  spanUnit : fle s.cor.slicerSpan fOne = true
  phase : s.status.run = .running → s.cor.timingPhase.toNat < s.cfg.sps.toNat

/-- With one sample per symbol every sample is a strobe, so the two counts agree modulo 2^32 (R135). -/
structure SymbolInv (s : State) : Prop where
  config : ConfigInv s
  counts : s.status.run = .running → s.cfg.sps = 1 → s.back.cnt.symbolCount = s.back.cnt.sampleCount.setWidth 32

/-- A pending sequence has room: it is completed the moment it has its declared blocks (R181, R183). -/
def PendingOk (b : Backend) : Prop := ∀ q, b.pending = some q → q.blocks.length < q.n

/-- Two open slots never carry the same channel (R195). -/
def ChannelsDistinct (calls : List (Option Call)) : Prop :=
  ∀ (i j : Nat) (ci cj : Call), calls[i]? = some (some ci) → calls[j]? = some (some cj) → ci.channel = cj.channel → i = j

/-- The aggregator's tables (R46, R195, R197, R198): MAX_CALLS slots with distinct channels, a neighbor table in strictly
ascending key order, a strictly sorted SCC set, each within its capacity. -/
structure AggOk (p : Params) (a : Agg) : Prop where
  slots : a.calls.length = p.maxCalls
  channels : ChannelsDistinct a.calls
  neighborsFit : a.neighbors.length ≤ p.maxNeighbors
  neighborsSorted : a.neighbors.Pairwise fun x y => x.key.toNat < y.key.toNat
  sccFit : a.scc.length ≤ p.maxScc
  sccSorted : a.scc.Pairwise fun x y => sccBefore x y = true

/-- What a block phase of a frame knows, by the frame's type: which block is being collected, and how the target
follows from it (R147, R148). -/
def PhaseOk (P : Profile) (f : Framer) : Prop :=
  match frameType P f.ftype with
  | .invalid => False
  | .raw len _ => 0 < len ∧ f.target = P.prefixLen + len
  | .tsbk bl mb _ => f.blocks.length < mb ∧ f.target = P.prefixLen + (f.blocks.length + 1) * bl
  | .pdu bl mb _ =>
    f.target = P.prefixLen + (f.blocks.length + 1) * bl ∧ f.blocks.length < mb
      ∧ (f.blocks ≠ [] → f.blocks.length < f.expected ∧ f.expected ≤ mb)

/-- The framer between two dibits (R138, R141, R143, R145): SEARCHING with nothing collected, or FRAMING with fewer bits
than the target, an even number of both, collecting the prefix or a phase of the frame's type. -/
structure FramerOk (p : Params) (f : Framer) : Prop where
  fill : f.fill ≤ p.profile.syncLen
  ring : f.tsRing.length ≤ p.profile.syncLen / 2
  state : f.fstate = .searching ∨ f.fstate = .framing
  searching : f.fstate = .searching → f.buf = [] ∧ f.blocks = [] ∧ f.expected = 0
  even : f.buf.length % 2 = 0
  targetEven : f.fstate = .framing → f.target % 2 = 0
  room : f.fstate = .framing → f.buf.length < f.target
  fits : f.fstate = .framing → f.target ≤ p.maxFrameBits
  phase : f.fstate = .framing → (f.target = p.profile.prefixLen ∧ f.blocks = []) ∨ PhaseOk p.profile f

/-- The framer invariant of a state built with a legal profile (R8, R80). -/
structure FramerInv (s : State) : Prop where
  params : paramsOk s.par = true
  framer : FramerOk s.par s.back.framer

/-- A PDU frame that has data blocks to collect began with an accepted header, and it collects exactly the blocks that
the header declares (R148). -/
def HeaderOk (P : Profile) (f : Framer) : Prop :=
  match frameType P f.ftype with
  | .pdu _ _ _ =>
    f.fstate = .framing → ∀ h rest, f.blocks = h :: rest →
      h.status ≠ .rejected ∧ checkPass P.checkHeader h.bits = true ∧ f.expected = 1 + field h.bits P.hdrBtf.pos 7
  | .tsbk _ _ _ => True
  | .raw _ _ => True
  | .invalid => True

/-- No data block is ever dropped from its sequence: the framer never collects more blocks than the header declares
(R181). -/
structure OrphanInv (s : State) : Prop where
  framer : FramerInv s
  header : HeaderOk s.par.profile s.back.framer
  orphans : s.back.cnt.orphanBlock = 0

/-- The parser and aggregator invariants of a state. -/
structure TableInv (s : State) : Prop where
  pending : PendingOk s.back
  agg : AggOk s.par s.back.agg

/-- A frame's running length never passes the buffer's capacity (R80). -/
def BufferFits (s : State) : Prop := s.back.framer.buf.length ≤ s.par.maxFrameBits

end Sys2Proof.Machine
end

