-- ==== Sys2Proof/Certificates/Slice0/Obligations.lean ====
section
/-! DEFINITION. The statements for the provers. Each docstring names the rules of the spec that it formalises. -/

open Sys2Proof Sys2Proof.Machine

/-! ## Encoding and the command stream -/

/-- Decoding an encoded well-formed command gives it back, with the rest of the stream (R81 to R84, R87). -/
def Obligations.DecodeEncode : Prop :=
  ∀ (i : Instr) (rest : List Word), i.WellFormed = true → decode (encode i ++ rest) = .ok (i, rest)

/-- Whatever decodes was the encoding of a well-formed command: no bit of a command is dropped (R81 to R85, R87). -/
def Obligations.EncodeDecode : Prop :=
  ∀ (ws : List Word) (i : Instr) (rest : List Word),
    decode ws = .ok (i, rest) → i.WellFormed = true ∧ ws = encode i ++ rest

/-- R85: the illegal words, each one word long, not performed, raising ILLEGAL_CMD; no other word is illegal. -/
def Obligations.IllegalWords : Prop :=
  ∀ (s : State) (w : Word) (ws : List Word), s.cmdIn = w :: ws →
    (IllegalBits w →
      step s = .next { s with cmdIn := ws, cmdPos := s.cmdPos + 1, status := { s.status with illegalCmd := true } })
    ∧ (¬ IllegalBits w → decode s.cmdIn ≠ .error .illegal)

/-- A step runs the decoded command on the state whose stream has moved past its words (R70, R211, R212). -/
def Obligations.StepRunsDecoded : Prop :=
  ∀ (s : State) (i : Instr) (rest : List Word), decode s.cmdIn = .ok (i, rest) →
    step s = exec i { s with cmdIn := rest, cmdPos := s.cmdPos + (encode i).length }

/-- R84: a command whose words are all there completes, performed or refused, and the stream moves on by its length. -/
def Obligations.StepConsumesCommand : Prop :=
  ∀ (s : State) (w : Word) (ws : List Word), s.cmdIn = w :: ws → lengthRule w ≤ 1 + ws.length →
    ∃ t, step s = .next t ∧ t.cmdIn = ws.drop (lengthRule w - 1) ∧ t.cmdPos = s.cmdPos + lengthRule w

/-- The end of a run: an exhausted stream, and a truncated last command, which is a refusal (R71). That
both are refusals of a step is the model's choice (log 2). -/
def Obligations.StreamEnds : Prop :=
  ∀ s : State,
    (s.cmdIn = [] → step s = .refused .endOfStream)
    ∧ ∀ (w : Word) (ws : List Word), s.cmdIn = w :: ws → 1 + ws.length < lengthRule w →
        step s = .refused .truncatedCommand

/-- One written-out word of every command decodes to it (R82): a sanity statement. -/
def Obligations.DecodedWords : Prop :=
  decode [0x00000000] = .ok (.nop, [])
    ∧ decode [0x01000013, 0x00000001] = .ok (.cfgWrite 0x13 1, [])
    ∧ decode [0x02000002] = .ok (.regRead 2, [])
    ∧ decode [0x03000000] = .ok (.start, [])
    ∧ decode [0x04000000] = .ok (.stop, [])
    ∧ decode [0x05000002, 0x40400000, 0xBF800000] = .ok (.pushReal [0x40400000, 0xBF800000], [])
    ∧ decode [0x06000001, 0x3F800000, 0x40000000] = .ok (.pushComplex [(0x3F800000, 0x40000000)], [])
    ∧ decode [0x07000001, 0x3F000000] = .ok (.setCorrection 1 0x3F000000, [])
    ∧ decode [0x08000000, 0x0000BB80, 0x00000001] = .ok (.sweep 0x000000010000BB80, [])
    ∧ decode [0x09000000, 0x0000BB80, 0x00000001] = .ok (.summary 0x000000010000BB80, [])
    ∧ decode [0x0A00000F] = .ok (.clearStatus 0xF, [])

/-! ## The commands: result, completion and frame -/

/-- R224: NOP has no effect in any run state, and the word 0 is a NOP. -/
def Obligations.NopDoesNothing : Prop :=
  ∀ (s : State) (ws : List Word), exec .nop s = .next s ∧ decode (0x00000000 :: ws) = .ok (.nop, ws)

/-- R214: CFG_WRITE of a CFG register outside RUNNING writes that register and nothing else; BAD_REG first, then
CMD_REJECTED. -/
def Obligations.CfgWriteEffect : Prop :=
  ∀ (n : BitVec 8) (v : Word) (s : State),
    (∀ r, regOfNum n = some (.cfg r) → s.status.run ≠ .running →
      ∃ c, exec (.cfgWrite n v) s = .next { s with cfg := c }
        ∧ ∀ r', cfgGet c r' = if r' = r then v else cfgGet s.cfg r')
    ∧ (∀ r, regOfNum n = some (.cfg r) → s.status.run = .running →
      exec (.cfgWrite n v) s = .next { s with status := { s.status with cmdRejected := true } })
    ∧ ((∀ r, regOfNum n ≠ some (.cfg r)) →
      exec (.cfgWrite n v) s = .next { s with status := { s.status with badReg := true } })

/-- REG_READ emits one RESPONSE with the register's value; an unassigned number or an operand above 0xFF gives 0 and
BAD_REG; nothing else changes (R48, R215). The value of every register in every state: STATUS and CAPS0 composed of
their fields (R22, R24), SAMPLE_COUNT in halves (R41), FEEDBACK and each counter its own element (R42, R43), FRAMER_STATE
by the framer's state and only 0 or 2 between two dibits (R44), the CFG and COR registers as stored. -/
def Obligations.RegReadEffect : Prop :=
  ∀ (a : BitVec 16) (s : State),
    (∀ r, a.toNat ≤ 0xFF → regOfNum (a.extractLsb' 0 8) = some r →
      exec (.regRead a) s = .next { s with back.trace := s.back.trace ++ [.response (readReg s r)] })
    ∧ (0xFF < a.toNat ∨ regOfNum (a.extractLsb' 0 8) = none →
      exec (.regRead a) s = .next
        { s with back.trace := s.back.trace ++ [.response 0], status := { s.status with badReg := true } })
    ∧ (readReg s (.ro .status)).toNat =
        (runCode s.status.run).toNat + 2 ^ 8 * s.status.illegalCmd.toNat + 2 ^ 9 * s.status.cmdRejected.toNat
          + 2 ^ 10 * s.status.badReg.toNat + 2 ^ 11 * s.status.badValue.toNat + 2 ^ 16 * s.status.cfgErrCode.toNat
    ∧ (readReg s (.ro .sampleCountHi)).toNat * 2 ^ 32 + (readReg s (.ro .sampleCountLo)).toNat
        = s.back.cnt.sampleCount.toNat
    ∧ (readReg s (.ro .caps0)).toNat = s.par.maxCalls % 2 ^ 8 + 2 ^ 8 * (s.par.maxNeighbors % 2 ^ 8)
        + 2 ^ 16 * (s.par.maxScc % 2 ^ 8) + 2 ^ 24 * (s.par.numBw % 2 ^ 8)
    ∧ (s.back.framer.fstate = .searching → readReg s (.ro .framerState) = 0)
    ∧ (s.back.framer.fstate = .synchronized → readReg s (.ro .framerState) = 1)
    ∧ (s.back.framer.fstate = .framing → readReg s (.ro .framerState) = 2)
    ∧ (s.back.framer.fstate = .emit → readReg s (.ro .framerState) = 3)
    ∧ (FramerInv s → readReg s (.ro .framerState) = 0 ∨ readReg s (.ro .framerState) = 2)
    ∧ ([.hwId, .hwVersion, .feedback, .symbolCount, .syncCount, .resyncCount, .frameCount, .blockOk, .blockCorrected,
          .blockRejected, .msgCount, .msgInvalid, .pduComplete, .pduAbandoned, .orphanBlock, .neighborOverflow,
          .sccOverflow, .callEvict, .correctedBits] : List RoReg).map (fun r => readReg s (.ro r))
        = (let c := s.back.cnt
           [Config.hwId, Config.hwVersion, c.feedback, c.symbolCount, c.syncCount, c.resyncCount, c.frameCount, c.blockOk,
            c.blockCorrected, c.blockRejected, c.msgCount, c.msgInvalid, c.pduComplete, c.pduAbandoned, c.orphanBlock,
            c.neighborOverflow, c.sccOverflow, c.callEvict, c.correctedBits])
    ∧ ([.modulation, .inputKind, .decoderType, .sps, .direction, .filterBw, .agcWindow, .agcTarget, .agcMaxGain, .dgcAttack,
          .dgcDecay, .dgcTarget, .dgcMinGain, .dgcMaxGain, .dgcInitGain, .sdgcAttack, .sdgcDecay, .sdgcTarget,
          .sdgcMinGain, .sdgcMaxGain, .sdgcInitGain, .costasAlpha, .costasBeta, .maxCorrection, .slicerLevel, .syncTol,
          .trellisMax, .callTimeoutLo, .callTimeoutHi, .pduTimeoutLo, .pduTimeoutHi] : List CfgReg).map
            (fun r => readReg s (.cfg r))
        = (let c := s.cfg
           [c.modulation, c.inputKind, c.decoderType, c.sps, c.direction, c.filterBw, c.agcWindow, c.agcTarget, c.agcMaxGain,
            c.dgcAttack, c.dgcDecay, c.dgcTarget, c.dgcMinGain, c.dgcMaxGain, c.dgcInitGain, c.sdgcAttack, c.sdgcDecay,
            c.sdgcTarget, c.sdgcMinGain, c.sdgcMaxGain, c.sdgcInitGain, c.costasAlpha, c.costasBeta, c.maxCorrection,
            c.slicerLevel, c.syncTol, c.trellisMax, c.callTimeoutLo, c.callTimeoutHi, c.pduTimeoutLo, c.pduTimeoutHi])
    ∧ ([.slicerOffset, .slicerSpan, .timingPhase] : List CorReg).map (fun r => readReg s (.cor r))
        = [s.cor.slicerOffset, s.cor.slicerSpan, s.cor.timingPhase]

/-- R216: START. -/
def Obligations.StartEffect : Prop :=
  ∀ s : State,
    (s.status.run = .running →
      exec .start s = .next { s with status := { s.status with cmdRejected := true } })
    ∧ (s.status.run ≠ .running →
      ∃ t, exec .start s = .next t
        ∧ (checkConfig s.par s.cfg s.cor = 0 → t.status = { s.status with run := .running, cfgErrCode := 0 })
        ∧ (checkConfig s.par s.cfg s.cor ≠ 0 →
            t.status = { s.status with run := .configError, cfgErrCode := t.status.cfgErrCode }
              ∧ t.status.cfgErrCode.toNat = checkConfig s.par s.cfg s.cor)
        ∧ PipelineCleared t ∧ t.back.cnt = countersCleared
        ∧ t.par = s.par ∧ t.cmdIn = s.cmdIn ∧ t.cmdPos = s.cmdPos ∧ t.cfg = s.cfg ∧ t.cor = s.cor
        ∧ t.back.trace = s.back.trace)

/-- R238: the code is the first check that fails, 0 when none does. A profile with no half-rate block has no N_MIN;
the statement leaves such a profile out (log 10). -/
def Obligations.ConfigCheckCodes : Prop :=
  ∀ (p : Params) (c : CfgRegs) (k : CorRegs), blockLens p.profile ≠ [] →
    (checkConfig p c k = 0 ∧ ∀ j, 1 ≤ j → j ≤ 27 → CheckHolds p c k j)
    ∨ (1 ≤ checkConfig p c k ∧ checkConfig p c k ≤ 27 ∧ ¬ CheckHolds p c k (checkConfig p c k)
        ∧ ∀ j, 1 ≤ j → j < checkConfig p c k → CheckHolds p c k j)

/-- R217: STOP. -/
def Obligations.StopEffect : Prop :=
  ∀ s : State, ∃ t, exec .stop s = .next t
    ∧ t.status = { s.status with run := .idle }
    ∧ PipelineCleared t ∧ t.back.cnt = s.back.cnt ∧ t.back.trace = s.back.trace
    ∧ t.par = s.par ∧ t.cmdIn = s.cmdIn ∧ t.cmdPos = s.cmdPos ∧ t.cfg = s.cfg ∧ t.cor = s.cor

/-- PUSH_REAL runs SampleStep on each sample in order, or is refused as a whole (R218). It counts its samples, emits no
FEEDBACK, RESPONSE or SUMMARY event, and leaves alone what only commands or the complex paths write (R42, R72, R105, R111,
R225). In a state that START refuses, MODULATION = 1 with real input, the path taken is the model's choice (log 12). -/
def Obligations.PushRealEffect : Prop :=
  ∀ (xs : List Word) (s : State),
    (s.status.run = .running → s.cfg.inputKind = 1 →
      ∃ t, exec (.pushReal xs) s = .next t
        ∧ t = xs.foldl (fun u x => sampleStep u (.real x)) s
        ∧ SameHost s t
        ∧ t.back.cnt.sampleCount = s.back.cnt.sampleCount + BitVec.ofNat 64 xs.length
        ∧ t.back.cnt.feedback = s.back.cnt.feedback
        ∧ (∃ es, t.back.trace = s.back.trace ++ es ∧ ∀ e ∈ es, e.isRecord = true)
        ∧ t.cond.cfLineIm = s.cond.cfLineIm ∧ t.cond.envRing = s.cond.envRing
        ∧ t.demod = { s.demod with sfLine := t.demod.sfLine, sdgcGain := t.demod.sdgcGain })
    ∧ (¬ (s.status.run = .running ∧ s.cfg.inputKind = 1) →
      exec (.pushReal xs) s = .next { s with status := { s.status with cmdRejected := true } })

/-- PUSH_COMPLEX runs SampleStep on each sample in order, or is refused as a whole (R219). In CQPSK mode there is one
FEEDBACK event per sample, otherwise none, and each demodulator path leaves the other's state alone (R103, R111, R119,
R225). In a state that START refuses, MODULATION above 1, the path taken is the model's choice (log 12). -/
def Obligations.PushComplexEffect : Prop :=
  ∀ (xs : List (Word × Word)) (s : State),
    (s.status.run = .running → s.cfg.inputKind = 0 →
      ∃ t, exec (.pushComplex xs) s = .next t
        ∧ t = xs.foldl (fun u x => sampleStep u (.complex x)) s
        ∧ SameHost s t
        ∧ t.back.cnt.sampleCount = s.back.cnt.sampleCount + BitVec.ofNat 64 xs.length
        ∧ (∃ es, t.back.trace = s.back.trace ++ es
            ∧ (es.filter Event.isFeedback).length = (if s.cfg.modulation = 1 then xs.length else 0)
            ∧ ∀ e ∈ es, e.isRecord = true ∨ e.isFeedback = true)
        ∧ t.cond.dgcGain = s.cond.dgcGain
        ∧ (s.cfg.modulation = 1 →
            t.demod.discPrev = s.demod.discPrev ∧ t.demod.sfLine = s.demod.sfLine
              ∧ t.demod.sdgcGain = s.demod.sdgcGain)
        ∧ (s.cfg.modulation ≠ 1 →
            t.back.cnt.feedback = s.back.cnt.feedback
              ∧ t.demod = { s.demod with
                  discPrev := t.demod.discPrev, sfLine := t.demod.sfLine, sdgcGain := t.demod.sdgcGain }))
    ∧ (¬ (s.status.run = .running ∧ s.cfg.inputKind = 0) →
      exec (.pushComplex xs) s = .next { s with status := { s.status with cmdRejected := true } })

/-- R220: SET_CORRECTION, in every run state. -/
def Obligations.SetCorrectionEffect : Prop :=
  ∀ (sel : BitVec 16) (v : Word) (s : State),
    (2 < sel.toNat → exec (.setCorrection sel v) s = .next { s with status := { s.status with badReg := true } })
    ∧ (sel.toNat = 0 → isFinite v = true →
        exec (.setCorrection sel v) s = .next { s with cor := { s.cor with slicerOffset := v } })
    ∧ (sel.toNat = 1 → flt 0 v = true → fle v fOne = true →
        exec (.setCorrection sel v) s = .next { s with cor := { s.cor with slicerSpan := v } })
    ∧ (sel.toNat = 2 → v.toNat < s.cfg.sps.toNat →
        exec (.setCorrection sel v) s = .next { s with cor := { s.cor with timingPhase := v } })
    ∧ ((sel.toNat = 0 ∧ isFinite v = false) ∨ (sel.toNat = 1 ∧ ¬ (flt 0 v = true ∧ fle v fOne = true))
          ∨ (sel.toNat = 2 ∧ s.cfg.sps.toNat ≤ v.toNat) →
        exec (.setCorrection sel v) s = .next { s with status := { s.status with badValue := true } })

/-- R204, R221: SWEEP closes exactly the calls with t >= last_ts + D, notified in ascending slot order, then abandons a
pending sequence with t >= ts + P; outside RUNNING it is refused. -/
def Obligations.SweepEffect : Prop :=
  ∀ (t : BitVec 64) (s : State),
    (s.status.run = .running →
      ∃ u, exec (.sweep t) s = .next u
        ∧ u = { s with back := { s.back with
            cnt := { s.back.cnt with pduAbandoned := u.back.cnt.pduAbandoned }
            pending := u.back.pending
            agg := { s.back.agg with calls := u.back.agg.calls }
            trace := u.back.trace } }
        ∧ u.back.agg.calls.length = s.back.agg.calls.length
        ∧ (∀ i : Nat, s.back.agg.calls[i]? = some none → u.back.agg.calls[i]? = some none)
        ∧ (∀ (i : Nat) (c : Call), s.back.agg.calls[i]? = some (some c) →
            u.back.agg.calls[i]? = some
              (if c.lastTs.toNat + (s.cfg.callTimeoutHi.toNat * 2 ^ 32 + s.cfg.callTimeoutLo.toNat) ≤ t.toNat
                then none else some c))
        ∧ u.back.trace = s.back.trace ++ closingNotes (fun c => decide
            (c.lastTs.toNat + (s.cfg.callTimeoutHi.toNat * 2 ^ 32 + s.cfg.callTimeoutLo.toNat) ≤ t.toNat)) s.back.agg.calls
        ∧ (s.back.pending = none → u.back.pending = none ∧ u.back.cnt.pduAbandoned = s.back.cnt.pduAbandoned)
        ∧ (∀ q, s.back.pending = some q →
            (q.ts.toNat + (s.cfg.pduTimeoutHi.toNat * 2 ^ 32 + s.cfg.pduTimeoutLo.toNat) ≤ t.toNat →
              u.back.pending = none ∧ u.back.cnt.pduAbandoned = s.back.cnt.pduAbandoned + 1)
            ∧ (t.toNat < q.ts.toNat + (s.cfg.pduTimeoutHi.toNat * 2 ^ 32 + s.cfg.pduTimeoutLo.toNat) →
              u.back.pending = some q ∧ u.back.cnt.pduAbandoned = s.back.cnt.pduAbandoned)))
    ∧ (s.status.run ≠ .running →
      exec (.sweep t) s = .next { s with status := { s.status with cmdRejected := true } })

/-- R222: SUMMARY emits one SUMMARY event and changes nothing else, and a second SUMMARY of the same time gives the
same list (R207). Its words, in order, are those of R206: S0, S1, S2, the site and the network block if present, the
neighbor blocks in table order, which TableInvKept says is ascending, the SCC words in set order, and the blocks of the
active calls in ascending slot order. EmissionEffect says what packBits is. -/
def Obligations.SummaryEffect : Prop :=
  ∀ (t : BitVec 64) (s : State), ∃ (ws : List Word) (active : List Call),
    exec (.summary t) s = .next { s with back.trace := s.back.trace ++ [.summary ws] }
    ∧ exec (.summary t) { s with back.trace := s.back.trace ++ [.summary ws] }
        = .next { s with back.trace := s.back.trace ++ [.summary ws] ++ [.summary ws] }
    ∧ (∀ c, c ∈ active ↔ some c ∈ s.back.agg.calls
        ∧ t.toNat < c.lastTs.toNat + (s.cfg.callTimeoutHi.toNat * 2 ^ 32 + s.cfg.callTimeoutLo.toNat))
    ∧ (ws.getD 0 0).toNat = (runCode s.status.run).toNat + 2 ^ 8 * s.back.agg.site.isSome.toNat
        + 2 ^ 9 * s.back.agg.network.isSome.toNat + 2 ^ 16 * (s.back.agg.neighbors.length % 2 ^ 8)
        + 2 ^ 24 * (s.back.agg.scc.length % 2 ^ 8)
    ∧ ws.getD 1 0 = BitVec.ofNat 32 active.length
    ∧ ws.getD 2 0 = s.back.cnt.msgInvalid
    ∧ active = (List.range s.back.agg.calls.length).filterMap (fun i =>
        match s.back.agg.calls[i]? with
        | some (some c) =>
          if t.toNat < c.lastTs.toNat + (s.cfg.callTimeoutHi.toNat * 2 ^ 32 + s.cfg.callTimeoutLo.toNat) then some c else none
        | _ => none)
    ∧ ws.drop 3 = (match s.back.agg.site with | some x => payloadBlock x.payload x.ts | none => [])
        ++ (match s.back.agg.network with | some x => payloadBlock x.payload x.ts | none => [])
        ++ (s.back.agg.neighbors.flatMap fun n => n.key.setWidth 32 :: payloadBlock n.payload n.ts)
        ++ (s.back.agg.scc.map fun x => BitVec.ofNat 32 (x.1.toNat * 2 ^ 8 + x.2.toNat))
        ++ (active.flatMap fun c => [c.source.setWidth 32, c.target.setWidth 32, c.channel.setWidth 32,
            c.grantTs.extractLsb' 0 32, c.grantTs.extractLsb' 32 32, c.lastTs.extractLsb' 0 32, c.lastTs.extractLsb' 32 32])

/-- R223: CLEAR_STATUS clears the sticky bits its mask names, and nothing else. -/
def Obligations.ClearStatusEffect : Prop :=
  ∀ (m : BitVec 4) (s : State), ∃ u, exec (.clearStatus m) s = .next { s with status := u }
    ∧ u.run = s.status.run ∧ u.cfgErrCode = s.status.cfgErrCode
    ∧ ∀ i, i < 4 →
        (statusWord u).getLsbD (8 + i) = ((statusWord s.status).getLsbD (8 + i) && !m.getLsbD i)

/-! ## Reset -/

/-- R256: the reset state, for every choice of the build-time parameters; `State.reset` is the one with the reference
parameters (the model's choice, log 3). -/
def Obligations.ResetState : Prop :=
  (∀ p : Params,
    (State.resetWith p).cfg = cfgReset ∧ (State.resetWith p).cor = corReset
      ∧ statusWord (State.resetWith p).status = 0 ∧ (State.resetWith p).status.run = .idle
      ∧ PipelineCleared (State.resetWith p) ∧ (State.resetWith p).back.cnt = countersCleared
      ∧ (State.resetWith p).cmdPos = 0 ∧ (State.resetWith p).back.trace = [])
  ∧ State.reset = State.resetWith referenceParams

/-- The register map of R20, number by number: the register that it names, with its access class, and the reset value,
that of the two OPEN identity registers open (R20, R23, R24, R257). No other number is assigned. CAPS0's value is that of
the reference parameters, the model's choice (log 3). -/
def Obligations.ResetRegisters : Prop :=
  (∀ x ∈ ([
      (0x00, .ro .hwId, Config.hwId), (0x01, .ro .hwVersion, Config.hwVersion), (0x02, .ro .status, 0),
      (0x03, .ro .caps0, 0x01101008), (0x10, .cfg .modulation, 0), (0x11, .cfg .inputKind, 0),
      (0x12, .cfg .decoderType, 0), (0x13, .cfg .sps, 1), (0x14, .cfg .direction, 0), (0x15, .cfg .filterBw, 0),
      (0x16, .cfg .agcWindow, 1), (0x17, .cfg .agcTarget, 0x3F800000), (0x18, .cfg .agcMaxGain, 0x3F800000),
      (0x19, .cfg .dgcAttack, 0), (0x1A, .cfg .dgcDecay, 0), (0x1B, .cfg .dgcTarget, 0x3F800000),
      (0x1C, .cfg .dgcMinGain, 0x3F800000), (0x1D, .cfg .dgcMaxGain, 0x3F800000),
      (0x1E, .cfg .dgcInitGain, 0x3F800000), (0x20, .cfg .sdgcAttack, 0), (0x21, .cfg .sdgcDecay, 0),
      (0x22, .cfg .sdgcTarget, 0x3F800000), (0x23, .cfg .sdgcMinGain, 0x3F800000),
      (0x24, .cfg .sdgcMaxGain, 0x3F800000), (0x25, .cfg .sdgcInitGain, 0x3F800000), (0x28, .cfg .costasAlpha, 0),
      (0x29, .cfg .costasBeta, 0), (0x2A, .cfg .maxCorrection, 0x3E000000), (0x30, .cfg .slicerLevel, 0x3F800000),
      (0x34, .cfg .syncTol, 4), (0x35, .cfg .trellisMax, 7), (0x38, .cfg .callTimeoutLo, 0xBB80),
      (0x39, .cfg .callTimeoutHi, 0), (0x3A, .cfg .pduTimeoutLo, 0xBB80), (0x3B, .cfg .pduTimeoutHi, 0),
      (0x40, .cor .slicerOffset, 0), (0x41, .cor .slicerSpan, 0x3F800000), (0x42, .cor .timingPhase, 0),
      (0x80, .ro .sampleCountLo, 0), (0x81, .ro .sampleCountHi, 0), (0x82, .ro .feedback, 0),
      (0x83, .ro .symbolCount, 0), (0x84, .ro .syncCount, 0), (0x85, .ro .resyncCount, 0),
      (0x86, .ro .frameCount, 0), (0x87, .ro .blockOk, 0), (0x88, .ro .blockCorrected, 0),
      (0x89, .ro .blockRejected, 0), (0x8A, .ro .msgCount, 0), (0x8B, .ro .msgInvalid, 0),
      (0x8C, .ro .pduComplete, 0), (0x8D, .ro .pduAbandoned, 0), (0x8E, .ro .orphanBlock, 0),
      (0x8F, .ro .neighborOverflow, 0), (0x90, .ro .sccOverflow, 0), (0x91, .ro .callEvict, 0),
      (0x92, .ro .framerState, 0), (0x93, .ro .correctedBits, 0)] :
      List (BitVec 8 × RegName × Word)),
    regOfNum x.1 = some x.2.1 ∧ readReg State.reset x.2.1 = x.2.2)
  ∧ ∀ n : BitVec 8, regOfNum n = none ↔ n ∉ ([0x00, 0x01, 0x02, 0x03, 0x10, 0x11, 0x12, 0x13, 0x14, 0x15, 0x16, 0x17,
      0x18, 0x19, 0x1A, 0x1B, 0x1C, 0x1D, 0x1E, 0x20, 0x21, 0x22, 0x23, 0x24, 0x25, 0x28, 0x29, 0x2A, 0x30, 0x34, 0x35,
      0x38, 0x39, 0x3A, 0x3B, 0x40, 0x41, 0x42, 0x80, 0x81, 0x82, 0x83, 0x84, 0x85, 0x86, 0x87, 0x88, 0x89, 0x8A, 0x8B,
      0x8C, 0x8D, 0x8E, 0x8F, 0x90, 0x91, 0x92, 0x93] : List (BitVec 8))

/-! ## Whole-machine rules -/

/-- A sticky bit is lowered by CLEAR_STATUS only; a command that raises one has no other effect, but for the RESPONSE
of REG_READ, so it raises one only (R212, R236, R242, R244, R245). -/
def Obligations.RefusalsArePrecise : Prop :=
  ∀ (i : Instr) (s t : State), exec i s = .next t →
    ((∀ m, i ≠ .clearStatus m) → ∀ c : Cause,
      (statusWord s.status).getLsbD (causeBit c) = true → (statusWord t.status).getLsbD (causeBit c) = true)
    ∧ ∀ c : Cause,
        (statusWord s.status).getLsbD (causeBit c) = false → (statusWord t.status).getLsbD (causeBit c) = true →
        t = raiseStatus c s
          ∨ (c = .badReg ∧ (∃ a, i = .regRead a) ∧ t = raiseStatus .badReg (emitState (.response 0) s))

/-- The run state changes by START and STOP only, and while RUNNING by STOP only (R21, R239). -/
def Obligations.RunStateChanges : Prop :=
  ∀ (i : Instr) (s t : State), exec i s = .next t →
    (i ≠ .start → i ≠ .stop → t.status.run = s.status.run ∧ t.status.cfgErrCode = s.status.cfgErrCode)
    ∧ (i = .start → s.status.run = .running → t.status.run = .running)
    ∧ (i = .stop → t.status.run = .idle)

/-- R227, the host table: in which run states a command is performed, and in which it is refused with CMD_REJECTED; a
bad operand is refused with BAD_REG in every run state (R242). -/
def Obligations.HostTable : Prop :=
  ∀ (i : Instr) (s : State),
    (BadOperand i → ∃ t, exec i s = .next t ∧ t.status = { s.status with badReg := true })
    ∧ (¬ BadOperand i → RefusedByState s i → exec i s = .next (raiseStatus .cmdRejected s))
    ∧ (¬ BadOperand i → ¬ RefusedByState s i → ∃ t, exec i s = .next t
        ∧ (s.status.cmdRejected = false → t.status.cmdRejected = false)
        ∧ (s.status.badReg = false → t.status.badReg = false)
        ∧ (s.status.badValue = false → (∀ sel v, i ≠ .setCorrection sel v) → t.status.badValue = false)
        ∧ (i = .start → checkConfig s.par s.cfg s.cor ≠ 0 → t.status.run = .configError))

/-- The parameters and the profile never change; CFG registers are locked while RUNNING; COR registers are written by
SET_CORRECTION only (R8, R40, R76, R77, R134). -/
def Obligations.ConfigLocked : Prop :=
  (∀ s t : State, step s = .next t → t.par = s.par ∧ (s.status.run = .running → t.cfg = s.cfg))
  ∧ ∀ (i : Instr) (s t : State), exec i s = .next t →
      ((∀ sel v, i ≠ .setCorrection sel v) → t.cor = s.cor) ∧ ((∀ n v, i ≠ .cfgWrite n v) → t.cfg = s.cfg)

/-- The output trace only grows (R58, R226). -/
def Obligations.TraceOnlyGrows : Prop :=
  ∀ s t : State, step s = .next t → s.back.trace <+: t.back.trace

/-- Batch boundaries are invisible: one PUSH of two batches is the PUSH of the first, then of the second (R218, R263). -/
def Obligations.BatchesJoin : Prop :=
  (∀ (xs ys : List Word) (s : State), s.status.run = .running → s.cfg.inputKind = 1 →
    ∃ u t, exec (.pushReal xs) s = .next u ∧ exec (.pushReal ys) u = .next t ∧ exec (.pushReal (xs ++ ys)) s = .next t)
  ∧ ∀ (xs ys : List (Word × Word)) (s : State), s.status.run = .running → s.cfg.inputKind = 0 →
    ∃ u t, exec (.pushComplex xs) s = .next u ∧ exec (.pushComplex ys) u = .next t
      ∧ exec (.pushComplex (xs ++ ys)) s = .next t

/-! ## Invariants that every step keeps -/

/-- A RUNNING core has a legal configuration, and CFG_ERR_CODE fits the run state (R22, R77, R239). -/
def Obligations.ConfigInvKept : Prop := ∀ s t : State, ConfigInv s → step s = .next t → ConfigInv t

/-- Both gains stay within their configured bounds while RUNNING (R106). -/
def Obligations.GainInvKept : Prop := ∀ s t : State, GainInv s → step s = .next t → GainInv t

/-- The feedback cap: FEEDBACK and the loop frequency stay within MAX_CORRECTION while RUNNING (R121). -/
def Obligations.FeedbackInvKept : Prop := ∀ s t : State, FeedbackInv s → step s = .next t → FeedbackInv t

/-- The delay lines, the envelope ring and the sample history keep their lengths (R46). -/
def Obligations.LineInvKept : Prop := ∀ s t : State, LineInv s → step s = .next t → LineInv t

/-- SLICER_OFFSET and SLICER_SPAN stay in range in every run state, and TIMING_PHASE below SPS while RUNNING (R40, R220,
and code 27 of R238). -/
def Obligations.CorInvKept : Prop := ∀ s t : State, CorInv s → step s = .next t → CorInv t

/-- With SPS = 1, SYMBOL_COUNT is SAMPLE_COUNT modulo 2^32 while RUNNING (R135). -/
def Obligations.SymbolInvKept : Prop := ∀ s t : State, SymbolInv s → step s = .next t → SymbolInv t

/-- The framer between two dibits is SEARCHING or FRAMING with room in its buffer, and the buffer never overflows
(R80, R138, R148). -/
def Obligations.FramerInvKept : Prop :=
  (∀ s : State, FramerInv s → BufferFits s) ∧ ∀ s t : State, FramerInv s → step s = .next t → FramerInv t

/-- The pending sequence has room, no two open calls share a channel, and the tables stay sorted and within their
capacities (R181, R195, R197, R198). -/
def Obligations.TableInvKept : Prop := ∀ s t : State, TableInv s → step s = .next t → TableInv t

/-- ORPHAN_BLOCK_COUNT stays 0 (R181). -/
def Obligations.OrphanInvKept : Prop := ∀ s t : State, OrphanInv s → step s = .next t → OrphanInv t

/-- The invariants hold after reset with the reference parameters (the model's choice, log 3 and 4). -/
def Obligations.InvariantsAtReset : Prop :=
  ConfigInv State.reset ∧ GainInv State.reset ∧ FeedbackInv State.reset ∧ LineInv State.reset ∧ CorInv State.reset
    ∧ SymbolInv State.reset ∧ FramerInv State.reset ∧ TableInv State.reset ∧ OrphanInv State.reset

/-! ## Arithmetic and the signal path -/

/-- Sums and products of finite values are rounded to nearest, ties to even: a finite result is at least as near to the
exact value as every other finite value, and has an even fraction when another is as near; the result is finite exactly
when the exact value is below the largest finite value and a half of its last place, and from there on it is the infinity
of the exact value's sign (R12). Values are counted in units of 2^-149. -/
def Obligations.RoundsToNearest : Prop :=
  ∀ a b : Word, isFinite a = true → isFinite b = true →
    (let z := valueF a + valueF b
     (|z| < overflowAt → isFinite (fadd a b) = true ∧ ∀ w : Word, isFinite w = true →
       |valueF (fadd a b) - z| ≤ |valueF w - z|
         ∧ (|valueF (fadd a b) - z| = |valueF w - z| → valueF w = valueF (fadd a b) ∨ mag (fadd a b) % 2 = 0))
     ∧ (overflowAt ≤ z → fadd a b = 0x7F800000)
     ∧ (z ≤ -overflowAt → fadd a b = 0xFF800000))
    ∧ (let z := valueF a * valueF b
       (|z| < overflowAt * 2 ^ 149 → isFinite (fmul a b) = true ∧ ∀ w : Word, isFinite w = true →
         |valueF (fmul a b) * 2 ^ 149 - z| ≤ |valueF w * 2 ^ 149 - z|
           ∧ (|valueF (fmul a b) * 2 ^ 149 - z| = |valueF w * 2 ^ 149 - z| →
               valueF w = valueF (fmul a b) ∨ mag (fmul a b) % 2 = 0))
       ∧ (overflowAt * 2 ^ 149 ≤ z → fmul a b = 0x7F800000)
       ∧ (z ≤ -(overflowAt * 2 ^ 149) → fmul a b = 0xFF800000))

/-- R14: the laws (a) to (e) of the transcendental functions. -/
def Obligations.TranscendentalLaws : Prop :=
  (∀ y x : Word, isZero y = true → isZero x = true → fAtan2 y x = 0)
  ∧ (∀ y x : Word, isNaN y = false → isNaN x = false → within (fneg piF) (fAtan2 y x) piF)
  ∧ (∀ x : Word, flt 0 x = true → fAtan2 0 x = 0)
  ∧ (∀ y x : Word, isNaN y = true ∨ isNaN x = true → isNaN (fAtan2 y x) = true)
  ∧ fSin 0 = 0 ∧ fCos 0 = fOne

/-- The FIR primitive: the new sample enters in front, the oldest leaves, and the output is the tap sum in ascending
order from +0.0, with h[0] on the newest sample (R102). -/
def Obligations.FirIsTapSum : Prop :=
  ∀ (n : Nat) (line h : List Word) (x : Word), line.length = n → 1 ≤ n → h.length ≤ n →
    (fir n line h x).1 = x :: line.dropLast
    ∧ (fir n line h x).2 = (List.range h.length).foldl
        (fun acc k => fadd acc (fmul (h.getD k 0) ((x :: line.dropLast).getD k 0))) 0

/-- The envelope is +0.0 or an entry of the window, and no entry that is not a NaN exceeds it (R104). -/
def Obligations.EnvelopeIsLargest : Prop :=
  ∀ ring : List Word, (envelope ring = 0 ∨ envelope ring ∈ ring) ∧ isNaN (envelope ring) = false
    ∧ ∀ v ∈ ring, isNaN v = false → fle v (envelope ring) = true

/-- The two slicers. C4FM (R129, R130): the thresholds are 0 and plus and minus thr = 2 L SPAN; OFFSET shifts the soft value;
with a legal threshold a NaN gives 0, +∞ gives 1 and -∞ gives 3. CQPSK (R116, R127, R131): the dibit is the one whose
nominal phase QREF returns, and LEVEL and SPAN are not used. MODULATION chooses (R128). -/
def Obligations.QuadrantsAgree : Prop :=
  (∀ (c : CfgRegs) (k : CorRegs) (soft : Word),
    let thr := fmul (fmul 0x40000000 c.slicerLevel) k.slicerSpan
    let v := sane (fsub soft k.slicerOffset)
    (fle thr v = true → sliceC4fm c k soft = 1)
    ∧ (fle thr v = false → fle 0 v = true → sliceC4fm c k soft = 0)
    ∧ (fle thr v = false → fle 0 v = false → fle (fneg thr) v = true → sliceC4fm c k soft = 2)
    ∧ (fle thr v = false → fle 0 v = false → fle (fneg thr) v = false → sliceC4fm c k soft = 3)
    ∧ sliceC4fm c k soft = sliceC4fm c { k with slicerOffset := 0 } (fsub soft k.slicerOffset)
    ∧ (isFinite thr = true → flt 0 thr = true → isFinite k.slicerOffset = true →
        sliceC4fm c k qNaN = 0 ∧ sliceC4fm c k 0x7F800000 = 1 ∧ sliceC4fm c k 0xFF800000 = 3))
  ∧ (∀ (k : CorRegs) (soft : Word),
    qref (wrapF (fsub soft k.slicerOffset)) =
      (match (sliceCqpsk k soft).toNat with
       | 0 => quarterPiF
       | 1 => threeQuarterPiF
       | 2 => fneg quarterPiF
       | _ => fneg threeQuarterPiF))
  ∧ ∀ (c : CfgRegs) (k : CorRegs) (soft : Word),
    (c.modulation = 0 → sliceSoft c k soft = sliceC4fm c k soft) ∧ (c.modulation = 1 → sliceSoft c k soft = sliceCqpsk k soft)

/-! ## Frames and blocks -/

/-- A SEARCHING framer with an empty window, after a clear, an EMIT or a resync, reads dibits. Before SYNC_LEN/2 of them it
finds nothing. From there on, at every dibit offset, while no earlier window matched: it is FRAMING exactly when the
window of the last SYNC_LEN/2 dibits is within SYNC_TOL of a known pattern, and then the frame's timestamp is the index of
that window's first dibit; otherwise it goes on searching (R141, R142, R153). -/
def Obligations.SyncFoundWithinTolerance : Prop :=
  ∀ (e : Env) (b : Backend) (xs : List (Dibit × BitVec 64)),
    paramsOk e.par = true → b.framer.fstate = .searching → b.framer.window = 0 → b.framer.fill = 0 → b.framer.tsRing = [] →
    let m := e.par.profile.syncLen / 2
    let near := fun ys : List (Dibit × BitVec 64) =>
      ∃ v ∈ e.par.profile.sync, popcount (windowOf (ys.map Prod.fst) ^^^ v) ≤ e.cfg.syncTol.toNat
    let last := xs.drop (xs.length - m)
    (xs.length < m → feedDibits e b xs = { b with
      framer := { b.framer with
        window := windowOf (xs.map Prod.fst), fill := 2 * xs.length, tsRing := xs.map Prod.snd } })
    ∧ (m ≤ xs.length → (∀ n, m ≤ n → n < xs.length → ¬ near ((xs.take n).drop (n - m))) →
      (near last → feedDibits e b xs = { b with
        cnt := { b.cnt with syncCount := b.cnt.syncCount + 1 }
        framer := { b.framer with
          fstate := .framing, window := windowOf (last.map Prod.fst), fill := e.par.profile.syncLen
          tsRing := last.map Prod.snd, frameTs := (last.map Prod.snd).headD 0
          k := BitVec.ofNat 32 m, buf := [], target := e.par.profile.prefixLen, blocks := [], expected := 0 } })
      ∧ (¬ near last → feedDibits e b xs = { b with
        framer := { b.framer with
          window := windowOf (last.map Prod.fst), fill := e.par.profile.syncLen, tsRing := last.map Prod.snd } }))

/-- How a frame ends. EMIT (R151, R166): it counts the frame and each of its blocks by its status, and returns to
SEARCHING unconditionally; a RAW frame gives its one record, folded by the type's category (R184); a TSBK or PDU frame
gives, among NOTIFY events and the record of a sequence completed, exactly one record for each block not rejected, in block
order, and a PDU frame no NOTIFY event (R171). Resync (R150): counted, back to SEARCHING, nothing emitted; its two causes
are an invalid type at the end of the prefix and a PDU header that passes its check but declares too many blocks, and in
no other case does a completed prefix or block resync. -/
def Obligations.EmitCountsBlocks : Prop :=
  (∀ (e : Env) (b : Backend),
    (emitFrame e b).framer = searchingAgain b.framer
    ∧ (emitFrame e b).cnt.frameCount = b.cnt.frameCount + 1
    ∧ (emitFrame e b).cnt.resyncCount = b.cnt.resyncCount
    ∧ (∀ len cat, frameType e.par.profile b.framer.ftype = .raw len cat →
        emitFrame e b = { emitMessage e.par (rawRecord b.framer) cat
            { b with cnt := { b.cnt with frameCount := b.cnt.frameCount + 1 } } with framer := searchingAgain b.framer })
    ∧ ((∀ len cat, frameType e.par.profile b.framer.ftype ≠ .raw len cat) →
        (emitFrame e b).cnt.blockOk
            = b.cnt.blockOk + BitVec.ofNat 32 (b.framer.blocks.countP fun r => r.status == .ok)
        ∧ (emitFrame e b).cnt.blockCorrected
            = b.cnt.blockCorrected + BitVec.ofNat 32 (b.framer.blocks.countP fun r => r.status == .corrected)
        ∧ (emitFrame e b).cnt.blockRejected
            = b.cnt.blockRejected + BitVec.ofNat 32 (b.framer.blocks.countP fun r => r.status == .rejected)
        ∧ (emitFrame e b).cnt.correctedBits = b.cnt.correctedBits
            + BitVec.ofNat 32 ((b.framer.blocks.filter fun r => r.status == .corrected).map BlockResult.corrected).sum
        ∧ ∃ es, (emitFrame e b).trace = b.trace ++ es
            ∧ es.filter Event.isBlockRecord = (b.framer.blocks.zipIdx.filter (fun x => x.1.status != .rejected)).map
                (fun x => Event.message (msgWords (blockRecord e b.framer x.1 x.2)))
            ∧ (∀ bl mb ilv, frameType e.par.profile b.framer.ftype = .pdu bl mb ilv → ∀ x ∈ es, x.isNotify = false))
    ∧ (isTsbkType (frameType e.par.profile b.framer.ftype) = true →
        (emitFrame e b).cnt.msgCount
            = b.cnt.msgCount + BitVec.ofNat 32 (b.framer.blocks.countP fun r => r.status != .rejected)))
  ∧ ∀ (e : Env) (b : Backend),
    let P := e.par.profile
    let t := BitVec.ofNat 4 (field b.framer.buf P.typePos P.typeWidth)
    let unknownType := b.framer.buf.length = P.prefixLen ∧ frameType P t = .invalid
    let tooMany := b.framer.buf.length ≠ P.prefixLen ∧ ∃ bl mb ilv, frameType P b.framer.ftype = .pdu bl mb ilv
      ∧ blockIndex P bl b.framer = 0
      ∧ (let r := decodeBlock e ilv false (slice b.framer.buf P.prefixLen bl)
         r.status ≠ .rejected ∧ checkPass P.checkHeader r.bits = true
           ∧ mb - 1 < field r.bits P.hdrBtf.pos P.hdrBtf.width)
    (unknownType → progress e b = { b with
      cnt := { b.cnt with resyncCount := b.cnt.resyncCount + 1 }
      framer := { searchingAgain b.framer with ftype := t } })
    ∧ (tooMany → progress e b = { b with
      cnt := { b.cnt with resyncCount := b.cnt.resyncCount + 1 }
      framer := searchingAgain b.framer })
    ∧ (¬ unknownType → ¬ tooMany → (b.framer.buf.length = P.prefixLen ∨ frameType P b.framer.ftype ≠ .invalid) →
      (progress e b).cnt.resyncCount = b.cnt.resyncCount)

/-- R161: E of at most TRELLIS_MAX is accepted or corrected, E above it is rejected with no output; TRELLIS_MAX is 7 at
reset. -/
def Obligations.TrellisThreshold : Prop :=
  (∀ (P : Profile) (limit : Nat) (coded : Bits),
    let errors := linkErrors ((nibblesOf coded).map (constOf P))
    (errors = 0 → (trellisDecode P limit coded).status = .ok)
    ∧ (1 ≤ errors → errors ≤ limit → (trellisDecode P limit coded).status = .corrected)
    ∧ (limit < errors → (trellisDecode P limit coded).status = .rejected ∧ (trellisDecode P limit coded).bits = []))
  ∧ cfgReset.trellisMax = 7

/-- R162: Correct picks, from the received first state, the inputs of least total cost, the smallest inputs among equal
costs, and counts the raw bits that they change. -/
def Obligations.TrellisOptimal : Prop :=
  ∀ (P : Profile) (tx : List Nibble) (ds : List Dibit), ds.length = tx.length →
    let s0 := (constOf P (tx.headD 0)).1
    let best := (correctChain P tx).1
    best.length = tx.length
    ∧ (chainCost P s0 tx best < chainCost P s0 tx ds
        ∨ (chainCost P s0 tx best = chainCost P s0 tx ds ∧ best ≤ ds))
    ∧ (correctChain P tx).2 = chainDiff tx (chainNodes P s0 best)

/-- A corrected block: its chain is consistent, its count is the raw bits changed, and at least one was; the other
statuses have a count of 0 (R163, R165). -/
def Obligations.CorrectedChain : Prop :=
  ∀ (P : Profile) (limit : Nat) (coded : Bits), constOk P = true →
    let tx := nibblesOf coded
    let s0 := (constOf P (tx.headD 0)).1
    let r := trellisDecode P limit coded
    (r.status = .corrected → ∃ ds, r.bits = outBits ds
        ∧ linkErrors ((chainNodes P s0 ds).map (constOf P)) = 0
        ∧ r.corrected = chainDiff tx (chainNodes P s0 ds) ∧ 1 ≤ r.corrected)
    ∧ (r.status ≠ .corrected → r.corrected = 0)

/-- A block that encodes a list of dibits from any state decodes to exactly those dibits, with no error (R156, R157,
R159, R160, R164). -/
def Obligations.ValidChainDecodes : Prop :=
  ∀ (P : Profile) (limit : Nat) (s : Dibit) (ds : List Dibit), constOk P = true →
    trellisDecode P limit ((chainNodes P s ds).flatMap bitsOfNibble)
      = { status := .ok, bits := outBits ds, errors := 0, corrected := 0 }

/-! ## Messages -/

/-- The CRC of R170 with an odd polynomial detects every single wrong bit among the covered bits. -/
def Obligations.CrcDetectsOneBit : Prop :=
  ∀ (c : CheckSpec) (b b' : Bits) (i : Nat),
    1 ≤ c.width → c.poly < 2 ^ c.width → c.init < 2 ^ c.width → c.poly % 2 = 1 → c.cov ≤ c.pos →
    b.length = b'.length → i < c.cov → i < b.length →
    (∀ j, j ≠ i → b[j]? = b'[j]?) → b[i]? ≠ b'[i]? →
    checkPass c b = true → checkPass c b' = false

/-- R173: Lookup gives the first entry of the table that matches, or none. -/
def Obligations.LookupIsFirstMatch : Prop :=
  ∀ (P : Profile) (dir : Word) (op : BitVec 6) (mfid : BitVec 8),
    let fits := fun e : OpcodeEntry => directionCode e.dir = dir ∧ e.opcode = op
      ∧ (match e.vsel with | .std => mfid ∈ P.standardMfids | .exact m => m = mfid)
    (∀ e, lookupOpcode P dir op mfid = some e →
      ∃ k : Nat, P.opcodeTable[k]? = some e ∧ fits e ∧ ∀ (j : Nat) (f : OpcodeEntry), j < k → P.opcodeTable[j]? = some f → ¬ fits f)
    ∧ (lookupOpcode P dir op mfid = none → ∀ f ∈ P.opcodeTable, ¬ fits f)

/-- A vendor block is never decoded with a standard entry: with a vendor MFID that no EXACT entry names, the record has
MSG_TYPE 0xFF, no identifiers and category NONE, whatever its opcode (R174, R175). -/
def Obligations.VendorBlocksNotCrossDecoded : Prop :=
  ∀ (e : Env) (r : BlockResult) (j : Nat) (t : BitVec 4) (ts : BitVec 64),
    BitVec.ofNat 8 (field r.bits e.par.profile.tsbkMfidPos 8) ∉ e.par.profile.standardMfids →
    (∀ x ∈ e.par.profile.opcodeTable, x.vsel ≠ .exact (BitVec.ofNat 8 (field r.bits e.par.profile.tsbkMfidPos 8))) →
    (tsbkMsg e r j t ts).msgType = 0xFF ∧ (tsbkMsg e r j t ts).ids = [] ∧ tsbkCategory e r.bits = .none

/-- Every built message is counted and put on the trace; only a valid one is folded, and the NOTIFY events of its fold
follow it (R185, R186). The words of a record whose fields are in range: W0 to W4, the identifier words and the packed
payload (R89 to R94). The words of a notification (R95, R199). -/
def Obligations.EmissionEffect : Prop :=
  (∀ (p : Params) (m : Msg) (cat : Category) (b : Backend),
    (m.check = .fail → emitMessage p m cat b = { b with
      cnt := { b.cnt with msgCount := b.cnt.msgCount + 1, msgInvalid := b.cnt.msgInvalid + 1 }
      trace := b.trace ++ [.message (msgWords m)] })
    ∧ (m.check ≠ .fail → emitMessage p m cat b = foldMsg p m cat { b with
      cnt := { b.cnt with msgCount := b.cnt.msgCount + 1 }
      trace := b.trace ++ [.message (msgWords m)] })
    ∧ ∃ es, (emitMessage p m cat b).trace = b.trace ++ .message (msgWords m) :: es ∧ ∀ x ∈ es, x.isNotify = true)
  ∧ (∀ m : Msg, m.ids.length ≤ 15 → m.blockIndex ≤ 255 → m.correctedBits < 2 ^ 16 → m.payload.length < 2 ^ 16 →
    ∃ w0 w1 : Word, msgWords m = [w0, w1, m.ts.extractLsb' 0 32, m.ts.extractLsb' 32 32, m.key]
        ++ m.ids.map (fun i => BitVec.ofNat 32 (2 ^ 28 * roleNumber i.role + i.value.toNat)) ++ packBits m.payload
      ∧ w0.toNat = 2 ^ 28 * classNumber m.cls + 2 ^ 20 * m.msgType.toNat + 2 ^ 16 * m.ftype.toNat
          + 2 ^ 15 * (decide (m.check ≠ .fail)).toNat + 2 ^ 13 * checkNumber m.check + 2 ^ 12 * m.undecoded.toNat
          + 2 ^ 8 * m.ids.length + m.blockIndex
      ∧ w1.toNat = 2 ^ 16 * m.correctedBits + m.payload.length)
  ∧ (∀ bits : Bits, (packBits bits).length = (bits.length + 31) / 32
    ∧ ∀ w i : Nat, i < 32 → ((packBits bits).getD w 0).getLsbD (31 - i) = bits.getD (32 * w + i) false)
  ∧ ∀ (c : NCat) (slot : Nat) (x y : Word) (b : Backend), slot ≤ 255 →
    ∃ n0 : Word, notifyBack c slot x y b = { b with trace := b.trace ++ [.notify n0 x y] }
      ∧ n0 = notifyN0 c slot ∧ n0.toNat = 2 ^ 24 * ncatNumber c + 2 ^ 16 * slot

/-- A valid header abandons what is pending, counted, and opens its own sequence, completed at once when it declares no
block; a header that fails its check opens nothing (R178, R180). -/
def Obligations.HeaderOpensSequence : Prop :=
  ∀ (e : Env) (r : BlockResult) (t : BitVec 4) (ts : BitVec 64) (b : Backend),
    let n := field r.bits e.par.profile.hdrBtf.pos 7
    let u := parseHeader e r t ts b
    (checkPass e.par.profile.checkHeader r.bits = true →
      u.pending = (if n = 0 then none else some { header := headerMsg e r t ts, blocks := [], n := n, ts := ts })
      ∧ u.cnt.pduAbandoned = (if b.pending = none then b.cnt.pduAbandoned else b.cnt.pduAbandoned + 1)
      ∧ u.cnt.pduComplete = (if n = 0 then b.cnt.pduComplete + 1 else b.cnt.pduComplete))
    ∧ (checkPass e.par.profile.checkHeader r.bits = false →
      u.pending = b.pending ∧ u.cnt.pduAbandoned = b.cnt.pduAbandoned ∧ u.cnt.pduComplete = b.cnt.pduComplete
        ∧ u.cnt.msgInvalid = b.cnt.msgInvalid + 1)

/-- A sequence that declares n blocks is pending and silent until the n-th is appended, completes exactly then with one
record of the first n, and later blocks are orphans (R181, R182, R183). -/
def Obligations.SequenceCompletesAtItsCount : Prop :=
  ∀ (p : Params) (q : Pending) (ms : List Msg) (b : Backend), q.blocks = [] → b.pending = some q →
    (ms.length < q.n →
      ms.foldl (fun b m => appendBlock p m b) b = { b with pending := some { q with blocks := ms } })
    ∧ (1 ≤ q.n → q.n ≤ ms.length →
      (ms.foldl (fun b m => appendBlock p m b) b).pending = none
      ∧ (ms.foldl (fun b m => appendBlock p m b) b).cnt.pduComplete = b.cnt.pduComplete + 1
      ∧ (ms.foldl (fun b m => appendBlock p m b) b).cnt.orphanBlock
          = b.cnt.orphanBlock + BitVec.ofNat 32 (ms.length - q.n)
      ∧ (ms.foldl (fun b m => appendBlock p m b) b).trace
          = b.trace ++ [.message (msgWords (sequenceMsg { q with blocks := ms.take q.n }))])

/-! ## The aggregator -/

/-- R193, R194: a grant refreshes, updates or replaces the call on its channel, or opens one in the lowest free slot, or
evicts the call with the smallest last_ts. -/
def Obligations.GrantEffect : Prop :=
  ∀ (p : Params) (m : Msg) (b : Backend) (ch tg src : BitVec 28),
    idOf m .channel = some ch → idOf m .target = some tg → idOf m .source = some src →
    let fresh : Call := { source := src, target := tg, channel := ch, grantTs := m.ts, lastTs := m.ts }
    let opened := fun i : Nat => Event.notify (notifyN0 .callOpen i) (idWord tg) (idWord ch)
    (∀ (i : Nat) (old : Call), b.agg.calls[i]? = some (some old) → old.channel = ch →
      (∀ (j : Nat) (c : Call), j < i → b.agg.calls[j]? = some (some c) → c.channel ≠ ch) →
      (old.target = tg → old.source = src → foldMsg p m .grant b = { b with
        agg := { b.agg with calls := b.agg.calls.set i (some { old with lastTs := m.ts }) } })
      ∧ (old.target = tg → old.source ≠ src → foldMsg p m .grant b = { b with
        agg := { b.agg with calls := b.agg.calls.set i (some { old with source := src, lastTs := m.ts }) }
        trace := b.trace ++ [.notify (notifyN0 .callUpdate i) (idWord tg) (idWord ch)] })
      ∧ (old.target ≠ tg → foldMsg p m .grant b = { b with
        agg := { b.agg with calls := b.agg.calls.set i (some fresh) }
        trace := b.trace ++ [.notify (notifyN0 .callClose i) (idWord old.target) (idWord old.channel), opened i] }))
    ∧ ((∀ (j : Nat) (c : Call), b.agg.calls[j]? = some (some c) → c.channel ≠ ch) →
      (∀ i : Nat, b.agg.calls[i]? = some none → (∀ j : Nat, j < i → b.agg.calls[j]? ≠ some none) →
        foldMsg p m .grant b = { b with
          agg := { b.agg with calls := b.agg.calls.set i (some fresh) }
          trace := b.trace ++ [opened i] })
      ∧ (∀ (i : Nat) (old : Call), (∀ j : Nat, b.agg.calls[j]? ≠ some none) → b.agg.calls[i]? = some (some old) →
        (∀ (j : Nat) (c : Call), b.agg.calls[j]? = some (some c) →
          old.lastTs.toNat ≤ c.lastTs.toNat ∧ (j < i → old.lastTs.toNat < c.lastTs.toNat)) →
        foldMsg p m .grant b = { b with
          cnt := { b.cnt with callEvict := b.cnt.callEvict + 1 }
          agg := { b.agg with calls := b.agg.calls.set i (some fresh) }
          trace := b.trace ++ [.notify (notifyN0 .callClose i) (idWord old.target) (idWord old.channel), opened i] }))

/-- R196: termination and idle indicators close every open call, notified in ascending slot order. -/
def Obligations.TerminateClosesAll : Prop :=
  ∀ (p : Params) (m : Msg) (cat : Category) (b : Backend), cat = .terminate ∨ cat = .idle →
    foldMsg p m cat b = { b with
      agg := { b.agg with calls := List.replicate b.agg.calls.length none }
      trace := b.trace ++ closingNotes (fun _ => true) b.agg.calls }

/-- R192: a site or network broadcast replaces the stored one, and is notified when it is new or its payload changed. -/
def Obligations.BroadcastFold : Prop :=
  ∀ (p : Params) (m : Msg) (b : Backend),
    (let u := foldMsg p m .siteStatus b
     let e := Event.notify (notifyN0 .site 0) (BitVec.ofNat 32 (field m.payload 16 32)) (BitVec.ofNat 32 (field m.payload 48 32))
     u = { b with agg := { b.agg with site := some { payload := m.payload, ts := m.ts } }, trace := u.trace }
     ∧ (b.agg.site.map Broadcast.payload = some m.payload → u.trace = b.trace)
     ∧ (b.agg.site.map Broadcast.payload ≠ some m.payload → u.trace = b.trace ++ [e]))
    ∧ (let u := foldMsg p m .networkStatus b
       let e := Event.notify (notifyN0 .network 0) (BitVec.ofNat 32 (field m.payload 16 32)) (BitVec.ofNat 32 (field m.payload 48 32))
       u = { b with agg := { b.agg with network := some { payload := m.payload, ts := m.ts } }, trace := u.trace }
       ∧ (b.agg.network.map Broadcast.payload = some m.payload → u.trace = b.trace)
       ∧ (b.agg.network.map Broadcast.payload ≠ some m.payload → u.trace = b.trace ++ [e]))

/-- R197: the neighbor table is last-write-wins per key and never drops an entry; a new key on a full table is
counted. -/
def Obligations.NeighborLastWriteWins : Prop :=
  ∀ (p : Params) (m : Msg) (b : Backend) (key : BitVec 28), idOf m .key = some key →
    b.agg.neighbors.Pairwise (fun x y => x.key.toNat < y.key.toNat) →
    let u := foldMsg p m .neighbor b
    let noted := Event.notify (notifyN0 .neighbor 0) (idWord key) 0
    let written : Prop :=
      (∀ n, n ∈ u.agg.neighbors ↔ n = { key := key, payload := m.payload, ts := m.ts } ∨ (n ∈ b.agg.neighbors ∧ n.key ≠ key))
        ∧ u.agg.neighbors.Pairwise (fun x y => x.key.toNat < y.key.toNat)
        ∧ u = { b with agg := { b.agg with neighbors := u.agg.neighbors }, trace := u.trace }
    (∀ old, old ∈ b.agg.neighbors → old.key = key →
      written ∧ u.agg.neighbors.length = b.agg.neighbors.length
        ∧ u.trace = b.trace ++ (if old.payload = m.payload then [] else [noted]))
    ∧ ((∀ n ∈ b.agg.neighbors, n.key ≠ key) → b.agg.neighbors.length < p.maxNeighbors →
      written ∧ u.agg.neighbors.length = b.agg.neighbors.length + 1 ∧ u.trace = b.trace ++ [noted])
    ∧ ((∀ n ∈ b.agg.neighbors, n.key ≠ key) → p.maxNeighbors ≤ b.agg.neighbors.length →
      u = { b with cnt := { b.cnt with neighborOverflow := b.cnt.neighborOverflow + 1 } })

/-- The SCC set: each declared pair is deduplicated, or counted when the set is full, or inserted in order and notified
with its position; an absent channel role is skipped (R198). Channel and class are held in the 16 and 8 bits of R46 (the
model's reading, log 21). -/
def Obligations.SccDeduplicates : Prop :=
  (∀ (p : Params) (a : BitVec 16) (c : BitVec 8) (b : Backend),
    b.agg.scc.Pairwise (fun x y => sccBefore x y = true) →
    let u := foldSccPair p (a, c) b
    ((a, c) ∈ b.agg.scc → u = b)
    ∧ ((a, c) ∉ b.agg.scc → p.maxScc ≤ b.agg.scc.length →
        u = { b with cnt := { b.cnt with sccOverflow := b.cnt.sccOverflow + 1 } })
    ∧ ((a, c) ∉ b.agg.scc → b.agg.scc.length < p.maxScc →
        ∃ i : Nat, u.agg.scc[i]? = some (a, c)
          ∧ u = { b with
              agg := { b.agg with scc := u.agg.scc }
              trace := b.trace ++ [.notify (notifyN0 .scc i) (a.setWidth 32) (c.setWidth 32)] }
          ∧ u.agg.scc.length = b.agg.scc.length + 1
          ∧ (∀ y, y ∈ u.agg.scc ↔ y = (a, c) ∨ y ∈ b.agg.scc)
          ∧ u.agg.scc.Pairwise (fun x y => sccBefore x y = true)))
  ∧ ∀ (p : Params) (m : Msg) (b : Backend),
      foldMsg p m .scc b =
        foldSccRoles p m .attrChannel2 .attrClass2 (foldSccRoles p m .attrChannel .attrClass b)
      ∧ ∀ r r' : Role, (idOf m r = none → foldSccRoles p m r r' b = b)
          ∧ ∀ a c, idOf m r = some a → idOf m r' = some c →
              foldSccRoles p m r r' b = foldSccPair p (a.setWidth 16, c.setWidth 8) b

/-- R200: a fold emits a notification exactly when it changes a visible value. -/
def Obligations.NotifiesExactlyChanges : Prop :=
  ∀ (p : Params) (m : Msg) (cat : Category) (b : Backend), AggOk p b.agg →
    ((foldMsg p m cat b).trace = b.trace ↔ visible (foldMsg p m cat b).agg = visible b.agg)
end

