-- ==== Sys2Proof/Laws/State.lean ====
section
/-! SUPPORT. One lemma per field for every operation that updates the state: what it writes and what it leaves. -/

namespace Sys2Proof.Machine

open Sys2Proof

/-! ## Operations on the back end -/

@[simp] theorem emitEvents_cnt (es : List Event) (b : Backend) :
    (emitEvents es b).cnt = b.cnt := rfl
@[simp] theorem emitEvents_framer (es : List Event) (b : Backend) :
    (emitEvents es b).framer = b.framer := rfl
@[simp] theorem emitEvents_pending (es : List Event) (b : Backend) :
    (emitEvents es b).pending = b.pending := rfl
@[simp] theorem emitEvents_agg (es : List Event) (b : Backend) :
    (emitEvents es b).agg = b.agg := rfl
@[simp] theorem emitEvents_trace (es : List Event) (b : Backend) :
    (emitEvents es b).trace = b.trace ++ es := rfl

@[simp] theorem emitBack_cnt (e : Event) (b : Backend) :
    (emitBack e b).cnt = b.cnt := rfl
@[simp] theorem emitBack_framer (e : Event) (b : Backend) :
    (emitBack e b).framer = b.framer := rfl
@[simp] theorem emitBack_pending (e : Event) (b : Backend) :
    (emitBack e b).pending = b.pending := rfl
@[simp] theorem emitBack_agg (e : Event) (b : Backend) :
    (emitBack e b).agg = b.agg := rfl
@[simp] theorem emitBack_trace (e : Event) (b : Backend) :
    (emitBack e b).trace = b.trace ++ [e] := rfl

@[simp] theorem notifyBack_cnt (c : NCat) (n : Nat) (x y : Word) (b : Backend) :
    (notifyBack c n x y b).cnt = b.cnt := rfl
@[simp] theorem notifyBack_framer (c : NCat) (n : Nat) (x y : Word) (b : Backend) :
    (notifyBack c n x y b).framer = b.framer := rfl
@[simp] theorem notifyBack_pending (c : NCat) (n : Nat) (x y : Word) (b : Backend) :
    (notifyBack c n x y b).pending = b.pending := rfl
@[simp] theorem notifyBack_agg (c : NCat) (n : Nat) (x y : Word) (b : Backend) :
    (notifyBack c n x y b).agg = b.agg := rfl
@[simp] theorem notifyBack_trace (c : NCat) (n : Nat) (x y : Word) (b : Backend) :
    (notifyBack c n x y b).trace = b.trace ++ [notifyEvent c n x y] := rfl

@[simp] theorem setCall_cnt (i : Nat) (c : Option Call) (b : Backend) :
    (setCall i c b).cnt = b.cnt := rfl
@[simp] theorem setCall_framer (i : Nat) (c : Option Call) (b : Backend) :
    (setCall i c b).framer = b.framer := rfl
@[simp] theorem setCall_pending (i : Nat) (c : Option Call) (b : Backend) :
    (setCall i c b).pending = b.pending := rfl
@[simp] theorem setCall_agg (i : Nat) (c : Option Call) (b : Backend) :
    (setCall i c b).agg = { b.agg with calls := b.agg.calls.set i c } := rfl
@[simp] theorem setCall_trace (i : Nat) (c : Option Call) (b : Backend) :
    (setCall i c b).trace = b.trace := rfl

@[simp] theorem notifyCall_cnt (n : NCat) (i : Nat) (c : Call) (b : Backend) :
    (notifyCall n i c b).cnt = b.cnt := rfl
@[simp] theorem notifyCall_framer (n : NCat) (i : Nat) (c : Call) (b : Backend) :
    (notifyCall n i c b).framer = b.framer := rfl
@[simp] theorem notifyCall_pending (n : NCat) (i : Nat) (c : Call) (b : Backend) :
    (notifyCall n i c b).pending = b.pending := rfl
@[simp] theorem notifyCall_agg (n : NCat) (i : Nat) (c : Call) (b : Backend) :
    (notifyCall n i c b).agg = b.agg := rfl
@[simp] theorem notifyCall_trace (n : NCat) (i : Nat) (c : Call) (b : Backend) :
    (notifyCall n i c b).trace = b.trace ++ [notifyEvent n i (idWord c.target) (idWord c.channel)] := rfl

@[simp] theorem openCall_cnt (i : Nat) (c : Call) (b : Backend) :
    (openCall i c b).cnt = b.cnt := rfl
@[simp] theorem openCall_framer (i : Nat) (c : Call) (b : Backend) :
    (openCall i c b).framer = b.framer := rfl
@[simp] theorem openCall_pending (i : Nat) (c : Call) (b : Backend) :
    (openCall i c b).pending = b.pending := rfl
@[simp] theorem openCall_agg (i : Nat) (c : Call) (b : Backend) :
    (openCall i c b).agg = { b.agg with calls := b.agg.calls.set i (some c) } := rfl
@[simp] theorem openCall_trace (i : Nat) (c : Call) (b : Backend) :
    (openCall i c b).trace = b.trace ++ [notifyEvent .callOpen i (idWord c.target) (idWord c.channel)] := rfl

@[simp] theorem evictCall_cnt (i : Nat) (c : Call) (b : Backend) :
    (evictCall i c b).cnt = { b.cnt with callEvict := b.cnt.callEvict + 1 } := rfl
@[simp] theorem evictCall_framer (i : Nat) (c : Call) (b : Backend) :
    (evictCall i c b).framer = b.framer := rfl
@[simp] theorem evictCall_pending (i : Nat) (c : Call) (b : Backend) :
    (evictCall i c b).pending = b.pending := rfl
@[simp] theorem evictCall_agg (i : Nat) (c : Call) (b : Backend) :
    (evictCall i c b).agg = { b.agg with calls := b.agg.calls.set i none } := rfl
@[simp] theorem evictCall_trace (i : Nat) (c : Call) (b : Backend) :
    (evictCall i c b).trace = b.trace ++ [notifyEvent .callClose i (idWord c.target) (idWord c.channel)] := rfl

@[simp] theorem closeCalls_cnt (p : Call → Bool) (b : Backend) :
    (closeCalls p b).cnt = b.cnt := rfl
@[simp] theorem closeCalls_framer (p : Call → Bool) (b : Backend) :
    (closeCalls p b).framer = b.framer := rfl
@[simp] theorem closeCalls_pending (p : Call → Bool) (b : Backend) :
    (closeCalls p b).pending = b.pending := rfl
@[simp] theorem closeCalls_agg (p : Call → Bool) (b : Backend) :
    (closeCalls p b).agg = { b.agg with calls := closedCalls p b.agg.calls } := rfl
@[simp] theorem closeCalls_trace (p : Call → Bool) (b : Backend) :
    (closeCalls p b).trace = b.trace ++ closeEvents p 0 b.agg.calls := rfl

@[simp] theorem resync_cnt  (b : Backend) :
    (resync b).cnt = { b.cnt with resyncCount := b.cnt.resyncCount + 1 } := rfl
@[simp] theorem resync_framer  (b : Backend) :
    (resync b).framer = toSearching b.framer := rfl
@[simp] theorem resync_pending  (b : Backend) :
    (resync b).pending = b.pending := rfl
@[simp] theorem resync_agg  (b : Backend) :
    (resync b).agg = b.agg := rfl
@[simp] theorem resync_trace  (b : Backend) :
    (resync b).trace = b.trace := rfl

@[simp] theorem addBlock_cnt (r : BlockResult) (b : Backend) :
    (addBlock r b).cnt = b.cnt := rfl
@[simp] theorem addBlock_framer (r : BlockResult) (b : Backend) :
    (addBlock r b).framer = { b.framer with blocks := b.framer.blocks ++ [r] } := rfl
@[simp] theorem addBlock_pending (r : BlockResult) (b : Backend) :
    (addBlock r b).pending = b.pending := rfl
@[simp] theorem addBlock_agg (r : BlockResult) (b : Backend) :
    (addBlock r b).agg = b.agg := rfl
@[simp] theorem addBlock_trace (r : BlockResult) (b : Backend) :
    (addBlock r b).trace = b.trace := rfl

@[simp] theorem countSample_cnt  (b : Backend) :
    (countSample b).cnt = { b.cnt with sampleCount := b.cnt.sampleCount + 1 } := rfl
@[simp] theorem countSample_framer  (b : Backend) :
    (countSample b).framer = b.framer := rfl
@[simp] theorem countSample_pending  (b : Backend) :
    (countSample b).pending = b.pending := rfl
@[simp] theorem countSample_agg  (b : Backend) :
    (countSample b).agg = b.agg := rfl
@[simp] theorem countSample_trace  (b : Backend) :
    (countSample b).trace = b.trace := rfl

/-! ## Operations on the state -/

@[simp] theorem emitState_par (e : Event) (s : State) :
    (emitState e s).par = s.par := rfl
@[simp] theorem emitState_cmdIn (e : Event) (s : State) :
    (emitState e s).cmdIn = s.cmdIn := rfl
@[simp] theorem emitState_cmdPos (e : Event) (s : State) :
    (emitState e s).cmdPos = s.cmdPos := rfl
@[simp] theorem emitState_cfg (e : Event) (s : State) :
    (emitState e s).cfg = s.cfg := rfl
@[simp] theorem emitState_cor (e : Event) (s : State) :
    (emitState e s).cor = s.cor := rfl
@[simp] theorem emitState_status (e : Event) (s : State) :
    (emitState e s).status = s.status := rfl
@[simp] theorem emitState_cond (e : Event) (s : State) :
    (emitState e s).cond = s.cond := rfl
@[simp] theorem emitState_demod (e : Event) (s : State) :
    (emitState e s).demod = s.demod := rfl
@[simp] theorem emitState_back (e : Event) (s : State) :
    (emitState e s).back = emitBack e s.back := rfl

@[simp] theorem raiseStatus_par (c : Cause) (s : State) :
    (raiseStatus c s).par = s.par := rfl
@[simp] theorem raiseStatus_cmdIn (c : Cause) (s : State) :
    (raiseStatus c s).cmdIn = s.cmdIn := rfl
@[simp] theorem raiseStatus_cmdPos (c : Cause) (s : State) :
    (raiseStatus c s).cmdPos = s.cmdPos := rfl
@[simp] theorem raiseStatus_cfg (c : Cause) (s : State) :
    (raiseStatus c s).cfg = s.cfg := rfl
@[simp] theorem raiseStatus_cor (c : Cause) (s : State) :
    (raiseStatus c s).cor = s.cor := rfl
@[simp] theorem raiseStatus_status (c : Cause) (s : State) :
    (raiseStatus c s).status = setCause s.status c := rfl
@[simp] theorem raiseStatus_cond (c : Cause) (s : State) :
    (raiseStatus c s).cond = s.cond := rfl
@[simp] theorem raiseStatus_demod (c : Cause) (s : State) :
    (raiseStatus c s).demod = s.demod := rfl
@[simp] theorem raiseStatus_back (c : Cause) (s : State) :
    (raiseStatus c s).back = s.back := rfl

@[simp] theorem clearPipeline_par  (s : State) :
    (clearPipeline s).par = s.par := rfl
@[simp] theorem clearPipeline_cmdIn  (s : State) :
    (clearPipeline s).cmdIn = s.cmdIn := rfl
@[simp] theorem clearPipeline_cmdPos  (s : State) :
    (clearPipeline s).cmdPos = s.cmdPos := rfl
@[simp] theorem clearPipeline_cfg  (s : State) :
    (clearPipeline s).cfg = s.cfg := rfl
@[simp] theorem clearPipeline_cor  (s : State) :
    (clearPipeline s).cor = s.cor := rfl
@[simp] theorem clearPipeline_status  (s : State) :
    (clearPipeline s).status = s.status := rfl
@[simp] theorem clearPipeline_cond  (s : State) :
    (clearPipeline s).cond = conditionerCleared s.par s.cfg := rfl
@[simp] theorem clearPipeline_demod  (s : State) :
    (clearPipeline s).demod = demodCleared s.par s.cfg := rfl
@[simp] theorem conditionerCleared_envRing_length (p : Params) (c : CfgRegs) :
    (conditionerCleared p c).envRing.length = c.agcWindow.toNat := by simp [conditionerCleared]
@[simp] theorem demodCleared_zhist_length (p : Params) (c : CfgRegs) :
    (demodCleared p c).zhist.length = c.sps.toNat := by simp [demodCleared]
@[simp] theorem clearPipeline_back  (s : State) :
    (clearPipeline s).back = { s.back with framer := framerCleared, pending := none, agg := aggCleared s.par } := rfl

@[simp] theorem clearCounters_par  (s : State) :
    (clearCounters s).par = s.par := rfl
@[simp] theorem clearCounters_cmdIn  (s : State) :
    (clearCounters s).cmdIn = s.cmdIn := rfl
@[simp] theorem clearCounters_cmdPos  (s : State) :
    (clearCounters s).cmdPos = s.cmdPos := rfl
@[simp] theorem clearCounters_cfg  (s : State) :
    (clearCounters s).cfg = s.cfg := rfl
@[simp] theorem clearCounters_cor  (s : State) :
    (clearCounters s).cor = s.cor := rfl
@[simp] theorem clearCounters_status  (s : State) :
    (clearCounters s).status = s.status := rfl
@[simp] theorem clearCounters_cond  (s : State) :
    (clearCounters s).cond = s.cond := rfl
@[simp] theorem clearCounters_demod  (s : State) :
    (clearCounters s).demod = s.demod := rfl
@[simp] theorem clearCounters_back  (s : State) :
    (clearCounters s).back = { s.back with cnt := countersCleared } := rfl

@[simp] theorem consumeWords_par (n : Nat) (s : State) :
    (consumeWords n s).par = s.par := rfl
@[simp] theorem consumeWords_cmdIn (n : Nat) (s : State) :
    (consumeWords n s).cmdIn = s.cmdIn.drop n := rfl
@[simp] theorem consumeWords_cmdPos (n : Nat) (s : State) :
    (consumeWords n s).cmdPos = s.cmdPos + n := rfl
@[simp] theorem consumeWords_cfg (n : Nat) (s : State) :
    (consumeWords n s).cfg = s.cfg := rfl
@[simp] theorem consumeWords_cor (n : Nat) (s : State) :
    (consumeWords n s).cor = s.cor := rfl
@[simp] theorem consumeWords_status (n : Nat) (s : State) :
    (consumeWords n s).status = s.status := rfl
@[simp] theorem consumeWords_cond (n : Nat) (s : State) :
    (consumeWords n s).cond = s.cond := rfl
@[simp] theorem consumeWords_demod (n : Nat) (s : State) :
    (consumeWords n s).demod = s.demod := rfl
@[simp] theorem consumeWords_back (n : Nat) (s : State) :
    (consumeWords n s).back = s.back := rfl

@[simp] theorem startRun_par  (s : State) :
    (startRun s).par = s.par := rfl
@[simp] theorem startRun_cmdIn  (s : State) :
    (startRun s).cmdIn = s.cmdIn := rfl
@[simp] theorem startRun_cmdPos  (s : State) :
    (startRun s).cmdPos = s.cmdPos := rfl
@[simp] theorem startRun_cfg  (s : State) :
    (startRun s).cfg = s.cfg := rfl
@[simp] theorem startRun_cor  (s : State) :
    (startRun s).cor = s.cor := rfl
@[simp] theorem startRun_status  (s : State) :
    (startRun s).status = startStatus (checkConfig s.par s.cfg s.cor) s.status := rfl
@[simp] theorem startRun_cond  (s : State) :
    (startRun s).cond = conditionerCleared s.par s.cfg := rfl
@[simp] theorem startRun_demod  (s : State) :
    (startRun s).demod = demodCleared s.par s.cfg := rfl
@[simp] theorem startRun_back  (s : State) :
    (startRun s).back = { cnt := countersCleared, framer := framerCleared, pending := none, agg := aggCleared s.par, trace := s.back.trace } := rfl

@[simp] theorem env_par (s : State) : s.env.par = s.par := rfl
@[simp] theorem env_cfg (s : State) : s.env.cfg = s.cfg := rfl

/-! ## The cause bits of STATUS -/

@[simp] theorem setCause_run (t : Status) (c : Cause) : (setCause t c).run = t.run := by cases c <;> rfl
@[simp] theorem clearCauses_run (t : Status) (m : BitVec 4) : (clearCauses t m).run = t.run := rfl
@[simp] theorem setCause_cfgErrCode (t : Status) (c : Cause) : (setCause t c).cfgErrCode = t.cfgErrCode := by cases c <;> rfl
@[simp] theorem clearCauses_cfgErrCode (t : Status) (m : BitVec 4) : (clearCauses t m).cfgErrCode = t.cfgErrCode := rfl

/-! ## Consuming a command -/

@[simp] theorem consumeCommand_nil (s : State) (h : s.cmdIn = []) : consumeCommand s = s := by simp [consumeCommand, h]

theorem consumeCommand_cons (s : State) (w : Word) (ws : List Word) (h : s.cmdIn = w :: ws) :
    consumeCommand s = consumeWords (commandLength w) s := by simp [consumeCommand, h]

/-- Reading a CFG register after a write. -/
theorem cfgGet_cfgSet (c : CfgRegs) (r r' : CfgReg) (v : Word) :
    cfgGet (cfgSet c r v) r' = if r' = r then v else cfgGet c r' := by
  cases r <;> cases r' <;> rfl

/-- Reading a COR register after a write. -/
theorem corGet_corSet (c : CorRegs) (r r' : CorReg) (v : Word) :
    corGet (corSet c r v) r' = if r' = r then v else corGet c r' := by
  cases r <;> cases r' <;> rfl

end Sys2Proof.Machine
end

