-- ==== Sys2Proof/Laws/Aggregator.lean ====
section
/-! SUPPORT. What folding a message can do: the frame of every fold, and the tables' well-formedness. -/

namespace Sys2Proof.Machine

open Sys2Proof

/-! ## Frames -/

theorem FoldFrame.refl (b : Backend) : FoldFrame b b := ⟨rfl, rfl, rfl, [], by simp, by simp⟩

theorem FoldFrame.trans {a b c : Backend} (h : FoldFrame a b) (g : FoldFrame b c) : FoldFrame a c := by
  obtain ⟨es, h1, h2⟩ := h.trace
  obtain ⟨fs, g1, g2⟩ := g.trace
  refine ⟨g.framer.trans h.framer, g.pending.trans h.pending, ?_, es ++ fs, ?_, ?_⟩
  · have h3 := h.cnt; have g3 := g.cnt
    rw [h3] at g3; rw [g3]
  · rw [g1, h1, List.append_assoc]
  · intro e he
    rcases List.mem_append.mp he with h | h
    · exact h2 e h
    · exact g2 e h

/-- Writing the aggregator's own state is within the fold frame. -/
theorem FoldFrame.agg (b : Backend) (a : Agg) : FoldFrame b { b with agg := a } := ⟨rfl, rfl, rfl, [], by simp, by simp⟩

/-- So is a notification. -/
theorem FoldFrame.notify (b : Backend) (c : NCat) (n : Nat) (x y : Word) : FoldFrame b (notifyBack c n x y b) :=
  ⟨rfl, rfl, rfl, [notifyEvent c n x y], rfl, by simp [notifyEvent, Event.isNotify]⟩

theorem FoldFrame.openCall (b : Backend) (i : Nat) (c : Call) : FoldFrame b (openCall i c b) :=
  (FoldFrame.agg b _).trans (FoldFrame.notify _ _ _ _ _)

theorem FoldFrame.evictCall (b : Backend) (i : Nat) (c : Call) : FoldFrame b (evictCall i c b) :=
  ⟨rfl, rfl, rfl, [_], rfl, by simp [notifyEvent, Event.isNotify]⟩

theorem closeEvents_isNotify (p : Call → Bool) (i : Nat) (calls : List (Option Call)) :
    ∀ e ∈ closeEvents p i calls, e.isNotify = true := by
  induction calls generalizing i with
  | nil => simp [closeEvents]
  | cons c rest ih =>
    cases c with
    | none => simpa [closeEvents] using ih (i + 1)
    | some c =>
      simp only [closeEvents]
      split
      · simpa [notifyEvent, Event.isNotify] using ih (i + 1)
      · exact ih (i + 1)

theorem FoldFrame.closeCalls (b : Backend) (p : Call → Bool) : FoldFrame b (closeCalls p b) :=
  ⟨rfl, rfl, rfl, _, rfl, closeEvents_isNotify p 0 _⟩

theorem foldBroadcast_frame (c : NCat) (m : Msg) (o : Option Broadcast) (b : Backend) :
    FoldFrame b (foldBroadcast c m o b) := by
  simp only [foldBroadcast]
  split
  · split
    · exact FoldFrame.refl b
    · exact FoldFrame.notify ..
  · split
    · exact FoldFrame.refl b
    · exact FoldFrame.notify ..

theorem regrant_frame (i : Nat) (old new : Call) (b : Backend) : FoldFrame b (regrant i old new b) := by
  unfold regrant
  split
  · split
    · exact (FoldFrame.agg b _).trans (FoldFrame.notify ..)
    · exact FoldFrame.agg b _
  · exact (FoldFrame.notify ..).trans (FoldFrame.openCall ..)

theorem grantNew_frame (c : Call) (b : Backend) : FoldFrame b (grantNew c b) := by
  unfold grantNew
  split
  · exact FoldFrame.openCall ..
  · split
    · exact (FoldFrame.evictCall ..).trans (FoldFrame.openCall ..)
    · exact FoldFrame.refl b

theorem foldGrantCall_frame (c : Call) (b : Backend) : FoldFrame b (foldGrantCall c b) := by
  unfold foldGrantCall
  split
  · exact regrant_frame ..
  · exact grantNew_frame ..

theorem foldGrant_frame (m : Msg) (b : Backend) : FoldFrame b (foldGrant m b) := by
  unfold foldGrant
  split
  · exact foldGrantCall_frame ..
  · exact FoldFrame.refl b

theorem foldNeighborEntry_frame (p : Params) (e : Neighbor) (b : Backend) : FoldFrame b (foldNeighborEntry p e b) := by
  unfold foldNeighborEntry
  split
  · split
    · exact FoldFrame.agg b _
    · exact (FoldFrame.agg b _).trans (FoldFrame.notify ..)
  · split
    · exact (FoldFrame.agg b _).trans (FoldFrame.notify ..)
    · exact ⟨rfl, rfl, rfl, [], by simp, by simp⟩

theorem foldNeighbor_frame (p : Params) (m : Msg) (b : Backend) : FoldFrame b (foldNeighbor p m b) := by
  unfold foldNeighbor
  split
  · exact foldNeighborEntry_frame ..
  · exact FoldFrame.refl b

theorem foldSccPair_frame (p : Params) (x : BitVec 16 × BitVec 8) (b : Backend) : FoldFrame b (foldSccPair p x b) := by
  unfold foldSccPair
  split
  · exact FoldFrame.refl b
  · split
    · exact ⟨rfl, rfl, rfl, [], by simp, by simp⟩
    · exact (FoldFrame.agg b _).trans (FoldFrame.notify ..)

theorem foldSccRoles_frame (p : Params) (m : Msg) (r q : Role) (b : Backend) : FoldFrame b (foldSccRoles p m r q b) := by
  unfold foldSccRoles
  split
  · exact foldSccPair_frame ..
  · exact FoldFrame.refl b

/-- Everything folding a message can do outside the aggregator. -/
theorem foldMsg_frame (p : Params) (m : Msg) (cat : Category) (b : Backend) : FoldFrame b (foldMsg p m cat b) := by
  cases cat
  · exact FoldFrame.refl b
  · exact (FoldFrame.agg b _).trans (foldBroadcast_frame ..)
  · exact (FoldFrame.agg b _).trans (foldBroadcast_frame ..)
  · exact foldNeighbor_frame ..
  · exact (foldSccRoles_frame ..).trans (foldSccRoles_frame ..)
  · exact foldGrant_frame ..
  · exact FoldFrame.closeCalls ..
  · exact FoldFrame.closeCalls ..

/-! ## Look-ups -/

/-- `findCall` finds the first open slot on the channel. -/
theorem findCall_some {ch : BitVec 28} : ∀ {calls : List (Option Call)} {x : Nat × Call},
    findCall ch calls = some x →
      calls[x.1]? = some (some x.2) ∧ x.2.channel = ch
        ∧ ∀ (j : Nat) (c : Call), j < x.1 → calls[j]? = some (some c) → c.channel ≠ ch
  | [], x, h => by simp [findCall] at h
  | none :: rest, x, h => by
    simp only [findCall, Option.map_eq_some_iff] at h
    obtain ⟨y, hy, rfl⟩ := h
    obtain ⟨h1, h2, h3⟩ := findCall_some hy
    refine ⟨by simpa using h1, h2, ?_⟩
    intro j c hj hc
    cases j with
    | zero => simp at hc
    | succ j => exact h3 j c (by simpa using hj) (by simpa using hc)
  | some d :: rest, x, h => by
    simp only [findCall] at h
    split at h
    · next hd => simp only [Option.some.injEq] at h; subst h; simpa using hd
    · next hd =>
      simp only [Option.map_eq_some_iff] at h
      obtain ⟨y, hy, rfl⟩ := h
      obtain ⟨h1, h2, h3⟩ := findCall_some hy
      refine ⟨by simpa using h1, h2, ?_⟩
      intro j c hj hc
      cases j with
      | zero => simp only [List.getElem?_cons_zero, Option.some.injEq] at hc; subst hc; simpa using hd
      | succ j => exact h3 j c (by simpa using hj) (by simpa using hc)

/-- `findCall` answers none when no open slot has the channel. -/
theorem findCall_none {ch : BitVec 28} : ∀ {calls : List (Option Call)},
    findCall ch calls = none ↔ ∀ (j : Nat) (c : Call), calls[j]? = some (some c) → c.channel ≠ ch
  | [] => by simp [findCall]
  | none :: rest => by
    simp only [findCall, Option.map_eq_none_iff, findCall_none (calls := rest)]
    constructor
    · intro h j c hc
      cases j with
      | zero => simp at hc
      | succ j => exact h j c (by simpa using hc)
    · intro h j c hc; exact h (j + 1) c (by simpa using hc)
  | some d :: rest => by
    simp only [findCall]
    split
    · next hd =>
      simp only [reduceCtorEq, false_iff, not_forall]
      exact ⟨0, d, by simp, by simpa using hd⟩
    · next hd =>
      simp only [Option.map_eq_none_iff, findCall_none (calls := rest)]
      constructor
      · intro h j c hc
        cases j with
        | zero => simp only [List.getElem?_cons_zero, Option.some.injEq] at hc; subst hc; simpa using hd
        | succ j => exact h j c (by simpa using hc)
      · intro h j c hc; exact h (j + 1) c (by simpa using hc)

/-- `oldestCall` finds the open slot with the smallest last_ts, the lowest among equals. -/
theorem oldestCall_some : ∀ {calls : List (Option Call)} {x : Nat × Call}, oldestCall calls = some x →
    calls[x.1]? = some (some x.2)
      ∧ ∀ (j : Nat) (c : Call), calls[j]? = some (some c) →
          x.2.lastTs.toNat ≤ c.lastTs.toNat ∧ (j < x.1 → x.2.lastTs.toNat < c.lastTs.toNat)
  | [], x, h => by simp [oldestCall] at h
  | none :: rest, x, h => by
    simp only [oldestCall, Option.map_eq_some_iff] at h
    obtain ⟨y, hy, rfl⟩ := h
    obtain ⟨h1, h2⟩ := oldestCall_some hy
    refine ⟨by simpa using h1, ?_⟩
    intro j c hc
    cases j with
    | zero => simp at hc
    | succ j => obtain ⟨h3, h4⟩ := h2 j c (by simpa using hc); exact ⟨h3, fun h => h4 (by simpa using h)⟩
  | some d :: rest, x, h => by
    simp only [oldestCall] at h
    split at h
    · next hn =>
      simp only [Option.some.injEq] at h; subst h
      refine ⟨by simp, ?_⟩
      intro j c hc
      cases j with
      | zero => simp only [List.getElem?_cons_zero, Option.some.injEq] at hc; subst hc; simp
      | succ j => exact absurd (by simpa using hc) (oldestCall_none_elim hn j c)
    · next y hy =>
      obtain ⟨h1, h2⟩ := oldestCall_some hy
      split at h
      · next hle =>
        simp only [Option.some.injEq] at h; subst h
        refine ⟨by simp, ?_⟩
        intro j c hc
        cases j with
        | zero => simp only [List.getElem?_cons_zero, Option.some.injEq] at hc; subst hc; simp
        | succ j => have := (h2 j c (by simpa using hc)).1; simp; omega
      · next hle =>
        simp only [Option.some.injEq] at h; subst h
        refine ⟨by simpa using h1, ?_⟩
        intro j c hc
        cases j with
        | zero => simp only [List.getElem?_cons_zero, Option.some.injEq] at hc; subst hc; simp; omega
        | succ j => obtain ⟨h3, h4⟩ := h2 j c (by simpa using hc); exact ⟨h3, fun h => h4 (by simpa using h)⟩
where
  oldestCall_none_elim : ∀ {calls : List (Option Call)}, oldestCall calls = none →
      ∀ (j : Nat) (c : Call), calls[j]? ≠ some (some c)
    | [], _, j, c => by simp
    | none :: rest, h, j, c => by
      simp only [oldestCall, Option.map_eq_none_iff] at h
      cases j with
      | zero => simp
      | succ j => simpa using oldestCall_none_elim h j c
    | some d :: rest, h, j, c => by
      simp only [oldestCall] at h
      split at h
      · simp at h
      · split at h <;> simp at h

/-- `freeSlot` finds the lowest closed slot. -/
theorem freeSlot_some {calls : List (Option Call)} {i : Nat} (h : freeSlot calls = some i) :
    calls[i]? = some none ∧ ∀ j, j < i → ∃ c, calls[j]? = some (some c) := by
  unfold freeSlot at h
  rw [List.findIdx?_eq_some_iff_getElem] at h
  obtain ⟨hi, h1, h2⟩ := h
  refine ⟨by rw [List.getElem?_eq_getElem hi]; simpa using h1, ?_⟩
  intro j hj
  have := h2 j hj
  rw [List.getElem?_eq_getElem (by omega)]
  cases hc : calls[j] with
  | none => simp [hc] at this
  | some c => exact ⟨c, rfl⟩

/-- `freeSlot` answers none when every slot is open. -/
theorem freeSlot_none {calls : List (Option Call)} (h : freeSlot calls = none) (c : Option Call) (hc : c ∈ calls) :
    c ≠ none := by
  unfold freeSlot at h
  rw [List.findIdx?_eq_none_iff] at h
  have := h c hc
  cases c <;> simp_all

/-! ## Timeouts and closing -/

/-- The 64-bit call timeout from its two registers. -/
theorem callTimeout_eq (c : CfgRegs) : callTimeout c = c.callTimeoutHi.toNat * 2 ^ 32 + c.callTimeoutLo.toNat := by
  unfold callTimeout
  rw [BitVec.toNat_append, ← Nat.shiftLeft_add_eq_or_of_lt c.callTimeoutLo.isLt, Nat.shiftLeft_eq]

/-- The 64-bit PDU timeout from its two registers. -/
theorem pduTimeout_eq (c : CfgRegs) : pduTimeout c = c.pduTimeoutHi.toNat * 2 ^ 32 + c.pduTimeoutLo.toNat := by
  unfold pduTimeout
  rw [BitVec.toNat_append, ← Nat.shiftLeft_add_eq_or_of_lt c.pduTimeoutLo.isLt, Nat.shiftLeft_eq]

/-- The closing events by slot index. -/
theorem closeEvents_eq (q : Call → Bool) (calls : List (Option Call)) (i : Nat) :
    closeEvents q i calls = (List.range calls.length).filterMap fun k =>
      match calls[k]? with
      | some (some c) =>
        if q c then some (.notify (notifyN0 .callClose (i + k)) (idWord c.target) (idWord c.channel)) else none
      | _ => none := by
  induction calls generalizing i with
  | nil => rfl
  | cons c l ih =>
    have e : ∀ k, i + 1 + k = i + (k + 1) := by intro k; omega
    rw [List.length_cons, List.range_succ_eq_map, List.filterMap_cons, List.filterMap_map]
    cases c with
    | none => simp only [closeEvents, ih]; simp [e]
    | some c =>
      simp only [closeEvents, ih]
      cases hq : q c <;> simp [hq, e, notifyEvent]

theorem closeEvents_closingNotes (q : Call → Bool) (calls : List (Option Call)) :
    closeEvents q 0 calls = closingNotes q calls := by
  rw [closeEvents_eq]
  simp only [Nat.zero_add]
  rfl

end Sys2Proof.Machine
end

