-- ==== Sys2Proof/Laws/Decode.lean ====
section
/-! SUPPORT. Laws of the decoder and the encoder: the fields of a command word, payload shapes, and when a word is legal. -/

namespace Sys2Proof

/-- Bit i of a command word. -/
theorem commandWord_getLsbD (op : BitVec 8) (arg : BitVec 16) (i : Nat) :
    (commandWord op arg).getLsbD i = if i < 16 then arg.getLsbD i else if i < 24 then false else op.getLsbD (i - 24) := by
  unfold commandWord
  rw [BitVec.getLsbD_append, BitVec.getLsbD_append]
  split
  · rfl
  · split
    · rw [if_pos (by omega)]; simp
    · rw [if_neg (by omega)]; congr 1

@[simp] theorem opcodeOf_commandWord (op : BitVec 8) (arg : BitVec 16) : opcodeOf (commandWord op arg) = op := by
  apply BitVec.eq_of_getLsbD_eq
  intro i hi
  simp only [opcodeOf, BitVec.getLsbD_extractLsb', commandWord_getLsbD]
  rw [if_neg (by omega), if_neg (by omega), show 24 + i - 24 = i by omega]; simp [hi]

@[simp] theorem rsvOf_commandWord (op : BitVec 8) (arg : BitVec 16) : rsvOf (commandWord op arg) = 0 := by
  apply BitVec.eq_of_getLsbD_eq
  intro i hi
  simp only [rsvOf, BitVec.getLsbD_extractLsb', commandWord_getLsbD]
  rw [if_neg (by omega), if_pos (by omega)]; simp

@[simp] theorem argOf_commandWord (op : BitVec 8) (arg : BitVec 16) : argOf (commandWord op arg) = arg := by
  apply BitVec.eq_of_getLsbD_eq
  intro i hi
  simp only [argOf, BitVec.getLsbD_extractLsb', commandWord_getLsbD]
  rw [if_pos (by omega)]; simp [hi]

/-- A word with RSV = 0 is its own opcode and operand. -/
theorem commandWord_of_rsv {w : Word} (h : rsvOf w = 0) : commandWord (opcodeOf w) (argOf w) = w := by
  apply BitVec.eq_of_getLsbD_eq
  intro i hi
  rw [commandWord_getLsbD]
  split
  · simp [argOf, *]
  · split
    · have h1 := congrArg (fun v => v.getLsbD (i - 16)) h
      simp only [rsvOf, BitVec.getLsbD_extractLsb', show 16 + (i - 16) = i by omega] at h1
      simpa [show i - 16 < 8 by omega] using h1.symm
    · simp [opcodeOf, show i - 24 < 8 by omega, show 24 + (i - 24) = i by omega]

@[simp] theorem flattenSamples_length (xs : List (Word × Word)) : (flattenSamples xs).length = 2 * xs.length := by
  induction xs with
  | nil => rfl
  | cons x xs ih => simp [flattenSamples, ih]; omega

@[simp] theorem pairSamples_flattenSamples (xs : List (Word × Word)) : pairSamples (flattenSamples xs) = xs := by
  induction xs with
  | nil => rfl
  | cons x xs ih => simp [flattenSamples, pairSamples, ih]

/-- Pairing an even number of words loses nothing. -/
theorem flattenSamples_pairSamples : ∀ (n : Nat) (ws : List Word), ws.length = 2 * n →
    flattenSamples (pairSamples ws) = ws ∧ (pairSamples ws).length = n
  | 0, ws, h => by
    have : ws = [] := List.length_eq_zero_iff.mp (by omega)
    subst this; exact ⟨rfl, rfl⟩
  | n + 1, [], h => by simp at h
  | n + 1, [_], h => by simp at h; omega
  | n + 1, a :: b :: ws, h => by
    obtain ⟨h1, h2⟩ := flattenSamples_pairSamples n ws (by simp at h; omega)
    simp [pairSamples, flattenSamples, h1, h2]

@[simp] theorem wordsOfTime_length (t : BitVec 64) : (wordsOfTime t).length = 2 := rfl

@[simp] theorem timeOfWords_extract (t : BitVec 64) :
    timeOfWords (t.extractLsb' 0 32) (t.extractLsb' 32 32) = t := by
  apply BitVec.eq_of_getLsbD_eq
  intro i hi
  unfold timeOfWords
  rw [BitVec.getLsbD_append]
  split
  · simp [*]
  · simp [show i - 32 < 32 by omega, show 32 + (i - 32) = i by omega]

@[simp] theorem wordsOfTime_timeOfWords (lo hi : Word) : wordsOfTime (timeOfWords lo hi) = [lo, hi] := by
  have h1 : (timeOfWords lo hi).extractLsb' 0 32 = lo := by
    ext i hi'; simp only [timeOfWords, BitVec.getElem_extractLsb', BitVec.getLsbD_append]
    simp [show i < 32 by omega, BitVec.getLsbD_eq_getElem]
  have h2 : (timeOfWords lo hi).extractLsb' 32 32 = hi := by
    ext i hi'; simp only [timeOfWords, BitVec.getElem_extractLsb', BitVec.getLsbD_append]
    simp [BitVec.getLsbD_eq_getElem, hi']
  simp [wordsOfTime, h1, h2]

/-- What a decoded instruction says about the words it came from. -/
theorem decode_ok {ws : List Word} {i : Instr} {rest : List Word} (h : decode ws = .ok (i, rest)) :
    ∃ w tail, ws = w :: tail ∧ illegalWord w = false ∧ payloadWords w ≤ tail.length
      ∧ assemble w (tail.take (payloadWords w)) = some i ∧ rest = tail.drop (payloadWords w) := by
  match ws with
  | [] => simp [decode] at h
  | w :: tail =>
    refine ⟨w, tail, rfl, ?_⟩
    simp only [decode] at h
    split at h
    · simp at h
    · split at h
      · simp at h
      · split at h
        · simp only [Except.ok.injEq, Prod.mk.injEq] at h
          simp_all
        · simp at h

/-- A legal word always assembles. -/
theorem assemble_isSome {w : Word} (h : illegalWord w = false) (payload : List Word) : (assemble w payload).isSome := by
  simp only [illegalWord, Bool.or_eq_false_iff, decide_eq_false_iff_not] at h
  have h1 : (opcodeOf w).toNat < 11 := by omega
  unfold assemble
  generalize (opcodeOf w).toNat = n at h1
  have : n = 0 ∨ n = 1 ∨ n = 2 ∨ n = 3 ∨ n = 4 ∨ n = 5 ∨ n = 6 ∨ n = 7 ∨ n = 8 ∨ n = 9 ∨ n = 10 := by omega
  rcases this with h | h | h | h | h | h | h | h | h | h | h <;> subst h <;> rfl

end Sys2Proof
end

