-- ==== Sys2Proof/Laws/Float.lean ====
section
/-! SUPPORT. Laws of binary32: the order of the patterns, when a result is no NaN, and the bounds of CLAMP and SAT. -/

namespace Sys2Proof.Machine

open Sys2Proof

theorem mag_lt (w : Word) : mag w < 2 ^ 31 := Nat.mod_lt _ (by norm_num)

theorem isNaN_eq_false {w : Word} : isNaN w = false ↔ mag w ≤ infMag := by simp [isNaN]

theorem isNaN_of_isFinite {w : Word} (h : isFinite w = true) : isNaN w = false := by
  simp [isFinite, isNaN] at *; omega

/-! ## Packing -/

theorem roundMag_le (n d : Nat) : roundMag n d ≤ infMag := by unfold roundMag; exact Nat.min_le_right _ _

theorem packF_toNat (neg : Bool) {m : Nat} (h : m < 2 ^ 31) :
    (packF neg m).toNat = (if neg then 2 ^ 31 else 0) + m := by
  have h' : m < 2147483648 := by simpa using h
  simp only [packF, BitVec.toNat_ofNat]
  apply Nat.mod_eq_of_lt
  cases neg <;> simp <;> omega

@[simp] theorem mag_packF (neg : Bool) {m : Nat} (h : m < 2 ^ 31) : mag (packF neg m) = m := by
  unfold mag
  rw [packF_toNat neg h]
  have h' : m < 2147483648 := by simpa using h
  cases neg <;> simp <;> omega

theorem isNaN_packF (neg : Bool) {m : Nat} (h : m ≤ infMag) : isNaN (packF neg m) = false := by
  rw [isNaN_eq_false, mag_packF]
  · exact h
  · exact lt_of_le_of_lt h (by unfold infMag; norm_num)

theorem signBit_packF (neg : Bool) {m : Nat} (h : m < 2 ^ 31) : signBit (packF neg m) = neg := by
  have h' : m < 2147483648 := by simpa using h
  rw [signBit, BitVec.msb_eq_decide, packF_toNat neg h]
  cases neg <;> simp; omega

/-! ## Signs -/

theorem mag_fneg (w : Word) : mag (fneg w) = mag w := by
  unfold mag fneg
  have : ∀ i, i < 31 → (w ^^^ 0x80000000#32).getLsbD i = w.getLsbD i := by
    intro i hi
    simp only [BitVec.getLsbD_xor]
    have : (0x80000000#32).getLsbD i = false := by interval_cases i <;> rfl
    simp [this]
  have h2 : (w ^^^ 0x80000000#32).setWidth 31 = w.setWidth 31 := by
    apply BitVec.eq_of_getLsbD_eq
    intro i hi
    simp only [BitVec.getLsbD_setWidth, this i hi]
  have h3 := congrArg BitVec.toNat h2
  rw [BitVec.toNat_setWidth, BitVec.toNat_setWidth] at h3
  exact h3

theorem signBit_fneg (w : Word) : signBit (fneg w) = !signBit w := by
  have : (0x80000000#32).msb = true := rfl
  simp only [signBit, fneg, BitVec.msb_xor]
  rw [show (0x80000000 : Word).msb = true from this, Bool.xor_true]

theorem isNaN_fneg (w : Word) : isNaN (fneg w) = isNaN w := by simp [isNaN, mag_fneg]

theorem fkey_fneg (w : Word) : fkey (fneg w) = -fkey w := by
  unfold fkey
  rw [signBit_fneg, mag_fneg]
  cases signBit w <;> simp

/-! ## The order -/

theorem fle_iff {a b : Word} : fle a b = true ↔ isNaN a = false ∧ isNaN b = false ∧ fkey a ≤ fkey b := by
  simp [fle, and_assoc]

theorem flt_iff {a b : Word} : flt a b = true ↔ isNaN a = false ∧ isNaN b = false ∧ fkey a < fkey b := by
  simp [flt, and_assoc]

theorem flt_eq_false {a b : Word} (ha : isNaN a = false) (hb : isNaN b = false) :
    flt a b = false ↔ fkey b ≤ fkey a := by
  simp [flt, ha, hb]

theorem fle_trans {a b c : Word} (h : fle a b = true) (g : fle b c = true) : fle a c = true := by
  rw [fle_iff] at *; exact ⟨h.1, g.2.1, h.2.2.trans g.2.2⟩

theorem fle_of_flt {a b : Word} (h : flt a b = true) : fle a b = true := by
  rw [flt_iff] at h; rw [fle_iff]; exact ⟨h.1, h.2.1, h.2.2.le⟩

@[simp] theorem isNaN_zero : isNaN 0#32 = false := by decide
@[simp] theorem fkey_zero : fkey 0#32 = 0 := by decide

theorem isNaN_sane (v : Word) : isNaN (sane v) = false := by
  unfold sane; split
  · decide
  · simp_all

/-- CLAMP of a value that is not a NaN lies between ordered bounds. -/
theorem clampF_within {v lo hi : Word} (hv : isNaN v = false) (h : fle lo hi = true) :
    fle lo (clampF v lo hi) = true ∧ fle (clampF v lo hi) hi = true := by
  obtain ⟨h1, h2, h3⟩ := fle_iff.mp h
  unfold clampF
  split
  · exact ⟨fle_iff.mpr ⟨h1, h1, le_refl _⟩, h⟩
  · next g1 =>
    split
    · exact ⟨h, fle_iff.mpr ⟨h2, h2, le_refl _⟩⟩
    · next g2 =>
      rw [Bool.not_eq_true, flt_eq_false hv h1] at g1
      rw [Bool.not_eq_true, flt_eq_false h2 hv] at g2
      exact ⟨fle_iff.mpr ⟨h1, hv, g1⟩, fle_iff.mpr ⟨hv, h2, g2⟩⟩

/-! ## Results that are no NaN -/

theorem isNaN_fmul_finite {a b : Word} (ha : isFinite a = true) (hb : isFinite b = true) :
    isNaN (fmul a b) = false := by
  have h1 := isNaN_of_isFinite ha
  have h2 := isNaN_of_isFinite hb
  have h3 : isInf a = false := by simp [isInf, isFinite] at *; omega
  have h4 : isInf b = false := by simp [isInf, isFinite] at *; omega
  simp only [fmul, h1, h2, h3, h4, Bool.or_self, Bool.false_eq_true, if_false]
  exact isNaN_packF _ (roundMag_le _ _)

theorem isNaN_fadd_finite {a b : Word} (ha : isFinite a = true) (hb : isFinite b = true) :
    isNaN (fadd a b) = false := by
  have h1 := isNaN_of_isFinite ha
  have h2 := isNaN_of_isFinite hb
  have h3 : isInf a = false := by simp [isInf, isFinite] at *; omega
  have h4 : isInf b = false := by simp [isInf, isFinite] at *; omega
  simp only [fadd, h1, h2, h3, h4, Bool.or_self, Bool.false_eq_true, if_false]
  split
  · exact isNaN_packF _ (Nat.zero_le _)
  · exact isNaN_packF _ (roundMag_le _ _)

/-- A product is a NaN only for a NaN operand or zero times infinity. -/
theorem isNaN_fmul {a b : Word} (ha : isNaN a = false) (hb : isNaN b = false)
    (h1 : isZero a = true → isInf b = false) (h2 : isZero b = true → isInf a = false) : isNaN (fmul a b) = false := by
  simp only [fmul, ha, hb, Bool.or_self, Bool.false_eq_true, if_false]
  split
  · next h =>
    have : (isZero a || isZero b) = false := by
      rcases Bool.or_eq_true _ _ ▸ h with h | h
      · cases hza : isZero a
        · cases hzb : isZero b
          · rfl
          · rw [h2 hzb] at h; simp at h
        · simp [isZero, isInf, infMag] at hza h; omega
      · cases hzb : isZero b
        · cases hza : isZero a
          · rfl
          · rw [h1 hza] at h; simp at h
        · simp [isZero, isInf, infMag] at hzb h; omega
    rw [this]
    exact isNaN_packF _ (le_refl _)
  · exact isNaN_packF _ (roundMag_le _ _)

end Sys2Proof.Machine
end

