-- ==== Sys2Proof/Laws/Parser.lean ====
section
/-! SUPPORT. What the parser can do: the frame of an emission and of every parse operation. -/

namespace Sys2Proof.Machine

open Sys2Proof

theorem StageFrame.refl (b : Backend) : StageFrame b b := ⟨rfl, rfl, rfl, [], by simp, by simp⟩

theorem StageFrame.trans {a b c : Backend} (h : StageFrame a b) (g : StageFrame b c) : StageFrame a c := by
  obtain ⟨es, h1, h2⟩ := h.trace
  obtain ⟨fs, g1, g2⟩ := g.trace
  refine ⟨g.sampleCount.trans h.sampleCount, g.feedback.trans h.feedback, g.symbolCount.trans h.symbolCount,
    es ++ fs, by rw [g1, h1, List.append_assoc], ?_⟩
  intro e he
  rcases List.mem_append.mp he with h | h
  · exact h2 e h
  · exact g2 e h

/-- A change that leaves the trace and the three counts alone. -/
theorem StageFrame.silent {b b' : Backend} (h1 : b'.cnt.sampleCount = b.cnt.sampleCount)
    (h2 : b'.cnt.feedback = b.cnt.feedback) (h3 : b'.cnt.symbolCount = b.cnt.symbolCount) (h4 : b'.trace = b.trace) :
    StageFrame b b' := ⟨h1, h2, h3, [], by simp [h4], by simp⟩

theorem isRecord_of_isNotify {e : Event} (h : e.isNotify = true) : e.isRecord = true := by
  cases e <;> first | rfl | exact h

theorem FoldFrame.stage {b b' : Backend} (h : FoldFrame b b') : StageFrame b b' := by
  obtain ⟨es, h1, h2⟩ := h.trace
  exact ⟨by rw [h.cnt], by rw [h.cnt], by rw [h.cnt], es, h1, fun e he => isRecord_of_isNotify (h2 e he)⟩

/-- The backend just before the fold of an emission: the record counted and on the trace. -/
def recorded (m : Msg) (b : Backend) : Backend :=
  emitBack (.message (msgWords m))
    { b with cnt := { b.cnt with
      msgCount := b.cnt.msgCount + 1, msgInvalid := if msgValid m then b.cnt.msgInvalid else b.cnt.msgInvalid + 1 } }

/-- Everything an emission can do: count and record the message, then fold it when it is valid. -/
theorem emitMessage_eq (p : Params) (m : Msg) (cat : Category) (b : Backend) :
    emitMessage p m cat b = if msgValid m then foldMsg p m cat (recorded m b) else recorded m b := by
  unfold emitMessage recorded
  cases h : msgValid m <;> simp

@[simp] theorem recorded_framer (m : Msg) (b : Backend) : (recorded m b).framer = b.framer := rfl
@[simp] theorem recorded_pending (m : Msg) (b : Backend) : (recorded m b).pending = b.pending := rfl
@[simp] theorem recorded_agg (m : Msg) (b : Backend) : (recorded m b).agg = b.agg := rfl
@[simp] theorem recorded_trace (m : Msg) (b : Backend) :
    (recorded m b).trace = b.trace ++ [.message (msgWords m)] := rfl
@[simp] theorem recorded_cnt (m : Msg) (b : Backend) : (recorded m b).cnt = { b.cnt with
    msgCount := b.cnt.msgCount + 1, msgInvalid := if msgValid m then b.cnt.msgInvalid else b.cnt.msgInvalid + 1 } := rfl

/-- A message without a category folds to nothing. -/
theorem emitMessage_none (p : Params) (m : Msg) (b : Backend) : emitMessage p m .none b = recorded m b := by
  rw [emitMessage_eq]; split <;> rfl

theorem recorded_stage (m : Msg) (b : Backend) : StageFrame b (recorded m b) :=
  ⟨rfl, rfl, rfl, [_], rfl, by simp [Event.isRecord]⟩

@[simp] theorem emitMessage_framer (p : Params) (m : Msg) (cat : Category) (b : Backend) :
    (emitMessage p m cat b).framer = b.framer := by
  rw [emitMessage_eq]; split
  · rw [(foldMsg_frame ..).framer]; rfl
  · rfl

@[simp] theorem emitMessage_pending (p : Params) (m : Msg) (cat : Category) (b : Backend) :
    (emitMessage p m cat b).pending = b.pending := by
  rw [emitMessage_eq]; split
  · rw [(foldMsg_frame ..).pending]; rfl
  · rfl

@[simp] theorem emitMessage_orphanBlock (p : Params) (m : Msg) (cat : Category) (b : Backend) :
    (emitMessage p m cat b).cnt.orphanBlock = b.cnt.orphanBlock := by
  rw [emitMessage_eq]; split
  · rw [(foldMsg_frame ..).cnt]; rfl
  · rfl

theorem emitMessage_stage (p : Params) (m : Msg) (cat : Category) (b : Backend) :
    StageFrame b (emitMessage p m cat b) := by
  rw [emitMessage_eq]; split
  · exact (recorded_stage m b).trans (foldMsg_frame ..).stage
  · exact recorded_stage m b

/-! ## Sequences -/

@[simp] theorem completeSequence_framer (p : Params) (q : Pending) (b : Backend) :
    (completeSequence p q b).framer = b.framer := by simp [completeSequence]
@[simp] theorem completeSequence_pending (p : Params) (q : Pending) (b : Backend) :
    (completeSequence p q b).pending = none := rfl
@[simp] theorem completeSequence_orphanBlock (p : Params) (q : Pending) (b : Backend) :
    (completeSequence p q b).cnt.orphanBlock = b.cnt.orphanBlock := by simp [completeSequence]

theorem completeSequence_stage (p : Params) (q : Pending) (b : Backend) : StageFrame b (completeSequence p q b) :=
  (emitMessage_stage p (sequenceMsg q) .none b).trans (StageFrame.silent rfl rfl rfl rfl)

@[simp] theorem storePending_framer (p : Params) (q : Pending) (b : Backend) :
    (storePending p q b).framer = b.framer := by unfold storePending; split <;> simp
@[simp] theorem storePending_orphanBlock (p : Params) (q : Pending) (b : Backend) :
    (storePending p q b).cnt.orphanBlock = b.cnt.orphanBlock := by unfold storePending; split <;> simp

/-- What is pending after a store: nothing when the sequence is complete. -/
theorem storePending_pending (p : Params) (q : Pending) (b : Backend) :
    (storePending p q b).pending = if q.blocks.length = q.n then none else some q := by
  unfold storePending; split <;> simp

theorem storePending_stage (p : Params) (q : Pending) (b : Backend) : StageFrame b (storePending p q b) := by
  unfold storePending
  split
  · exact StageFrame.trans (by exact StageFrame.silent rfl rfl rfl rfl) (completeSequence_stage ..)
  · exact StageFrame.silent rfl rfl rfl rfl

@[simp] theorem abandonPending_framer (b : Backend) : (abandonPending b).framer = b.framer := by
  unfold abandonPending; split <;> rfl
@[simp] theorem abandonPending_orphanBlock (b : Backend) : (abandonPending b).cnt.orphanBlock = b.cnt.orphanBlock := by
  unfold abandonPending; split <;> rfl
theorem abandonPending_stage (b : Backend) : StageFrame b (abandonPending b) := by
  unfold abandonPending; split <;> exact StageFrame.silent rfl rfl rfl rfl

@[simp] theorem appendBlock_framer (p : Params) (m : Msg) (b : Backend) : (appendBlock p m b).framer = b.framer := by
  unfold appendBlock; split
  · split <;> simp
  · rfl

theorem appendBlock_stage (p : Params) (m : Msg) (b : Backend) : StageFrame b (appendBlock p m b) := by
  unfold appendBlock; split
  · split
    · exact storePending_stage ..
    · exact StageFrame.silent rfl rfl rfl rfl
  · exact StageFrame.silent rfl rfl rfl rfl

/-! ## Blocks -/

@[simp] theorem parseTsbk_framer (e : Env) (r : BlockResult) (j : Nat) (t : BitVec 4) (ts : BitVec 64) (b : Backend) :
    (parseTsbk e r j t ts b).framer = b.framer := by simp [parseTsbk]
@[simp] theorem parseTsbk_pending (e : Env) (r : BlockResult) (j : Nat) (t : BitVec 4) (ts : BitVec 64) (b : Backend) :
    (parseTsbk e r j t ts b).pending = b.pending := by simp [parseTsbk]
@[simp] theorem parseTsbk_orphanBlock (e : Env) (r : BlockResult) (j : Nat) (t : BitVec 4) (ts : BitVec 64)
    (b : Backend) : (parseTsbk e r j t ts b).cnt.orphanBlock = b.cnt.orphanBlock := by simp [parseTsbk]
@[simp] theorem parseHeader_framer (e : Env) (r : BlockResult) (t : BitVec 4) (ts : BitVec 64) (b : Backend) :
    (parseHeader e r t ts b).framer = b.framer := by unfold parseHeader; dsimp only; split <;> simp
@[simp] theorem parseHeader_orphanBlock (e : Env) (r : BlockResult) (t : BitVec 4) (ts : BitVec 64) (b : Backend) :
    (parseHeader e r t ts b).cnt.orphanBlock = b.cnt.orphanBlock := by unfold parseHeader; dsimp only; split <;> simp
@[simp] theorem parseDataBlock_framer (e : Env) (r : BlockResult) (j : Nat) (t : BitVec 4) (ts : BitVec 64)
    (b : Backend) : (parseDataBlock e r j t ts b).framer = b.framer := by simp [parseDataBlock]
@[simp] theorem parseBlock_framer (e : Env) (r : BlockResult) (j : Nat) (t : BitVec 4) (ts : BitVec 64) (b : Backend) :
    (parseBlock e r j t ts b).framer = b.framer := by
  unfold parseBlock; split
  · simp
  · split <;> simp
@[simp] theorem parseRaw_framer (e : Env) (bits : Bits) (t : BitVec 4) (ts : BitVec 64) (c : Category) (b : Backend) :
    (parseRaw e bits t ts c b).framer = b.framer := by simp [parseRaw]

/-- The pending sequence after a header: the one it opens when its check passes. -/
theorem parseHeader_pending (e : Env) (r : BlockResult) (t : BitVec 4) (ts : BitVec 64) (b : Backend) :
    (parseHeader e r t ts b).pending =
      if checkPass e.par.profile.checkHeader r.bits then
        (if 0 = field r.bits e.par.profile.hdrBtf.pos 7 then none
         else some { header := headerMsg e r t ts, blocks := [], n := field r.bits e.par.profile.hdrBtf.pos 7, ts := ts })
      else b.pending := by
  unfold parseHeader; dsimp only
  split
  · rw [storePending_pending]; rfl
  · simp

theorem parseTsbk_stage (e : Env) (r : BlockResult) (j : Nat) (t : BitVec 4) (ts : BitVec 64) (b : Backend) :
    StageFrame b (parseTsbk e r j t ts b) := emitMessage_stage ..

theorem parseHeader_stage (e : Env) (r : BlockResult) (t : BitVec 4) (ts : BitVec 64) (b : Backend) :
    StageFrame b (parseHeader e r t ts b) := by
  unfold parseHeader; dsimp only
  split
  · exact ((emitMessage_stage ..).trans (abandonPending_stage _)).trans (storePending_stage ..)
  · exact emitMessage_stage ..

theorem parseDataBlock_stage (e : Env) (r : BlockResult) (j : Nat) (t : BitVec 4) (ts : BitVec 64) (b : Backend) :
    StageFrame b (parseDataBlock e r j t ts b) := (emitMessage_stage ..).trans (appendBlock_stage ..)

theorem parseBlock_stage (e : Env) (r : BlockResult) (j : Nat) (t : BitVec 4) (ts : BitVec 64) (b : Backend) :
    StageFrame b (parseBlock e r j t ts b) := by
  unfold parseBlock; split
  · exact parseTsbk_stage ..
  · split
    · exact parseHeader_stage ..
    · exact parseDataBlock_stage ..

theorem parseRaw_stage (e : Env) (bits : Bits) (t : BitVec 4) (ts : BitVec 64) (c : Category) (b : Backend) :
    StageFrame b (parseRaw e bits t ts c b) := emitMessage_stage ..

end Sys2Proof.Machine
end

