-- ==== Sys2Proof/Laws/Framer.lean ====
section
/-! SUPPORT. What the framer can do: the stage frame of every operation, and the framer's own state after it. -/

namespace Sys2Proof.Machine

open Sys2Proof

@[simp] theorem countBlock_framer (r : BlockResult) (b : Backend) : (countBlock r b).framer = b.framer := by
  unfold countBlock; split <;> rfl
@[simp] theorem countBlock_pending (r : BlockResult) (b : Backend) : (countBlock r b).pending = b.pending := by
  unfold countBlock; split <;> rfl
@[simp] theorem countBlock_agg (r : BlockResult) (b : Backend) : (countBlock r b).agg = b.agg := by
  unfold countBlock; split <;> rfl
@[simp] theorem countBlock_trace (r : BlockResult) (b : Backend) : (countBlock r b).trace = b.trace := by
  unfold countBlock; split <;> rfl
@[simp] theorem countBlock_orphanBlock (r : BlockResult) (b : Backend) :
    (countBlock r b).cnt.orphanBlock = b.cnt.orphanBlock := by
  unfold countBlock; split <;> rfl

theorem countBlock_stage (r : BlockResult) (b : Backend) : StageFrame b (countBlock r b) := by
  unfold countBlock; split <;> exact StageFrame.silent rfl rfl rfl rfl

@[simp] theorem emitBlocks_framer (e : Env) (t : BitVec 4) (ts : BitVec 64) (rs : List BlockResult) :
    ∀ (j : Nat) (b : Backend), (emitBlocks e t ts j rs b).framer = b.framer := by
  induction rs with
  | nil => intros; rfl
  | cons r rs ih =>
    intro j b
    simp only [emitBlocks, ih]
    split <;> simp

theorem emitBlocks_stage (e : Env) (t : BitVec 4) (ts : BitVec 64) (rs : List BlockResult) :
    ∀ (j : Nat) (b : Backend), StageFrame b (emitBlocks e t ts j rs b) := by
  induction rs with
  | nil => intros; exact StageFrame.refl _
  | cons r rs ih =>
    intro j b
    simp only [emitBlocks]
    refine StageFrame.trans ?_ (ih _ _)
    split
    · exact countBlock_stage ..
    · exact (countBlock_stage ..).trans (parseBlock_stage ..)

@[simp] theorem emitPayload_framer (e : Env) (b : Backend) : (emitPayload e b).framer = b.framer := by
  unfold emitPayload; split <;> simp

theorem emitPayload_stage (e : Env) (b : Backend) : StageFrame b (emitPayload e b) := by
  unfold emitPayload; split
  · exact parseRaw_stage ..
  · exact emitBlocks_stage ..
  · exact emitBlocks_stage ..
  · exact emitBlocks_stage ..

/-- The framer after an emission: SEARCHING and cleared, whatever the frame was. -/
@[simp] theorem emitFrame_framer (e : Env) (b : Backend) : (emitFrame e b).framer = toSearching b.framer := by
  simp [emitFrame, toSearching]

theorem emitFrame_stage (e : Env) (b : Backend) : StageFrame b (emitFrame e b) :=
  StageFrame.trans (by exact StageFrame.silent rfl rfl rfl rfl)
    (StageFrame.trans (emitPayload_stage e { b with framer.fstate := .emit, cnt.frameCount := b.cnt.frameCount + 1 })
      (by exact StageFrame.silent rfl rfl rfl rfl))

/-- The framer after an emission or a resync, field by field. -/
theorem toSearching_eq (f : Framer) : toSearching f = searchingAgain f := rfl

theorem resync_stage (b : Backend) : StageFrame b (resync b) := StageFrame.silent rfl rfl rfl rfl

theorem searchStep_stage (e : Env) (d : Dibit) (n : BitVec 64) (b : Backend) : StageFrame b (searchStep e d n b) := by
  unfold searchStep; dsimp only; split <;> exact StageFrame.silent rfl rfl rfl rfl

theorem endOrContinue_stage (e : Env) (bl : Nat) (x : Bool) (b : Backend) : StageFrame b (endOrContinue e bl x b) := by
  unfold endOrContinue; split
  · exact emitFrame_stage ..
  · exact StageFrame.silent rfl rfl rfl rfl

theorem addBlock_stage (r : BlockResult) (b : Backend) : StageFrame b (addBlock r b) := StageFrame.silent rfl rfl rfl rfl

theorem progressTsbk_stage (e : Env) (bl mb ilv : Nat) (b : Backend) : StageFrame b (progressTsbk e bl mb ilv b) :=
  (addBlock_stage _ b).trans (endOrContinue_stage ..)

theorem progressHeader_stage (e : Env) (bl mb : Nat) (r : BlockResult) (b : Backend) :
    StageFrame b (progressHeader e bl mb r b) := by
  unfold progressHeader; dsimp only
  split
  · exact emitFrame_stage ..
  · split
    · exact resync_stage b
    · split
      · exact StageFrame.trans (by exact StageFrame.silent rfl rfl rfl rfl) (emitFrame_stage ..)
      · exact StageFrame.trans (by exact StageFrame.silent rfl rfl rfl rfl) (endOrContinue_stage ..)

theorem progressPdu_stage (e : Env) (bl mb ilv : Nat) (b : Backend) : StageFrame b (progressPdu e bl mb ilv b) := by
  unfold progressPdu; dsimp only
  split
  · exact (addBlock_stage _ b).trans (progressHeader_stage ..)
  · exact (addBlock_stage _ b).trans (endOrContinue_stage ..)

theorem progressPrefix_stage (e : Env) (b : Backend) : StageFrame b (progressPrefix e b) := by
  unfold progressPrefix; dsimp only
  split
  · exact StageFrame.trans (by exact StageFrame.silent rfl rfl rfl rfl) (resync_stage _)
  · split
    · exact StageFrame.trans (by exact StageFrame.silent rfl rfl rfl rfl) (emitFrame_stage ..)
    · exact StageFrame.silent rfl rfl rfl rfl
  · exact StageFrame.silent rfl rfl rfl rfl
  · exact StageFrame.silent rfl rfl rfl rfl

theorem progress_stage (e : Env) (b : Backend) : StageFrame b (progress e b) := by
  unfold progress
  split
  · exact progressPrefix_stage ..
  · split
    · exact resync_stage b
    · exact emitFrame_stage ..
    · exact progressTsbk_stage ..
    · exact progressPdu_stage ..

theorem frameStep_stage (e : Env) (d : Dibit) (b : Backend) : StageFrame b (frameStep e d b) := by
  unfold frameStep; dsimp only
  split
  · exact StageFrame.silent rfl rfl rfl rfl
  · split
    · exact StageFrame.trans (by exact StageFrame.silent rfl rfl rfl rfl) (progress_stage ..)
    · exact StageFrame.silent rfl rfl rfl rfl

/-- What one dibit can do outside the framer, the parser and the aggregator. -/
theorem framerStep_stage (e : Env) (d : Dibit) (n : BitVec 64) (b : Backend) : StageFrame b (framerStep e d n b) := by
  unfold framerStep
  split
  · exact searchStep_stage ..
  · exact frameStep_stage ..
  · exact StageFrame.refl b
  · exact StageFrame.refl b

end Sys2Proof.Machine
end

