-- ==== Sys2Proof/Laws/PerInstr.lean ====
section
/-! SUPPORT. The per-instruction family EncodeLength: what the first word of an encoding says about the rest. -/

namespace Sys2Proof.Laws

/-- The encoding of a well-formed command starts with a legal command word, and its length is the one that word
declares (R84). -/
def EncodeLength.Statement (i : Instr) : Prop :=
  i.WellFormed = true →
    ∃ w ps, encode i = w :: ps ∧ illegalWord w = false ∧ ps.length = payloadWords w ∧ assemble w ps = some i

theorem EncodeLength.nop : EncodeLength.Statement .nop :=
  fun _ => ⟨_, _, rfl, by decide, by decide, by decide⟩

theorem EncodeLength.cfgWrite (reg : BitVec 8) (value : Word) : EncodeLength.Statement (.cfgWrite reg value) := by
  have h : (0#8 ++ reg).extractLsb' 8 8 = 0#8 ∧ (0#8 ++ reg).extractLsb' 0 8 = reg := by
    revert reg; decide +kernel
  intro _
  refine ⟨_, _, rfl, ?_, ?_, ?_⟩
  · simp [illegalWord, argMustBeZero, h.1]
  · simp [payloadWords]
  · simp [assemble, h.2]

theorem EncodeLength.regRead (arg : BitVec 16) : EncodeLength.Statement (.regRead arg) := by
  intro _
  refine ⟨_, _, rfl, ?_, ?_, ?_⟩
  · simp [illegalWord, argMustBeZero]
  · simp [payloadWords]
  · simp [assemble]

theorem EncodeLength.start : EncodeLength.Statement .start :=
  fun _ => ⟨_, _, rfl, by decide, by decide, by decide⟩

theorem EncodeLength.stop : EncodeLength.Statement .stop :=
  fun _ => ⟨_, _, rfl, by decide, by decide, by decide⟩

theorem EncodeLength.pushReal (samples : List Word) : EncodeLength.Statement (.pushReal samples) := by
  intro h
  simp only [Instr.WellFormed, decide_eq_true_eq] at h
  refine ⟨_, _, rfl, ?_, ?_, ?_⟩
  · simp [illegalWord, argMustBeZero]
  · simp [payloadWords]; omega
  · simp [assemble]

theorem EncodeLength.pushComplex (samples : List (Word × Word)) : EncodeLength.Statement (.pushComplex samples) := by
  intro h
  simp only [Instr.WellFormed, decide_eq_true_eq] at h
  refine ⟨_, _, rfl, ?_, ?_, ?_⟩
  · simp [illegalWord, argMustBeZero]
  · simp [payloadWords]; omega
  · simp [assemble]

theorem EncodeLength.setCorrection (sel : BitVec 16) (value : Word) :
    EncodeLength.Statement (.setCorrection sel value) := by
  intro _
  refine ⟨_, _, rfl, ?_, ?_, ?_⟩
  · simp [illegalWord, argMustBeZero]
  · simp [payloadWords]
  · simp [assemble]

theorem EncodeLength.sweep (t : BitVec 64) : EncodeLength.Statement (.sweep t) := by
  intro _
  refine ⟨_, _, rfl, ?_, ?_, ?_⟩
  · simp [illegalWord, argMustBeZero]
  · simp [payloadWords]
  · simp [assemble, wordsOfTime]

theorem EncodeLength.summary (t : BitVec 64) : EncodeLength.Statement (.summary t) := by
  intro _
  refine ⟨_, _, rfl, ?_, ?_, ?_⟩
  · simp [illegalWord, argMustBeZero]
  · simp [payloadWords]
  · simp [assemble, wordsOfTime]

theorem EncodeLength.clearStatus (mask : BitVec 4) : EncodeLength.Statement (.clearStatus mask) := by
  have h : (0#12 ++ mask).extractLsb' 4 12 = 0#12 ∧ (0#12 ++ mask).extractLsb' 0 4 = mask := by
    revert mask; decide +kernel
  intro _
  refine ⟨_, _, rfl, ?_, ?_, ?_⟩
  · simp [illegalWord, argMustBeZero, h.1]
  · simp [payloadWords]
  · simp [assemble, h.2]

end Sys2Proof.Laws
end

