-- ==== Sys2Proof/Laws/Sample.lean ====
section
/-! SUPPORT. What one sample can do, and what a list of samples can do. -/

namespace Sys2Proof.Machine

open Sys2Proof

/-! ## One sample -/

@[simp] theorem sampleStep_par (s : State) (x : Sample) : (sampleStep s x).par = s.par := rfl
@[simp] theorem sampleStep_cmdIn (s : State) (x : Sample) : (sampleStep s x).cmdIn = s.cmdIn := rfl
@[simp] theorem sampleStep_cmdPos (s : State) (x : Sample) : (sampleStep s x).cmdPos = s.cmdPos := rfl
@[simp] theorem sampleStep_cfg (s : State) (x : Sample) : (sampleStep s x).cfg = s.cfg := rfl
@[simp] theorem sampleStep_cor (s : State) (x : Sample) : (sampleStep s x).cor = s.cor := rfl
@[simp] theorem sampleStep_status (s : State) (x : Sample) : (sampleStep s x).status = s.status := rfl
@[simp] theorem sampleStep_cond (s : State) (x : Sample) : (sampleStep s x).cond = (condition s.env s.cond x).2 := rfl
@[simp] theorem sampleStep_demod (s : State) (x : Sample) :
    (sampleStep s x).demod = (demodulate s.env s.demod (condition s.env s.cond x).1).demod := rfl
@[simp] theorem sampleStep_back (s : State) (x : Sample) :
    (sampleStep s x).back = countSample (strobeStep s.env s.cor (demodulate s.env s.demod (condition s.env s.cond x).1).soft
      s.back.cnt.sampleCount (sendFeedback (demodulate s.env s.demod (condition s.env s.cond x).1).feedback s.back)) := rfl

/-- Only the CQPSK path has a feedback value, and it has one for every sample. -/
theorem demodulate_feedback (e : Env) (m : Demod) (c : Conditioned) :
    (demodulate e m c).feedback =
      match c with
      | .real _ => none
      | .complex _ => if e.cfg.modulation = 1 then some (demodulate e m c).demod.freq else none := by
  cases c with
  | real y => rfl
  | complex c =>
    simp only [demodulate, beq_iff_eq]
    split <;> simp_all [costas, symbolPath]

/-- The events and counts of one strobe. -/
theorem strobeStep_spec (e : Env) (k : CorRegs) (soft : Word) (n : BitVec 64) (b : Backend) :
    (strobeStep e k soft n b).cnt.sampleCount = b.cnt.sampleCount
      ∧ (strobeStep e k soft n b).cnt.feedback = b.cnt.feedback
      ∧ (strobeStep e k soft n b).cnt.symbolCount = (if isStrobe e.cfg k n then b.cnt.symbolCount + 1 else b.cnt.symbolCount)
      ∧ ∃ es, (strobeStep e k soft n b).trace = b.trace ++ es ∧ ∀ x ∈ es, x.isRecord = true := by
  unfold strobeStep
  split
  · have h := framerStep_stage e (sliceSoft e.cfg k soft) n { b with cnt.symbolCount := b.cnt.symbolCount + 1 }
    exact ⟨h.sampleCount, h.feedback, by rw [h.symbolCount], h.trace⟩
  · exact ⟨rfl, rfl, rfl, [], by simp, by simp⟩

/-- The counts and the events of one sample: one FEEDBACK event first in CQPSK mode, then records (R72, R225). -/
theorem sampleStep_spec (s : State) (x : Sample) :
    let out := demodulate s.env s.demod (condition s.env s.cond x).1
    (sampleStep s x).back.cnt.sampleCount = s.back.cnt.sampleCount + 1
      ∧ (sampleStep s x).back.cnt.feedback = out.feedback.getD s.back.cnt.feedback
      ∧ (sampleStep s x).back.cnt.symbolCount =
          (if isStrobe s.cfg s.cor s.back.cnt.sampleCount then s.back.cnt.symbolCount + 1 else s.back.cnt.symbolCount)
      ∧ ∃ es, (sampleStep s x).back.trace = s.back.trace ++ out.feedback.toList.map Event.feedback ++ es
          ∧ ∀ y ∈ es, y.isRecord = true := by
  intro out
  obtain ⟨h1, h2, h3, es, h4, h5⟩ := strobeStep_spec s.env s.cor out.soft s.back.cnt.sampleCount (sendFeedback out.feedback s.back)
  have hf : (sendFeedback out.feedback s.back).cnt = { s.back.cnt with feedback := out.feedback.getD s.back.cnt.feedback }
      ∧ (sendFeedback out.feedback s.back).trace = s.back.trace ++ out.feedback.toList.map Event.feedback := by
    cases h : out.feedback <;> simp [sendFeedback]
  refine ⟨?_, ?_, ?_, es, ?_, h5⟩
  · simp only [sampleStep_back, countSample_cnt]; rw [h1, hf.1]
  · simp only [sampleStep_back, countSample_cnt]; rw [h2, hf.1]
  · simp only [sampleStep_back, countSample_cnt]; rw [h3, hf.1]; rfl
  · simp only [sampleStep_back, countSample_trace]; rw [h4, hf.2]

/-! ## A list of samples -/

@[simp] theorem pushSamples_nil (s : State) : pushSamples [] s = s := rfl
@[simp] theorem pushSamples_cons (x : Sample) (xs : List Sample) (s : State) :
    pushSamples (x :: xs) s = pushSamples xs (sampleStep s x) := rfl
theorem pushSamples_append (xs ys : List Sample) (s : State) :
    pushSamples (xs ++ ys) s = pushSamples ys (pushSamples xs s) := by simp [pushSamples]

/-- The induction over a list of samples: what every sample step keeps, the whole list keeps. -/
theorem pushSamples_induction {P : State → Prop} (xs : List Sample) (s : State) (h0 : P s)
    (hs : ∀ t x, x ∈ xs → P t → P (sampleStep t x)) : P (pushSamples xs s) := by
  induction xs generalizing s with
  | nil => exact h0
  | cons x xs ih =>
    exact ih (sampleStep s x) (hs s x (by simp) h0) fun t y hy ht => hs t y (by simp [hy]) ht

theorem pushSamples_host (xs : List Sample) (s : State) : SameHost s (pushSamples xs s) :=
  pushSamples_induction (P := SameHost s) xs s ⟨rfl, rfl, rfl, rfl, rfl, rfl⟩
    fun _ _ _ h => ⟨h.par, h.cmdIn, h.cmdPos, h.cfg, h.cor, h.status⟩

@[simp] theorem pushSamples_par (xs : List Sample) (s : State) : (pushSamples xs s).par = s.par := (pushSamples_host xs s).par
@[simp] theorem pushSamples_cmdIn (xs : List Sample) (s : State) : (pushSamples xs s).cmdIn = s.cmdIn :=
  (pushSamples_host xs s).cmdIn
@[simp] theorem pushSamples_cmdPos (xs : List Sample) (s : State) : (pushSamples xs s).cmdPos = s.cmdPos :=
  (pushSamples_host xs s).cmdPos
@[simp] theorem pushSamples_cfg (xs : List Sample) (s : State) : (pushSamples xs s).cfg = s.cfg := (pushSamples_host xs s).cfg
@[simp] theorem pushSamples_cor (xs : List Sample) (s : State) : (pushSamples xs s).cor = s.cor := (pushSamples_host xs s).cor
@[simp] theorem pushSamples_status (xs : List Sample) (s : State) : (pushSamples xs s).status = s.status :=
  (pushSamples_host xs s).status

theorem pushSamples_sampleCount (xs : List Sample) (s : State) :
    (pushSamples xs s).back.cnt.sampleCount = s.back.cnt.sampleCount + BitVec.ofNat 64 xs.length := by
  induction xs generalizing s with
  | nil => simp
  | cons x xs ih =>
    rw [pushSamples_cons, ih, (sampleStep_spec s x).1, List.length_cons, BitVec.add_assoc]
    congr 1
    apply BitVec.eq_of_toNat_eq
    simp [BitVec.toNat_add]; omega

theorem pushSamples_trace (xs : List Sample) (s : State) : s.back.trace <+: (pushSamples xs s).back.trace :=
  pushSamples_induction (P := fun t => s.back.trace <+: t.back.trace) xs s (List.prefix_refl _) fun t x _ h => by
    obtain ⟨-, -, -, es, h4, -⟩ := sampleStep_spec t x
    rw [h4, List.append_assoc]
    exact h.trans (List.prefix_append ..)

end Sys2Proof.Machine
end

