-- ==== Sys2Proof/Laws/Step.lean ====
section
/-! SUPPORT. What a command can do: the shapes of the next state, said once. -/

namespace Sys2Proof.Machine

open Sys2Proof

/-- The shapes of the state after a command (R214 to R224). -/
inductive Effect (s : State) : State → Prop where
  | same : Effect s s
  | refuse (c : Cause) : Effect s (raiseStatus c s)
  | respond (w : Word) : Effect s (emitState (.response w) s)
  | respondBad : Effect s (raiseStatus .badReg (emitState (.response 0) s))
  | summarize (t : BitVec 64) : Effect s (emitState (.summary (summaryWords s t)) s)
  | cfg (r : CfgReg) (v : Word) (h : s.status.run ≠ .running) : Effect s { s with cfg := cfgSet s.cfg r v }
  | cor (r : CorReg) (v : Word) (h : corInRange s.cfg r v = true) : Effect s { s with cor := corSet s.cor r v }
  | start (h : s.status.run ≠ .running) : Effect s (startRun s)
  | stop : Effect s (clearPipeline { s with status := { s.status with run := .idle } })
  | real (xs : List Word) (h : s.status.run = .running) (k : s.cfg.inputKind = 1) :
      Effect s (pushSamples (xs.map Sample.real) s)
  | complex (xs : List (Word × Word)) (h : s.status.run = .running) (k : s.cfg.inputKind = 0) :
      Effect s (pushSamples (xs.map Sample.complex) s)
  | sweep (t : BitVec 64) (h : s.status.run = .running) : Effect s { s with back := sweepBack s.cfg t s.back }
  | clear (m : BitVec 4) : Effect s { s with status := clearCauses s.status m }

/-- Everything a command can do to the state. -/
theorem exec_effect {i : Instr} {s t : State} (h : exec i s = .next t) : Effect s t := by
  cases i <;> simp only [exec] at h
  case nop => simp only [execNop, Host.Outcome.next.injEq] at h; subst h; exact .same
  case cfgWrite r v =>
    unfold execCfgWrite at h
    split at h
    · split at h <;> simp only [Host.Outcome.next.injEq] at h <;> subst h
      · exact .refuse _
      · exact .cfg _ _ ‹_›
    all_goals simp only [Host.Outcome.next.injEq] at h; subst h; exact .refuse _
  case regRead a =>
    unfold execRegRead at h
    split at h <;> simp only [Host.Outcome.next.injEq] at h <;> subst h
    · exact .respond _
    · exact .respondBad
  case start =>
    unfold execStart at h
    split at h <;> simp only [Host.Outcome.next.injEq] at h <;> subst h
    · exact .refuse _
    · exact .start ‹_›
  case stop => simp only [execStop, Host.Outcome.next.injEq] at h; subst h; exact .stop
  case pushReal xs =>
    unfold execPushReal at h
    split at h <;> simp only [Host.Outcome.next.injEq] at h <;> subst h
    · next hc => exact .real xs hc.1 hc.2
    · exact .refuse _
  case pushComplex xs =>
    unfold execPushComplex at h
    split at h <;> simp only [Host.Outcome.next.injEq] at h <;> subst h
    · next hc => exact .complex xs hc.1 hc.2
    · exact .refuse _
  case setCorrection sel v =>
    unfold execSetCorrection at h
    split at h
    · simp only [Host.Outcome.next.injEq] at h; subst h; exact .refuse _
    · split at h <;> simp only [Host.Outcome.next.injEq] at h <;> subst h
      · exact .cor _ _ ‹_›
      · exact .refuse _
  case sweep t =>
    unfold execSweep at h
    split at h <;> simp only [Host.Outcome.next.injEq] at h <;> subst h
    · exact .sweep _ ‹_›
    · exact .refuse _
  case summary t => simp only [execSummary, Host.Outcome.next.injEq] at h; subst h; exact .summarize _
  case clearStatus m => simp only [execClearStatus, Host.Outcome.next.injEq] at h; subst h; exact .clear _

/-- The state with a command's words consumed differs only in the command stream. -/
theorem consumeCommand_host (s : State) :
    consumeCommand s = { s with cmdIn := (consumeCommand s).cmdIn, cmdPos := (consumeCommand s).cmdPos } := by
  unfold consumeCommand; split <;> rfl

@[simp] theorem consumeCommand_par (s : State) : (consumeCommand s).par = s.par := by rw [consumeCommand_host]
@[simp] theorem consumeCommand_cfg (s : State) : (consumeCommand s).cfg = s.cfg := by rw [consumeCommand_host]
@[simp] theorem consumeCommand_cor (s : State) : (consumeCommand s).cor = s.cor := by rw [consumeCommand_host]
@[simp] theorem consumeCommand_status (s : State) : (consumeCommand s).status = s.status := by rw [consumeCommand_host]
@[simp] theorem consumeCommand_cond (s : State) : (consumeCommand s).cond = s.cond := by rw [consumeCommand_host]
@[simp] theorem consumeCommand_demod (s : State) : (consumeCommand s).demod = s.demod := by rw [consumeCommand_host]
@[simp] theorem consumeCommand_back (s : State) : (consumeCommand s).back = s.back := by rw [consumeCommand_host]

/-- Everything a step can do: it consumes a command's words, then has one of the shapes above. -/
theorem step_effect {s t : State} (h : step s = .next t) : Effect (consumeCommand s) t := by
  unfold step at h
  split at h
  · exact exec_effect h
  · simp only [Host.Outcome.next.injEq] at h; subst h; exact .refuse _
  · simp at h
  · simp at h

end Sys2Proof.Machine
end

