-- ==== Sys2Proof/Tests/Slice0.lean ====
section
/-! SUPPORT. Small tests: ill-formed commands, words written out from the encoding tables (R81 to R87), the vectors of
spec/95_test_vectors.md that one operation or one step shows, and a witness for every statement with hypotheses.
The names of vectors (HI-3, SL-5, ...) are those of spec/95_test_vectors.md. -/

namespace Sys2Proof.Tests

set_option Elab.async false

open Sys2Proof Sys2Proof.Machine

/-! ## Helpers -/

/-- The reset state with a command stream. -/
def withWords (ws : List Word) : State := { State.reset with cmdIn := ws }

/-- The state after a step, the state before where the step has none. -/
def after (s : State) : State :=
  match step s with
  | .next t => t
  | .fault _ => s
  | .refused _ => s

/-- Whether a step has a next state. -/
def goesOn (s : State) : Bool :=
  match step s with
  | .next _ => true
  | .fault _ => false
  | .refused _ => false

theorem step_of_goesOn {s : State} (h : goesOn s = true) : step s = .next (after s) := by
  unfold goesOn at h
  unfold after
  cases hs : step s <;> simp_all

/-- STATUS after a step on a stream from reset, and the words left. -/
def statusAfter (ws : List Word) : Word × List Word :=
  (statusWord (after (withWords ws)).status, (after (withWords ws)).cmdIn)

/-- RUNNING with C4FM and complex input, C4FM and real input, and CQPSK. -/
def runComplex : State := startRun State.reset
def runReal : State := startRun { State.reset with cfg := { cfgReset with inputKind := 1 } }
def runCqpsk : State := startRun { State.reset with cfg := { cfgReset with modulation := 1 } }

/-- CONFIG_ERROR with code 5. -/
def badSps : State := startRun { State.reset with cfg := { cfgReset with sps := 2 } }

def envRef : Env := { par := referenceParams, cfg := cfgReset }

/-! ## WellFormed: the check refuses what has no encoding -/

theorem pushReal_wellFormed (xs : List Word) : (Instr.pushReal xs).WellFormed = decide (xs.length < 65536) := rfl
theorem pushComplex_wellFormed (xs : List (Word × Word)) :
    (Instr.pushComplex xs).WellFormed = decide (xs.length < 65536) := rfl

theorem test_pushReal_65535_wellFormed : (Instr.pushReal (List.replicate 65535 0)).WellFormed = true :=
  (pushReal_wellFormed _).trans (decide_eq_true (by rw [List.length_replicate]; decide))
theorem test_pushReal_65536_illFormed : (Instr.pushReal (List.replicate 65536 0)).WellFormed = false :=
  (pushReal_wellFormed _).trans (decide_eq_false (by rw [List.length_replicate]; decide))
theorem test_pushComplex_65536_illFormed : (Instr.pushComplex (List.replicate 65536 (0, 0))).WellFormed = false :=
  (pushComplex_wellFormed _).trans (decide_eq_false (by rw [List.length_replicate]; decide))

/-! ## Decode: words written out from R81 to R83 -/

theorem test_decode_nop : decode [0b00000000000000000000000000000000] = .ok (.nop, []) := by decide
theorem test_decode_cfgWrite :
    decode [0b00000001000000000000000000010011, 7] = .ok (.cfgWrite 0x13 7, []) := by decide
theorem test_decode_regRead : decode [0b00000010000000000000000100101010] = .ok (.regRead 0x12A, []) := by decide
theorem test_decode_start : decode [0b00000011000000000000000000000000, 9] = .ok (.start, [9]) := by decide
theorem test_decode_stop : decode [0b00000100000000000000000000000000] = .ok (.stop, []) := by decide
theorem test_decode_pushReal :
    decode [0b00000101000000000000000000000010, 5, 6, 7] = .ok (.pushReal [5, 6], [7]) := by decide
theorem test_decode_pushComplex :
    decode [0b00000110000000000000000000000010, 1, 2, 3, 4, 5] = .ok (.pushComplex [(1, 2), (3, 4)], [5]) := by decide
theorem test_decode_setCorrection :
    decode [0b00000111000000001000000000000010, 3] = .ok (.setCorrection 0x8002 3, []) := by decide
theorem test_decode_sweep_low_word_first :
    decode [0b00001000000000000000000000000000, 0x11111111, 0x22222222] = .ok (.sweep 0x2222222211111111, []) := by
  decide
theorem test_decode_summary :
    decode [0b00001001000000000000000000000000, 1, 0x80000000] = .ok (.summary 0x8000000000000001, []) := by decide
theorem test_decode_clearStatus : decode [0b00001010000000000000000000001001] = .ok (.clearStatus 9, []) := by decide

/-- Each ground of R85, and HI-5: one illegal word. -/
theorem test_decode_illegal :
    ([0x0B000000, 0xFF000000, 0x00010000, 0x00000001, 0x03000001, 0x04008000, 0x08000001, 0x09000001, 0x0100FFFF,
      0x0A000010] : List Word).all (fun w => decide (decode [w, 0, 0] = .error .illegal)) = true := by decide +kernel
theorem test_decode_truncated : decode [0x06000002, 1, 2, 3] = .error .truncated := by decide
theorem test_decode_end : decode [] = .error .endOfStream := by decide

/-- R64: the most significant byte of a word comes first; a word not complete delivers nothing. -/
theorem test_decodeBytes : decodeBytes [0x02, 0x00, 0x00, 0x03, 0x0A] = .ok (.regRead 3, []) := by decide

/-- The words of the opcode table: bit 0 is bit 0 of the first word, and the payload is zeros where it has no bits. -/
theorem test_decodeTableWord :
    decodeTableWord 32 0x08000000 = some (.sweep 0)
      ∧ decodeTableWord 64 0xDEADBEEF01000042 = some (.cfgWrite 0x42 0xDEADBEEF) := by decide

/-- R237's examples: one word each, and ILLEGAL_CMD. -/
theorem test_illegal_sets_bit8 : statusAfter [0x0B000000, 0x04000000] = (0x100, [0x04000000]) := by decide +kernel

/-! ## Commands: one step each -/

/-- HI-1 and HI-2. -/
theorem test_regRead_values :
    (after (withWords [0x02000002])).back.trace = [.response 0]
      ∧ (after (withWords [0x02000003])).back.trace = [.response 0x01101008] := by decide +kernel
/-- HI-10. -/
theorem test_regRead_unassigned :
    (after (withWords [0x0200012A])).back.trace = [.response 0] ∧ (statusAfter [0x0200012A]).1 = 0x400 := by
  decide +kernel
/-- HI-6: STATUS is RO; both words are consumed. -/
theorem test_cfgWrite_ro : statusAfter [0x01000002, 5, 0] = (0x400, [0]) := by decide +kernel
/-- R214's example. -/
theorem test_cfgWrite_sps : (after (withWords [0x01000013, 4])).cfg.sps = 4 := by decide +kernel
/-- HI-7. -/
theorem test_pushReal_idle : statusAfter [0x05000002, 1, 2, 3] = (0x200, [3]) := by decide +kernel
/-- HI-8 and HI-9. -/
theorem test_setCorrection_refused :
    (statusAfter [0x07000001, 0]).1 = 0x800 ∧ (statusAfter [0x07000003, 0]).1 = 0x400 := by decide +kernel
theorem test_setCorrection_span : (after (withWords [0x07000001, 0x3F000000])).cor.slicerSpan = 0x3F000000 := by
  decide +kernel
/-- HI-11, HI-13 and HI-15. -/
theorem test_start_codes :
    statusWord (startRun { State.reset with cfg := { cfgReset with modulation := 7 } }).status = 0x00010002
      ∧ statusWord (startRun { State.reset with cfg := { cfgReset with agcTarget := 0x7FC00000 } }).status = 0x00090002
      ∧ statusWord (startRun { State.reset with cfg := { cfgReset with trellisMax := 49 } }).status = 0x00180002 := by
  decide +kernel
/-- R259: the reset values form a legal configuration. -/
theorem test_start_reset_legal : (statusAfter [0x03000000]).1 = 1 := by decide +kernel
/-- HI-20 and HI-21. -/
theorem test_sweep_idle : statusAfter [0x08000000, 0, 0, 5] = (0x200, [5]) := by decide +kernel
theorem test_summary_idle : (after (withWords [0x09000000, 0, 0])).back.trace = [.summary [0, 0, 0]] := by
  decide +kernel
/-- HI-22. -/
theorem test_clearStatus :
    statusWord (clearCauses { statusReset with illegalCmd := true, cmdRejected := true, badReg := true, badValue := true } 5)
      = 0xA00 := by decide
/-- HI-26: the wrong input kind. -/
theorem test_pushComplex_kind :
    statusWord (after { runReal with cmdIn := [0x06000001, 1, 2] }).status = 0x201 := by decide +kernel
/-- A table word runs as the first instruction after reset. -/
theorem test_withFetchWord : (after (State.reset.withFetchWord 32 0x02000003)).back.trace = [.response 0x01101008] := by
  decide +kernel
theorem test_stop : (after { runReal with cmdIn := [0x04000000] }).status.run = .idle := by decide +kernel

/-! ## The signal path and the decoder: vectors of one operation -/

/-- SC-1, SC-5: the AGC's gain and sample. -/
theorem test_agc_scales :
    agc referenceParams cfgReset [0] 0x40400000 0x40800000 = ([0x40A00000], (0x3F19999A, 0x3F4CCCCD)) := by decide +kernel
theorem test_agc_infinity :
    agc referenceParams cfgReset [0] 0x7F800000 0 = ([0x7F800000], (0x7FC00000, 0)) := by decide +kernel
/-- R106's example, its first two samples. -/
theorem test_dgc :
    dgc 0x40000000 0x3F800000 0x3F000000 0x3E800000 0x3F800000 0x3E800000 0x40800000 = (0x40000000, 0x3F000000)
      ∧ dgc 0x40000000 0x3F000000 0x3F000000 0x3E800000 0x3F800000 0x3E800000 0x40800000 = (0x3F800000, 0x3F200000) := by
  decide +kernel
/-- DM-3. -/
theorem test_wrap :
    wrapF 0x40800000 = 0xC0121FB6 ∧ wrapF 0xC0800000 = 0x40121FB6 ∧ wrapF 0x40490FDB = 0x40490FDB ∧ wrapF 0x7FC00000 = 0 := by
  decide +kernel
/-- SL-1 to SL-8, SL-13 to SL-15. -/
theorem test_sliceC4fm :
    ([0x40400000, 0x3F800000, 0xBF800000, 0xC0400000, 0x40000000, 0x3FFFFFFF, 0xC0000000, 0xC0000001, 0x7F800000, 0xFF800000,
      0x7FC00000] : List Word).map (sliceC4fm cfgReset corReset) = [1, 0, 2, 3, 1, 0, 2, 3, 1, 3, 0] := by decide +kernel
/-- SL-21 to SL-26 and SL-32. -/
theorem test_sliceCqpsk :
    ([0x3FC90FDA, 0x3FC90FDB, 0xBFC90FDB, 0xBFC90FDC, 0x40490FDB, 0xC0490FDB, 0x40800000] : List Word).map
      (sliceCqpsk corReset) = [0, 1, 2, 3, 1, 3, 3] := by decide +kernel
/-- The coded nodes of a vector, and its decoded status, errors and corrected bits. -/
def trellisOf (limit : Nat) (ws : List Nibble) : BlockStatus × Nat × Nat :=
  let r := trellisDecode p25Profile limit (ws.flatMap bitsOfNibble)
  (r.status, r.errors, r.corrected)
/-- TR-1 and TR-4, their first 16 nodes: the chain is consistent, and node 5's MSB breaks two links. -/
theorem test_trellis_ok : trellisOf 7 [1, 9, 2, 2, 2, 2, 2, 2, 2, 2, 2, 2, 2, 2, 2, 12] = (.ok, 0, 0) := by decide +kernel
theorem test_trellis_corrected :
    trellisOf 7 [1, 9, 2, 2, 2, 10, 2, 2, 2, 2, 2, 2, 2, 2, 2, 12] = (.corrected, 2, 1) := by decide +kernel
theorem test_trellis_rejected :
    (trellisDecode p25Profile 1 (([1, 9, 2, 2, 2, 10, 2, 2] : List Nibble).flatMap bitsOfNibble))
      = { status := .rejected, bits := [], errors := 2, corrected := 0 } := by decide +kernel
/-- The 80 bits 0x8000000123456789ABCD of R170, with their check. -/
def grantBits : Bits := (List.range 96).map fun i => Nat.testBit 0x8000000123456789ABCD0E2C (95 - i)
/-- R170's example. -/
theorem test_crc : crcOf p25Check grantBits = 0x0E2C ∧ checkPass p25Check grantBits = true := by decide +kernel
/-- R175: the opcode of a vendor is not decoded with a standard entry. -/
theorem test_lookup_vendor :
    (lookupOpcode p25Profile 0 0x3C 0x01).map OpcodeEntry.category = some .neighbor
      ∧ lookupOpcode p25Profile 0 0x3C 0x90 = none := by decide +kernel
/-- R98, R58: the words of a message: W0, W1, timestamp low word first, key, identifiers, payload from bit 31. -/
theorem test_msgWords :
    msgWords { cls := .header, msgType := 0xFF, ftype := 0xC, check := .pass, undecoded := false, blockIndex := 0
               correctedBits := 5, ts := 0x100000002, key := 7, ids := [⟨.radio, 0xABCDEF⟩], payload := [true, false, true] }
      = [0x1FFCA100, 0x00050003, 2, 1, 7, 0x90ABCDEF, 0xA0000000] := by decide +kernel

/-- The candidate profile and the reference sizes meet the constraints of R7 and R8. -/
theorem test_paramsOk : paramsOk referenceParams = true := by decide +kernel
/-- R8: a table that no frame type names is checked, and so is a check specification that none uses; R80: a header record
needs room for its identifier. -/
theorem test_paramsOk_refuses :
    ilvOk { p25Profile with ilv := [p25Ilv, [0, 0]] } = false
      ∧ fieldsOk { p25Profile with frameTypes := [], checkHeader := { p25Check with width := 33 } } = false
      ∧ framesOk { referenceParams with maxIds := 0 } = false := by decide +kernel
/-- R46, R59: the ring has AGC_WINDOW entries after a clear, above MAX_AGC_WINDOW too. -/
theorem test_clear_ring :
    (conditionerCleared referenceParams { cfgReset with agcWindow := 1000 }).envRing.length = 1000
      ∧ (demodCleared referenceParams { cfgReset with sps := 100 }).zhist.length = 100 := by decide +kernel

/-! ## Witnesses: the hypotheses of every statement that has some, met by concrete states and operands -/

theorem witness_DecodeEncode : (Instr.pushComplex [(1, 2)]).WellFormed = true ∧ (Instr.pushReal []).WellFormed = true := by
  decide
theorem witness_EncodeDecode : decode [0x0A000005, 9] = .ok (.clearStatus 5, [9]) := by decide
/-- An illegal word at each ground of R85, and the largest legal words beside them. -/
theorem witness_IllegalWords :
    ((IllegalBits 0x0B000000 ∧ IllegalBits 0x00010000 ∧ IllegalBits 0x09000001 ∧ IllegalBits 0x01000100
        ∧ IllegalBits 0x0A000010) ∧ (withWords [0x0B000000]).cmdIn = 0x0B000000 :: [])
      ∧ ((¬ IllegalBits 0x0A00000F ∧ ¬ IllegalBits 0x010000FF ∧ ¬ IllegalBits 0x0200FFFF)
        ∧ (withWords [0x0A00000F]).cmdIn = 0x0A00000F :: []) := by
  refine ⟨⟨⟨?_, ?_, ?_, ?_, ?_⟩, rfl⟩, ⟨?_, ?_, ?_⟩, rfl⟩ <;> decide +kernel
theorem witness_StepRunsDecoded : decode (withWords [0x03000000, 7]).cmdIn = .ok (.start, [7]) := by decide
/-- Exactly as many words as the longest and the shortest commands need. -/
theorem witness_StepConsumesCommand :
    ((withWords [0x06000001, 1, 2]).cmdIn = 0x06000001 :: [1, 2] ∧ lengthRule 0x06000001 ≤ 1 + [1, 2].length)
      ∧ ((withWords [0x04000000]).cmdIn = 0x04000000 :: [] ∧ lengthRule 0x04000000 ≤ 1 + ([] : List Word).length) := by
  decide +kernel
/-- No word, and one word short. -/
theorem witness_StreamEnds :
    State.reset.cmdIn = []
      ∧ ((withWords [0x08000000, 1]).cmdIn = 0x08000000 :: [1] ∧ 1 + [(1 : Word)].length < lengthRule 0x08000000) := by
  decide +kernel
/-- The first and the last CFG register outside and in RUNNING; a COR, an RO and an unassigned number. -/
theorem witness_CfgWriteEffect :
    (regOfNum 0x10 = some (.cfg .modulation) ∧ regOfNum 0x3B = some (.cfg .pduTimeoutHi) ∧ State.reset.status.run ≠ .running)
      ∧ (regOfNum 0x10 = some (.cfg .modulation) ∧ runReal.status.run = .running)
      ∧ (∀ r, regOfNum 0x40 ≠ some (.cfg r)) ∧ (∀ r, regOfNum 0x3C ≠ some (.cfg r)) ∧ ∀ r, regOfNum 0x02 ≠ some (.cfg r) := by
  refine ⟨by decide +kernel, by decide +kernel, ?_, ?_, ?_⟩ <;> intro r <;> simp [regOfNum]
/-- The largest assigned number; the smallest unassigned one; an operand just above 0xFF; each framer state, two of them
held between dibits. -/
theorem witness_RegReadEffect :
    ((0x93 : BitVec 16).toNat ≤ 0xFF ∧ regOfNum ((0x93 : BitVec 16).extractLsb' 0 8) = some (.ro .correctedBits))
      ∧ regOfNum ((0x04 : BitVec 16).extractLsb' 0 8) = none ∧ 0xFF < (0x100 : BitVec 16).toNat
      ∧ runReal.back.framer.fstate = .searching
      ∧ ∀ f, ({ runReal with back := { runReal.back with framer := { framerCleared with fstate := f } } } : State).back.framer.fstate = f :=
  ⟨by decide, by decide, by decide, rfl, fun _ => rfl⟩
theorem witness_StartEffect :
    runReal.status.run = .running
      ∧ (State.reset.status.run ≠ .running ∧ checkConfig State.reset.par State.reset.cfg State.reset.cor = 0)
      ∧ (badSps.status.run ≠ .running ∧ checkConfig badSps.par badSps.cfg badSps.cor = 5) := by decide +kernel
theorem witness_ConfigCheckCodes :
    blockLens referenceParams.profile ≠ [] ∧ checkConfig referenceParams cfgReset corReset = 0
      ∧ checkConfig referenceParams cfgReset { corReset with timingPhase := 1 } = 27 := by decide +kernel
theorem witness_PushRealEffect :
    (runReal.status.run = .running ∧ runReal.cfg.inputKind = 1)
      ∧ ¬ (State.reset.status.run = .running ∧ State.reset.cfg.inputKind = 1)
      ∧ ¬ (runComplex.status.run = .running ∧ runComplex.cfg.inputKind = 1) := by decide +kernel
theorem witness_PushComplexEffect :
    (runCqpsk.status.run = .running ∧ runCqpsk.cfg.inputKind = 0 ∧ runCqpsk.cfg.modulation = 1)
      ∧ (runComplex.status.run = .running ∧ runComplex.cfg.inputKind = 0 ∧ runComplex.cfg.modulation ≠ 1)
      ∧ ¬ (runReal.status.run = .running ∧ runReal.cfg.inputKind = 0) := by decide +kernel
/-- The smallest bad selector; the largest finite offset and +∞; span 1.0, the next value above it and 0; phase 0 and
SPS itself. -/
theorem witness_SetCorrectionEffect :
    2 < (3 : BitVec 16).toNat
      ∧ ((0 : BitVec 16).toNat = 0 ∧ isFinite 0x7F7FFFFF = true)
      ∧ ((1 : BitVec 16).toNat = 1 ∧ flt 0 fOne = true ∧ fle fOne fOne = true)
      ∧ ((2 : BitVec 16).toNat = 2 ∧ (0 : Word).toNat < State.reset.cfg.sps.toNat)
      ∧ isFinite 0x7F800000 = false ∧ ¬ (flt 0 0x3F800001 = true ∧ fle 0x3F800001 fOne = true)
      ∧ ¬ (flt 0 0 = true ∧ fle 0 fOne = true) ∧ State.reset.cfg.sps.toNat ≤ (1 : Word).toNat := by decide +kernel
/-- A RUNNING state with two open calls and a pending sequence; with both timeouts 48000, time 48000 closes the call of
slot 0 and abandons the sequence, and keeps the call of slot 2. -/
def sweepState : State :=
  { runReal with
    back.agg.calls := [some ⟨1, 2, 3, 0, 0⟩, none, some ⟨4, 5, 6, 0, 1⟩]
    back.pending := some { header := rawMsg [] 0 0, blocks := [], n := 1, ts := 0 } }
theorem witness_SweepEffect :
    sweepState.status.run = .running ∧ State.reset.status.run ≠ .running
      ∧ sweepState.back.agg.calls[1]? = some none
      ∧ sweepState.back.agg.calls[0]? = some (some ⟨1, 2, 3, 0, 0⟩) ∧ sweepState.back.agg.calls[2]? = some (some ⟨4, 5, 6, 0, 1⟩)
      ∧ runReal.back.pending = none
      ∧ sweepState.back.pending = some { header := rawMsg [] 0 0, blocks := [], n := 1, ts := 0 }
      ∧ (0 : BitVec 64).toNat + (sweepState.cfg.pduTimeoutHi.toNat * 2 ^ 32 + sweepState.cfg.pduTimeoutLo.toNat)
          ≤ (48000 : BitVec 64).toNat
      ∧ (47999 : BitVec 64).toNat
          < (0 : BitVec 64).toNat + (sweepState.cfg.pduTimeoutHi.toNat * 2 ^ 32 + sweepState.cfg.pduTimeoutLo.toNat) := by
  decide +kernel
/-- A command that completes, one that raises a bit, and one on a state that has a bit already. -/
theorem witness_RefusalsArePrecise :
    exec .nop runReal = .next runReal
      ∧ exec (.sweep 0) State.reset = .next (raiseStatus .cmdRejected State.reset)
      ∧ (statusWord State.reset.status).getLsbD (causeBit .cmdRejected) = false
      ∧ (statusWord (raiseStatus .cmdRejected State.reset).status).getLsbD (causeBit .cmdRejected) = true :=
  ⟨rfl, rfl, by decide +kernel, by decide +kernel⟩
theorem witness_RunStateChanges :
    exec .start runReal = .next (raiseStatus .cmdRejected runReal) ∧ runReal.status.run = .running
      ∧ exec .nop runReal = .next runReal ∧ ∃ t, exec .stop runReal = .next t :=
  ⟨rfl, by decide +kernel, rfl, _, rfl⟩
/-- A bad operand; a command refused by state; a command performed. -/
theorem witness_HostTable :
    BadOperand (.setCorrection 3 0)
      ∧ (¬ BadOperand (.cfgWrite 0x10 0) ∧ RefusedByState runReal (.cfgWrite 0x10 0))
      ∧ (¬ BadOperand .start ∧ ¬ RefusedByState badSps .start ∧ checkConfig badSps.par badSps.cfg badSps.cor ≠ 0) := by
  refine ⟨by simp [BadOperand], ⟨?_, by simp only [RefusedByState]; decide +kernel⟩, ?_⟩
  · simp only [BadOperand]; intro h; exact h .modulation (by decide)
  · simp only [BadOperand, RefusedByState]; decide +kernel

/-! ### A RUNNING state about to take a sample, for the statements about a next state -/

/-- RUNNING with real input, and one PUSH_REAL of 3.0 in the stream. -/
def pushing : State := { runReal with cmdIn := [0x05000001, 0x40400000] }

theorem pushing_goesOn : step pushing = .next (after pushing) := step_of_goesOn (by decide +kernel)

theorem pushing_config : ConfigInv pushing :=
  ⟨fun _ => by decide +kernel, fun _ => by decide +kernel, fun h => absurd h (by decide +kernel), by decide +kernel⟩

theorem pushing_framer : FramerInv pushing :=
  ⟨by decide +kernel, by decide +kernel, by decide +kernel, by decide +kernel, fun _ => by decide +kernel, by decide +kernel,
    fun h => absurd h (by decide +kernel), fun h => absurd h (by decide +kernel), fun h => absurd h (by decide +kernel),
    fun h => absurd h (by decide +kernel)⟩

theorem witness_ConfigLocked : step pushing = .next (after pushing) ∧ pushing.status.run = .running :=
  ⟨pushing_goesOn, by decide +kernel⟩
theorem witness_TraceOnlyGrows : step pushing = .next (after pushing) := pushing_goesOn
theorem witness_BatchesJoin :
    (runReal.status.run = .running ∧ runReal.cfg.inputKind = 1)
      ∧ (runCqpsk.status.run = .running ∧ runCqpsk.cfg.inputKind = 0) := by decide +kernel
theorem witness_ConfigInvKept : ConfigInv pushing ∧ step pushing = .next (after pushing) := ⟨pushing_config, pushing_goesOn⟩
theorem witness_GainInvKept : GainInv pushing ∧ step pushing = .next (after pushing) :=
  ⟨⟨pushing_config, fun _ => by unfold within; decide +kernel, fun _ => by unfold within; decide +kernel⟩, pushing_goesOn⟩
theorem witness_FeedbackInvKept : FeedbackInv pushing ∧ step pushing = .next (after pushing) :=
  ⟨⟨pushing_config, fun _ => by unfold within; decide +kernel, fun _ => by unfold within; decide +kernel⟩, pushing_goesOn⟩
theorem witness_LineInvKept : LineInv pushing ∧ step pushing = .next (after pushing) :=
  ⟨⟨by decide +kernel, pushing_config, by decide +kernel, by decide +kernel, by decide +kernel, by decide +kernel,
    by decide +kernel, fun _ => by decide +kernel, fun _ => by decide +kernel⟩, pushing_goesOn⟩
theorem witness_CorInvKept : CorInv pushing ∧ step pushing = .next (after pushing) :=
  ⟨⟨by decide +kernel, by decide +kernel, by decide +kernel, fun _ => by decide +kernel⟩, pushing_goesOn⟩
theorem witness_SymbolInvKept : SymbolInv pushing ∧ step pushing = .next (after pushing) :=
  ⟨⟨pushing_config, fun _ _ => by decide +kernel⟩, pushing_goesOn⟩
theorem witness_FramerInvKept : FramerInv pushing ∧ step pushing = .next (after pushing) := ⟨pushing_framer, pushing_goesOn⟩
theorem witness_TableInvKept : TableInv pushing ∧ step pushing = .next (after pushing) := by
  refine ⟨⟨?_, by decide +kernel, ?_, by decide +kernel, by decide +kernel, by decide +kernel, by decide +kernel⟩,
    pushing_goesOn⟩
  · intro q h; exact absurd (show (none : Option Pending) = some q from h) (by simp)
  · intro i j ci cj h
    have h' : some ci ∈ List.replicate 8 (none : Option Call) := List.mem_of_getElem? h
    simp at h'
theorem witness_OrphanInvKept : OrphanInv pushing ∧ step pushing = .next (after pushing) :=
  ⟨⟨pushing_framer, by unfold HeaderOk; split <;> trivial, by decide +kernel⟩,
    pushing_goesOn⟩

/-! ### Arithmetic and the signal path -/

/-- A sum that must be rounded, and the largest finite value plus just less than, and exactly, a half of its last place, of
either sign; the same of products. -/
theorem witness_RoundsToNearest :
    (isFinite 0x7F7FFFFF = true ∧ isFinite 0x72FFFFFF = true ∧ isFinite 0x73000000 = true ∧ isFinite 0xFF7FFFFF = true
        ∧ isFinite 0xF3000000 = true ∧ isFinite 0x3F800001 = true ∧ isFinite 0x3FC00000 = true)
      ∧ (valueF 0x7F7FFFFF + valueF 0x72FFFFFF).natAbs < overflowAt.natAbs
      ∧ overflowAt = valueF 0x7F7FFFFF + valueF 0x73000000 ∧ valueF 0xFF7FFFFF + valueF 0xF3000000 = -overflowAt
      ∧ (valueF 0x3F800001 * valueF 0x3FC00000).natAbs < overflowAt.natAbs * 2 ^ 149
      ∧ overflowAt * 2 ^ 149 ≤ valueF 0x7F7FFFFF * valueF 0x3F800001
      ∧ valueF 0xFF7FFFFF * valueF 0x3F800001 ≤ -(overflowAt * 2 ^ 149) := by
  decide +kernel
theorem witness_TranscendentalLaws :
    (isZero 0x80000000 = true ∧ isZero 0 = true) ∧ (isNaN 0x7F800000 = false ∧ isNaN 0xFF800000 = false)
      ∧ flt 0 1 = true ∧ isNaN 0x7F800001 = true := by decide +kernel
theorem witness_FirIsTapSum :
    ([1, 2, 3] : List Word).length = 3 ∧ 1 ≤ 3 ∧ ([fOne, fOne, fOne] : List Word).length ≤ 3 := by decide
theorem witness_EnvelopeIsLargest : (0x40400000 : Word) ∈ ([0x7FC00000, 0x40400000] : List Word) ∧ isNaN 0x40400000 = false := by
  decide +kernel

/-- The reset threshold is legal; soft values at it, just below it, just below 0 and below minus it; both modulations. -/
theorem witness_QuadrantsAgree :
    (isFinite (fmul (fmul 0x40000000 cfgReset.slicerLevel) corReset.slicerSpan) = true
        ∧ flt 0 (fmul (fmul 0x40000000 cfgReset.slicerLevel) corReset.slicerSpan) = true ∧ isFinite corReset.slicerOffset = true)
      ∧ ([0x40000000, 0x3FFFFFFF, 0x80000001, 0xC0000000, 0xC0000001] : List Word).map
          (fun v => (fle 0x40000000 v, fle 0 v, fle 0xC0000000 v))
        = [(true, true, true), (false, true, true), (false, false, true), (false, false, true), (false, false, false)]
      ∧ fmul (fmul 0x40000000 cfgReset.slicerLevel) corReset.slicerSpan = 0x40000000
      ∧ cfgReset.modulation = 0 ∧ ({ cfgReset with modulation := 1 } : CfgRegs).modulation = 1 := by decide +kernel

/-! ### Frames, blocks and messages -/

/-- The 24 dibits of the candidate profile's sync pattern, all with one sample index. -/
def syncDibits (w : BitVec 64) : List (Dibit × BitVec 64) :=
  (List.range 24).map fun i => (BitVec.ofNat 2 (w.toNat / 4 ^ (23 - i)), 7)
/-- A SEARCHING framer as an EMIT leaves it, with the fields of the frame before. -/
def searchingFramer : Framer := searchingAgain { framerCleared with fstate := .framing, frameTs := 9, k := 3, target := 64 }
/-- Whether a window is within SYNC_TOL of the pattern. -/
def nearSync (xs : List (Dibit × BitVec 64)) : Bool :=
  envRef.par.profile.sync.any fun v => decide (popcount (windowOf (xs.map Prod.fst) ^^^ v) ≤ envRef.cfg.syncTol.toNat)
/-- 23 dibits; windows at distance exactly SYNC_TOL = 4, and 5, where no earlier window is full; and a window at the second
dibit offset, where the first does not match. -/
theorem witness_SyncFoundWithinTolerance :
    (paramsOk envRef.par = true ∧ searchingFramer.fstate = .searching ∧ searchingFramer.window = 0 ∧ searchingFramer.fill = 0
        ∧ searchingFramer.tsRing = [])
      ∧ ((syncDibits 0x5575F5FF77FF).take 23).length < envRef.par.profile.syncLen / 2
      ∧ ((syncDibits 0x5575F5FF77F0).length = envRef.par.profile.syncLen / 2
        ∧ popcount (windowOf ((syncDibits 0x5575F5FF77F0).map Prod.fst) ^^^ 0x5575F5FF77FF) = 4
        ∧ nearSync (syncDibits 0x5575F5FF77F0) = true)
      ∧ ((syncDibits 0x5575F5FF77E0).length = envRef.par.profile.syncLen / 2
        ∧ popcount (windowOf ((syncDibits 0x5575F5FF77E0).map Prod.fst) ^^^ 0x5575F5FF77FF) = 5
        ∧ nearSync (syncDibits 0x5575F5FF77E0) = false)
      ∧ (let xs := (0, 7) :: syncDibits 0x5575F5FF77FF
         envRef.par.profile.syncLen / 2 ≤ xs.length ∧ nearSync ((xs.take 24).drop 0) = false ∧ nearSync (xs.drop 1) = true) := by
  decide +kernel
/-- The framer with the prefix of a frame of type t complete. -/
def prefixOf (t : Nat) : Framer := { framerCleared with buf := (List.range 64).map fun i => Nat.testBit (t * 2 ^ 48) (63 - i) }
/-- A profile whose blocks are 12 bits long and in air order, with no check to speak of, a declared count in bits 0 and 1 of
a block and at most two blocks in a PDU frame of type 0. -/
def tinyProfile : Profile :=
  { p25Profile with
    prefixLen := 2, typePos := 0, typeWidth := 1, frameTypes := [.pdu 12 2 0, .invalid], ilv := [List.range 12]
    checkHeader := { width := 1, poly := 0, init := 0, xorOut := 0, cov := 0, pos := 5 }, hdrBtf := ⟨0, 2⟩ }
def tinyEnv : Env := { par := { referenceParams with profile := tinyProfile }, cfg := cfgReset }
/-- A collected header block whose decoded bits are 11 00 00: three blocks declared. -/
def tinyHeader : Framer :=
  { framerCleared with fstate := .framing, target := 14, buf := [false, false] ++ (chainNodes tinyProfile 0 [3, 0, 0]).flatMap bitsOfNibble }
/-- A raw type, a TSBK type and a PDU type; a prefix complete with an invalid type and with a known one; a PDU header that
passes its check and declares too many blocks. -/
theorem witness_EmitCountsBlocks :
    (frameType p25Profile 3 = .raw 28 .terminate
        ∧ frameType p25Profile 7 = .tsbk 196 3 0 ∧ isTsbkType (frameType p25Profile 7) = true
        ∧ frameType p25Profile 12 = .pdu 196 128 0)
      ∧ ((prefixOf 1).buf.length = p25Profile.prefixLen
        ∧ frameType p25Profile (BitVec.ofNat 4 (field (prefixOf 1).buf p25Profile.typePos p25Profile.typeWidth)) = .invalid)
      ∧ ((prefixOf 7).buf.length = p25Profile.prefixLen
        ∧ frameType p25Profile (BitVec.ofNat 4 (field (prefixOf 7).buf p25Profile.typePos p25Profile.typeWidth)) ≠ .invalid)
      ∧ (tinyHeader.buf.length ≠ tinyProfile.prefixLen ∧ frameType tinyProfile tinyHeader.ftype = .pdu 12 2 0
        ∧ blockIndex tinyProfile 12 tinyHeader = 0
        ∧ (let r := decodeBlock tinyEnv 0 false (slice tinyHeader.buf tinyProfile.prefixLen 12)
           r.status ≠ .rejected ∧ checkPass tinyProfile.checkHeader r.bits = true
             ∧ 2 - 1 < field r.bits tinyProfile.hdrBtf.pos tinyProfile.hdrBtf.width)) := by
  decide +kernel
/-- No error; E = limit = 2; E = limit + 1. -/
theorem witness_TrellisThreshold :
    trellisOf 0 [1, 9, 2] = (.ok, 0, 0) ∧ trellisOf 2 [1, 9, 2, 2, 2, 10, 2] = (.corrected, 2, 1)
      ∧ trellisOf 1 [1, 9, 2, 2, 2, 10, 2] = (.rejected, 2, 0) := by decide +kernel
theorem witness_TrellisOptimal : ([1, 2, 3] : List Dibit).length = ([1, 9, 2] : List Nibble).length := by decide
theorem witness_CorrectedChain :
    constOk p25Profile = true ∧ trellisOf 2 [1, 9, 2, 2, 2, 10, 2] = (.corrected, 2, 1)
      ∧ trellisOf 0 [1, 9, 2] = (.ok, 0, 0) := by decide +kernel
theorem witness_ValidChainDecodes : constOk p25Profile = true := by decide +kernel
/-- The last covered bit wrong. -/
theorem witness_CrcDetectsOneBit :
    (1 ≤ p25Check.width ∧ p25Check.poly < 2 ^ p25Check.width ∧ p25Check.init < 2 ^ p25Check.width ∧ p25Check.poly % 2 = 1
        ∧ p25Check.cov ≤ p25Check.pos ∧ checkPass p25Check grantBits = true)
      ∧ grantBits.length = (grantBits.set 79 false).length ∧ 79 < p25Check.cov ∧ 79 < grantBits.length
      ∧ (∀ j, j ≠ 79 → grantBits[j]? = (grantBits.set 79 false)[j]?) ∧ grantBits[79]? ≠ (grantBits.set 79 false)[79]? := by
  refine ⟨by decide +kernel, by decide +kernel, by decide +kernel, by decide +kernel, fun j hj => ?_, by decide +kernel⟩
  rw [List.getElem?_set_ne (Ne.symm hj)]
/-- The last entry found, and an opcode that no entry has. -/
theorem witness_LookupIsFirstMatch :
    (lookupOpcode p25Profile 0 0x3C 0x00).isSome = true ∧ lookupOpcode p25Profile 1 0x3C 0x00 = none := by decide +kernel
/-- A block whose MFID field is 0x90. -/
def vendorBits : Bits := (List.range 96).map fun i => Nat.testBit 0x80900000123456789ABCD000 (95 - i)
theorem witness_VendorBlocksNotCrossDecoded :
    (BitVec.ofNat 8 (field vendorBits p25Profile.tsbkMfidPos 8) ∉ p25Profile.standardMfids)
      ∧ ∀ x ∈ p25Profile.opcodeTable, x.vsel ≠ .exact (BitVec.ofNat 8 (field vendorBits p25Profile.tsbkMfidPos 8)) := by
  decide +kernel
/-- A failed and a valid check, and the largest identifier count, block index, corrected bits and slot. -/
theorem witness_EmissionEffect :
    ({ rawMsg [] 0 0 with check := .fail } : Msg).check = .fail ∧ (rawMsg [] 0 0).check ≠ .fail
      ∧ (let m : Msg := { rawMsg [true] 0 0 with
          ids := List.replicate 15 ⟨.radio, 1⟩, blockIndex := 255, correctedBits := 65535 }
         m.ids.length ≤ 15 ∧ m.blockIndex ≤ 255 ∧ m.correctedBits < 2 ^ 16 ∧ m.payload.length < 2 ^ 16)
      ∧ (255 : Nat) ≤ 255 := by decide
/-- The header check passes on these 96 bits and fails on all zeros. -/
theorem witness_HeaderOpensSequence :
    checkPass p25Profile.checkHeader grantBits = true
      ∧ checkPass p25Profile.checkHeader (List.replicate 96 false) = false := by decide +kernel
/-- Fewer blocks than declared, as many, and more, on a pending sequence that declares one or two. -/
theorem witness_SequenceCompletesAtItsCount :
    ∃ q : Pending, q.blocks = [] ∧ sweepState.back.pending = some q ∧ ([] : List Msg).length < q.n ∧ 1 ≤ q.n
      ∧ q.n ≤ [rawMsg [] 0 0].length ∧ q.n ≤ [rawMsg [] 0 0, rawMsg [] 0 0].length :=
  ⟨_, rfl, rfl, by decide, by decide, by decide, by decide⟩

/-! ### The aggregator -/

/-- A grant record on a channel. -/
def grantMsg (ch tg src : BitVec 28) : Msg :=
  { rawMsg [] 0 9 with ids := [⟨.channel, ch⟩, ⟨.target, tg⟩, ⟨.source, src⟩] }
/-- The slots of sweepState: a re-grant, an update and a replacement of the call of slot 0, a new channel with a free
slot, and a new channel on a full table, where the oldest of two equals is the lowest. -/
theorem witness_GrantEffect :
    (idOf (grantMsg 3 2 1) .channel = some 3 ∧ idOf (grantMsg 3 2 1) .target = some 2 ∧ idOf (grantMsg 3 2 1) .source = some 1)
      ∧ (sweepState.back.agg.calls[0]? = some (some ⟨1, 2, 3, 0, 0⟩)
        ∧ ((⟨1, 2, 3, 0, 0⟩ : Call).channel = 3 ∧ (⟨1, 2, 3, 0, 0⟩ : Call).target = 2 ∧ (⟨1, 2, 3, 0, 0⟩ : Call).source ≠ 8
          ∧ (⟨1, 2, 3, 0, 0⟩ : Call).target ≠ 7))
      ∧ (sweepState.back.agg.calls.all (fun x => match x with | some c => c.channel != 9 | none => true) = true
        ∧ sweepState.back.agg.calls[1]? = some none ∧ sweepState.back.agg.calls[0]? ≠ some none)
      ∧ (oldestCall [some ⟨1, 2, 3, 0, 4⟩, some ⟨4, 5, 6, 0, 4⟩] = some (0, ⟨1, 2, 3, 0, 4⟩)
        ∧ freeSlot [some ⟨1, 2, 3, 0, 4⟩, some ⟨4, 5, 6, 0, 4⟩] = none) := by decide +kernel
theorem witness_TerminateClosesAll :
    (Category.terminate = .terminate ∨ Category.terminate = .idle) ∧ (Category.idle = .terminate ∨ Category.idle = .idle) := by
  decide
def keyMsg : Msg := { rawMsg [true] 0 9 with ids := [⟨.key, 5⟩] }
/-- The key present with another payload; the key new with room for one entry; the key new and no room. -/
theorem witness_NeighborLastWriteWins :
    idOf keyMsg .key = some 5
      ∧ ([⟨4, [], 0⟩, ⟨5, [], 0⟩] : List Neighbor).Pairwise (fun x y => x.key.toNat < y.key.toNat)
      ∧ (⟨5, [], 0⟩ ∈ ([⟨4, [], 0⟩, ⟨5, [], 0⟩] : List Neighbor) ∧ (⟨5, [], 0⟩ : Neighbor).key = 5)
      ∧ ((∀ n ∈ ([⟨4, [], 0⟩] : List Neighbor), n.key ≠ 5) ∧ ([⟨4, [], 0⟩] : List Neighbor).length < 2)
      ∧ 1 ≤ ([⟨4, [], 0⟩] : List Neighbor).length := by decide
theorem witness_SccDeduplicates :
    ([(1, 9), (2, 0)] : List (BitVec 16 × BitVec 8)).Pairwise (fun x y => sccBefore x y = true)
      ∧ ((2, 0) ∈ ([(1, 9), (2, 0)] : List (BitVec 16 × BitVec 8)))
      ∧ ((1, 8) ∉ ([(1, 9), (2, 0)] : List (BitVec 16 × BitVec 8)) ∧ 2 ≤ ([(1, 9), (2, 0)] : List (BitVec 16 × BitVec 8)).length)
      ∧ ([(1, 9), (2, 0)] : List (BitVec 16 × BitVec 8)).length < 3 := by decide
theorem witness_NotifiesExactlyChanges : AggOk referenceParams pushing.back.agg := witness_TableInvKept.1.agg

end Sys2Proof.Tests
end

