-- ==== Sys2Proof/Proofs/ConfigLocked.lean ====
section
/-! PROOF of O25: the parameters and the CFG and COR registers under every command. -/

namespace Sys2Proof.Machine

open Sys2Proof

/-! ## What the commands leave of the registers -/

/-- No command changes the parameters, whatever its effect (R8, R76). -/
theorem Effect.par_eq {s t : State} (h : Effect s t) : t.par = s.par := by
  cases h <;> simp

/-- The one effect that writes a CFG register needs a core that is not RUNNING (R77). -/
theorem Effect.cfg_eq_of_running {s t : State} (h : Effect s t) (hrun : s.status.run = .running) : t.cfg = s.cfg := by
  cases h with
  | cfg r v hidle => exact absurd hrun hidle
  | _ => simp

theorem execCfgWrite_cor {reg : BitVec 8} {v : Word} {s t : State} (h : execCfgWrite reg v s = .next t) : t.cor = s.cor := by
  unfold execCfgWrite at h
  split at h
  · split at h <;> cases h <;> simp
  all_goals cases h; simp

theorem execSetCorrection_cfg {sel : BitVec 16} {v : Word} {s t : State} (h : execSetCorrection sel v s = .next t) :
    t.cfg = s.cfg := by
  unfold execSetCorrection at h
  split at h
  · cases h; simp
  · split at h <;> cases h <;> simp

/-- Every command but CFG_WRITE and SET_CORRECTION leaves all registers that the host writes. -/
theorem exec_keeps_registers {i : Instr} {s t : State} (h : exec i s = .next t)
    (hcfg : ∀ n v, i ≠ .cfgWrite n v) (hcor : ∀ sel v, i ≠ .setCorrection sel v) : t.cfg = s.cfg ∧ t.cor = s.cor := by
  cases i with
  | cfgWrite n v => exact absurd rfl (hcfg n v)
  | setCorrection sel v => exact absurd rfl (hcor sel v)
  | nop => cases h; simp
  | stop => cases h; simp
  | summary t => cases h; simp
  | clearStatus m => cases h; simp
  | regRead a => simp only [exec, execRegRead] at h; split at h <;> cases h <;> simp
  | start => simp only [exec, execStart] at h; split at h <;> cases h <;> simp
  | pushReal xs => simp only [exec, execPushReal] at h; split at h <;> cases h <;> simp
  | pushComplex xs => simp only [exec, execPushComplex] at h; split at h <;> cases h <;> simp
  | sweep t => simp only [exec, execSweep] at h; split at h <;> cases h <;> simp

/-- Only SET_CORRECTION writes COR registers (R40, R134). -/
theorem exec_cor_of_ne_setCorrection {i : Instr} {s t : State} (h : exec i s = .next t)
    (hi : ∀ sel v, i ≠ .setCorrection sel v) : t.cor = s.cor := by
  by_cases hw : ∃ n v, i = .cfgWrite n v
  · obtain ⟨n, v, rfl⟩ := hw
    exact execCfgWrite_cor h
  · exact (exec_keeps_registers h (fun n v e => hw ⟨n, v, e⟩) hi).2

/-- Only CFG_WRITE writes CFG registers (R76). -/
theorem exec_cfg_of_ne_cfgWrite {i : Instr} {s t : State} (h : exec i s = .next t)
    (hi : ∀ n v, i ≠ .cfgWrite n v) : t.cfg = s.cfg := by
  by_cases hw : ∃ sel v, i = .setCorrection sel v
  · obtain ⟨sel, v, rfl⟩ := hw
    exact execSetCorrection_cfg h
  · exact (exec_keeps_registers h hi fun sel v e => hw ⟨sel, v, e⟩).1

/-- Settles O25: the parameters and the lock from the effects of a step, the two classes of registers from the command. -/
theorem configLocked : Obligations.ConfigLocked := by
  refine ⟨fun s t h => ?_, fun i s t h => ⟨exec_cor_of_ne_setCorrection h, exec_cfg_of_ne_cfgWrite h⟩⟩
  have heff := step_effect h
  refine ⟨by simpa using heff.par_eq, fun hrun => ?_⟩
  have hrun' : (consumeCommand s).status.run = .running := by simpa using hrun
  simpa using heff.cfg_eq_of_running hrun'

end Sys2Proof.Machine
end

