-- ==== Sys2Proof/Proofs/Transcendental.lean ====
section
/-! PROOF of O39: the laws of F_ATAN2, F_SIN and F_COS (R14). -/

namespace Sys2Proof.Machine

open Sys2Proof

/-! ## The transcendental functions -/

/-- Law (a): both operands zero, of either sign. -/
theorem fAtan2_zero_zero {y x : Word} (hy : isZero y = true) (hx : isZero x = true) : fAtan2 y x = 0 := by
  have hny : isNaN y = false := by rw [isNaN_eq_false, eq_of_beq hy]; exact Nat.zero_le _
  have hnx : isNaN x = false := by rw [isNaN_eq_false, eq_of_beq hx]; exact Nat.zero_le _
  simp [fAtan2, hny, hnx, hy, hx]

/-- SAT stays between minus its bound and its bound, for every value, a NaN included. -/
theorem satF_within (v : Word) {m : Word} (h : fle (fneg m) m = true) : within (fneg m) (satF v m) m :=
  clampF_within (isNaN_sane v) h

/-- Law (b): the two constant branches answer +0.0, and SAT bounds the free one. -/
theorem fAtan2_within {y x : Word} (hy : isNaN y = false) (hx : isNaN x = false) :
    within (fneg piF) (fAtan2 y x) piF := by
  have hzero : within (fneg piF) 0 piF := by unfold within; decide
  unfold fAtan2
  rw [if_neg (by simp [hy, hx])]
  split
  · exact hzero
  · split
    · exact hzero
    · exact satF_within _ (by decide)

/-- Law (c): on the positive real axis. -/
theorem fAtan2_zero_of_pos {x : Word} (hx : flt 0 x = true) : fAtan2 0 x = 0 := by
  obtain ⟨-, hnx, -⟩ := flt_iff.mp hx
  unfold fAtan2
  rw [if_neg (by simp [hnx])]
  split
  · rfl
  · rw [if_pos (by simpa using hx)]

/-- Law (d): a NaN operand gives a NaN. -/
theorem isNaN_fAtan2 {y x : Word} (h : isNaN y = true ∨ isNaN x = true) : isNaN (fAtan2 y x) = true := by
  have hor : (isNaN y || isNaN x) = true := by simpa using h
  rw [fAtan2, if_pos hor]
  decide

/-- Settles O39: one lemma per law of F_ATAN2; law (e) is how F_SIN and F_COS answer at +0.0. -/
theorem transcendentalLaws : Obligations.TranscendentalLaws :=
  ⟨fun _ _ => fAtan2_zero_zero, fun _ _ => fAtan2_within, fun _ => fAtan2_zero_of_pos, fun _ _ => isNaN_fAtan2, rfl, rfl⟩

end Sys2Proof.Machine
end

