-- ==== Sys2Proof/Proofs/Rounding.lean ====
section
/-! SUPPORT. `roundMag` is the nearest magnitude, ties to even, and infinite exactly from the overflow bound on (R12). -/

namespace Sys2Proof.Machine

open Sys2Proof

/-! ## Rounding to an integer, ties to even -/

/-- The integer nearest to `num / d`, the even one of two: the last step of `roundMag`. -/
def roundHalfEven (num d : Nat) : Nat :=
  if d < 2 * (num % d) || (2 * (num % d) == d && num / d % 2 == 1) then num / d + 1 else num / d

/-- Down up to the half, up from the half on; at the half to the even side. -/
theorem roundHalfEven_cases (num d : Nat) :
    (2 * (num % d) ≤ d ∧ (2 * (num % d) = d → num / d % 2 = 0) ∧ roundHalfEven num d = num / d)
      ∨ (d ≤ 2 * (num % d) ∧ (2 * (num % d) = d → num / d % 2 = 1) ∧ roundHalfEven num d = num / d + 1) := by
  unfold roundHalfEven
  split
  · next hup =>
    have hup' : d < 2 * (num % d) ∨ 2 * (num % d) = d ∧ num / d % 2 = 1 := by simpa using hup
    exact .inr ⟨by omega, by omega, rfl⟩
  · next hdown =>
    have hdown' : ¬ (d < 2 * (num % d) ∨ 2 * (num % d) = d ∧ num / d % 2 = 1) := by simpa using hdown
    exact .inl ⟨by omega, by omega, rfl⟩

theorem div_le_roundHalfEven (num d : Nat) : num / d ≤ roundHalfEven num d := by
  rcases roundHalfEven_cases num d with ⟨-, -, h⟩ | ⟨-, -, h⟩ <;> omega

theorem roundHalfEven_le_div_add_one (num d : Nat) : roundHalfEven num d ≤ num / d + 1 := by
  rcases roundHalfEven_cases num d with ⟨-, -, h⟩ | ⟨-, -, h⟩ <;> omega

/-- Where `0 ≤ r < d`, every multiple of `d` but 0 and `d` is at least `d` away from `r`. -/
theorem abs_multiple_sub {d r : Int} (hr : 0 ≤ r) (hrd : r < d) (e : Int) :
    e = 0 ∨ e = 1 ∨ d ≤ |e * d - r| := by
  have hd : 0 < d := by omega
  rcases (by omega : e ≤ -1 ∨ e = 0 ∨ e = 1 ∨ 2 ≤ e) with h | h | h | h
  · have hm : e * d ≤ -1 * d := mul_le_mul_of_nonneg_right h hd.le
    right; right
    rw [abs_of_nonpos (by omega)]
    omega
  · exact .inl h
  · exact .inr (.inl h)
  · have hm : 2 * d ≤ e * d := mul_le_mul_of_nonneg_right h hd.le
    right; right
    rw [abs_of_nonneg (by omega)]
    omega

/-- No integer is nearer, and one as near is the same or leaves the even choice to the result. -/
theorem roundHalfEven_nearest (num : Nat) {d : Nat} (hd : 0 < d) (j : Int) :
    |(roundHalfEven num d : Int) * d - num| ≤ |j * d - num|
      ∧ (|(roundHalfEven num d : Int) * d - num| = |j * d - num| →
          j = roundHalfEven num d ∨ roundHalfEven num d % 2 = 0) := by
  have hdiv : ((num / d : Nat) : Int) * d + ((num % d : Nat) : Int) = num := by
    exact_mod_cast (Nat.div_add_mod' num d)
  have hrd : num % d < d := Nat.mod_lt _ hd
  have hmod : (num % d : Nat) < (d : Int) := by exact_mod_cast hrd
  have hshift (k : Int) : k * d - num = (k - (num / d : Nat)) * d - (num % d : Nat) := by
    rw [← hdiv]; ring
  have hcases := abs_multiple_sub (Int.natCast_nonneg _) hmod (j - (num / d : Nat))
  have h0 : |(0 : Int) * d - (num % d : Nat)| = (num % d : Nat) := by
    rw [abs_of_nonpos (by omega)]; omega
  have h1 : |(1 : Int) * d - (num % d : Nat)| = d - (num % d : Nat) := by
    rw [abs_of_nonneg (by omega)]; omega
  rw [hshift j, hshift (roundHalfEven num d)]
  rcases roundHalfEven_cases num d with ⟨hhalf, htie, hm⟩ | ⟨hhalf, htie, hm⟩
  · rw [hm, sub_self, h0]
    rcases hcases with h | h | h
    · rw [h, h0]; omega
    · rw [h, h1]; omega
    · omega
  · rw [hm, show ((num / d + 1 : Nat) : Int) - (num / d : Nat) = 1 by push_cast; ring, h1]
    rcases hcases with h | h | h
    · rw [h, h0]; omega
    · rw [h, h1]; omega
    · omega

/-! ## The values of the magnitude patterns -/

/-- `units` of a pattern with magnitude `k`. -/
def magUnits (k : Nat) : Nat :=
  if k < 2 ^ 23 then k else (2 ^ 23 + k % 2 ^ 23) * 2 ^ (k / 2 ^ 23 - 1)

theorem units_eq_magUnits (w : Word) : units w = magUnits (mag w) := rfl

/-- A significand below 2^24 with a shift, as one pattern; a significand 2^24 carries into the exponent. -/
theorem magUnits_scaled {sh m : Nat} (hlow : sh = 0 ∨ 2 ^ 23 ≤ m) (hhigh : m ≤ 2 ^ 24) :
    magUnits (sh * 2 ^ 23 + m) = m * 2 ^ sh := by
  unfold magUnits
  split
  · obtain rfl : sh = 0 := by omega
    simp
  · rcases Nat.lt_or_ge m (2 ^ 24) with hm | hm
    · rw [show (sh * 2 ^ 23 + m) / 2 ^ 23 - 1 = sh by omega, show 2 ^ 23 + (sh * 2 ^ 23 + m) % 2 ^ 23 = m by omega]
    · obtain rfl : m = 2 ^ 24 := by omega
      rw [show (sh * 2 ^ 23 + 2 ^ 24) / 2 ^ 23 - 1 = sh + 1 by omega,
        show 2 ^ 23 + (sh * 2 ^ 23 + 2 ^ 24) % 2 ^ 23 = 2 ^ 23 by omega]
      ring

/-- Every value is a multiple of the spacing 2^sh, or lies below all patterns with that spacing. -/
theorem magUnits_multiple_or_lt (k sh : Nat) :
    (∃ j, magUnits k = j * 2 ^ sh) ∨ sh ≠ 0 ∧ magUnits k < 2 ^ 23 * 2 ^ sh := by
  by_cases hsh : sh = 0
  · exact .inl ⟨magUnits k, by simp [hsh]⟩
  unfold magUnits
  split
  · next hk => exact .inr ⟨hsh, hk.trans_le (Nat.le_mul_of_pos_right _ (by positivity))⟩
  · rcases Nat.lt_or_ge (k / 2 ^ 23 - 1) sh with he | he
    · refine .inr ⟨hsh, ?_⟩
      have hmono : 2 ^ (k / 2 ^ 23 - 1 + 1) ≤ 2 ^ sh := Nat.pow_le_pow_right (by norm_num) he
      rw [pow_succ] at hmono
      calc (2 ^ 23 + k % 2 ^ 23) * 2 ^ (k / 2 ^ 23 - 1)
          < 2 ^ 24 * 2 ^ (k / 2 ^ 23 - 1) := Nat.mul_lt_mul_of_pos_right (by omega) (by positivity)
        _ = 2 ^ 23 * (2 ^ (k / 2 ^ 23 - 1) * 2) := by ring
        _ ≤ 2 ^ 23 * 2 ^ sh := Nat.mul_le_mul_left _ hmono
    · left
      refine ⟨(2 ^ 23 + k % 2 ^ 23) * 2 ^ (k / 2 ^ 23 - 1 - sh), ?_⟩
      rw [mul_assoc, ← pow_add, Nat.sub_add_cancel he]

/-! ## Rounding a magnitude -/

/-- The shift that leaves 24 bits of `num / den`, none when it has fewer. -/
def roundShift (num den : Nat) : Nat := Nat.log2 (num / den) - 23

/-- The 24-bit significand of `roundMag`. -/
def roundSig (num den : Nat) : Nat := roundHalfEven num (den * 2 ^ roundShift num den)

theorem roundMag_eq (num den : Nat) :
    roundMag num den = min (roundShift num den * 2 ^ 23 + roundSig num den) infMag := rfl

theorem div_shift_lt (num den : Nat) : num / (den * 2 ^ roundShift num den) < 2 ^ 24 := by
  rw [← Nat.div_div_eq_div_mul, Nat.div_lt_iff_lt_mul (by positivity), ← pow_add]
  calc num / den < 2 ^ (Nat.log2 (num / den) + 1) := Nat.lt_log2_self
    _ ≤ 2 ^ (24 + roundShift num den) := Nat.pow_le_pow_right (by norm_num) (by unfold roundShift; omega)

theorem le_div_shift {num den : Nat} (h : roundShift num den ≠ 0) : 2 ^ 23 ≤ num / (den * 2 ^ roundShift num den) := by
  have hlog : 23 + roundShift num den = Nat.log2 (num / den) := by unfold roundShift at *; omega
  have hne : num / den ≠ 0 := by
    intro h0; rw [h0, Nat.log2_zero] at hlog; omega
  rw [← Nat.div_div_eq_div_mul, Nat.le_div_iff_mul_le (by positivity), ← pow_add, hlog]
  exact Nat.log2_self_le hne

theorem roundSig_le (num den : Nat) : roundSig num den ≤ 2 ^ 24 :=
  (roundHalfEven_le_div_add_one _ _).trans (div_shift_lt num den)

theorem roundShift_eq_zero_or_le_roundSig (num den : Nat) : roundShift num den = 0 ∨ 2 ^ 23 ≤ roundSig num den := by
  by_cases h : roundShift num den = 0
  · exact .inl h
  · exact .inr ((le_div_shift h).trans (div_le_roundHalfEven _ _))

theorem magUnits_roundMag {num den : Nat} (hfin : roundMag num den < infMag) :
    magUnits (roundMag num den) = roundSig num den * 2 ^ roundShift num den := by
  rw [roundMag_eq] at *
  rw [min_eq_left (by omega)]
  exact magUnits_scaled (roundShift_eq_zero_or_le_roundSig num den) (roundSig_le num den)

theorem roundMag_mod_two {num den : Nat} (hfin : roundMag num den < infMag) :
    roundMag num den % 2 = roundSig num den % 2 := by
  rw [roundMag_eq] at *
  omega

/-- Among the magnitudes, a finite result is nearest to `num / den`, ties to even. A magnitude with the spacing of the
result is the integer case; a smaller one is farther away than the least with that spacing. -/
theorem roundMag_nearest {num den : Nat} (hden : 0 < den) (hfin : roundMag num den < infMag) (k : Nat) :
    |(magUnits (roundMag num den) : Int) * den - num| ≤ |(magUnits k : Int) * den - num|
      ∧ (|(magUnits (roundMag num den) : Int) * den - num| = |(magUnits k : Int) * den - num| →
          magUnits k = magUnits (roundMag num den) ∨ roundMag num den % 2 = 0) := by
  rw [roundMag_mod_two hfin, magUnits_roundMag hfin]
  have hpow : 0 < 2 ^ roundShift num den := by positivity
  have hd : 0 < den * 2 ^ roundShift num den := Nat.mul_pos hden hpow
  have hscale (j : Nat) : ((j * 2 ^ roundShift num den : Nat) : Int) * den
      = (j : Int) * ((den * 2 ^ roundShift num den : Nat) : Int) := by push_cast; ring
  have hnearest := roundHalfEven_nearest num hd
  rw [hscale]
  rcases magUnits_multiple_or_lt k (roundShift num den) with ⟨j, hj⟩ | ⟨hsh, hlt⟩
  · obtain ⟨hle, htie⟩ := hnearest j
    rw [hj, hscale]
    refine ⟨hle, fun heq => (htie heq).imp_left fun h => ?_⟩
    rw [Int.ofNat_inj.mp h]; rfl
  · obtain ⟨hle, -⟩ := hnearest ((2 ^ 23 : Nat) : Int)
    have hfar : magUnits k * den < 2 ^ 23 * (den * 2 ^ roundShift num den) := by
      calc magUnits k * den < 2 ^ 23 * 2 ^ roundShift num den * den := Nat.mul_lt_mul_of_pos_right hlt hden
        _ = 2 ^ 23 * (den * 2 ^ roundShift num den) := by ring
    have hbelow : 2 ^ 23 * (den * 2 ^ roundShift num den) ≤ num :=
      (Nat.mul_le_mul_right _ (le_div_shift hsh)).trans (Nat.div_mul_le_self _ _)
    have hstrict : |((2 ^ 23 : Nat) : Int) * ((den * 2 ^ roundShift num den : Nat) : Int) - num|
        < |(magUnits k : Int) * den - num| := by
      rw [← Nat.cast_mul, ← Nat.cast_mul, abs_of_nonpos (by omega), abs_of_nonpos (by omega)]
      omega
    exact ⟨(hle.trans_lt hstrict).le, fun heq => absurd heq (hle.trans_lt hstrict).ne⟩

/-! ## The overflow bound -/

theorem roundHalfEven_le_of_lt_half {num D j : Nat} (h : num < (2 * j + 1) * D) : roundHalfEven num (2 * D) ≤ j := by
  have hdm := Nat.div_add_mod' num (2 * D)
  rcases Nat.lt_trichotomy (num / (2 * D)) j with hq | hq | hq
  · have := roundHalfEven_le_div_add_one num (2 * D); omega
  · have hr : num % (2 * D) < D := by rw [hq] at hdm; linarith
    rcases roundHalfEven_cases num (2 * D) with ⟨-, -, hm⟩ | ⟨hhalf, -, -⟩ <;> omega
  · have hnum : (j + 1) * (2 * D) ≤ num := (Nat.mul_le_mul_right _ hq).trans (Nat.div_mul_le_self _ _)
    linarith

/-- Half way above an odd integer the even one above it is chosen. -/
theorem lt_roundHalfEven_of_half_le {num D j : Nat} (hD : 0 < D) (hodd : j % 2 = 1) (h : (2 * j + 1) * D ≤ num) :
    j < roundHalfEven num (2 * D) := by
  have hdm := Nat.div_add_mod' num (2 * D)
  have hq : j ≤ num / (2 * D) := (Nat.le_div_iff_mul_le (by omega)).mpr (by linarith)
  rcases hq.eq_or_lt with hq | hq
  · have hr : D ≤ num % (2 * D) := by rw [← hq] at hdm; linarith
    rcases roundHalfEven_cases num (2 * D) with ⟨hhalf, htie, -⟩ | ⟨-, -, hm⟩ <;> omega
  · exact hq.trans_le (div_le_roundHalfEven _ _)

theorem roundShift_le {num den e : Nat} (hden : 0 < den) (h : num < 2 ^ (24 + e) * den) : roundShift num den ≤ e := by
  have hn : num / den < 2 ^ (24 + e) := (Nat.div_lt_iff_lt_mul hden).mpr h
  unfold roundShift
  by_cases h0 : num / den = 0
  · simp [h0]
  · have := (Nat.log2_lt h0).mpr hn; omega

theorem le_roundShift {num den e : Nat} (hden : 0 < den) (h : 2 ^ (23 + e) * den ≤ num) : e ≤ roundShift num den := by
  have hn : 2 ^ (23 + e) ≤ num / den := (Nat.le_div_iff_mul_le hden).mpr h
  have h0 : num / den ≠ 0 := (lt_of_lt_of_le (by positivity) hn).ne'
  have := (Nat.le_log2 h0).mpr hn
  unfold roundShift
  omega

/-- Below the largest finite value and a half of its last place, the result is finite. -/
theorem roundMag_lt_infMag {num den : Nat} (hden : 0 < den) (h : num < (2 ^ 25 - 1) * (2 ^ 252 * den)) :
    roundMag num den < infMag := by
  have hsh : roundShift num den ≤ 253 := by
    refine roundShift_le hden (h.trans_le ?_)
    rw [show 24 + 253 = 25 + 252 from rfl, pow_add, mul_assoc]
    exact Nat.mul_le_mul_right _ (by norm_num)
  have hsig := roundSig_le num den
  rw [roundMag_eq, infMag]
  refine (Nat.min_le_left _ _).trans_lt ?_
  rcases hsh.eq_or_lt with hsh | hsh
  · have hlt : roundSig num den ≤ 2 ^ 24 - 1 := by
      rw [roundSig, hsh, show den * 2 ^ 253 = 2 * (2 ^ 252 * den) by ring]
      exact roundHalfEven_le_of_lt_half h
    omega
  · omega

/-- From that bound on the result is infinite. -/
theorem roundMag_eq_infMag {num den : Nat} (hden : 0 < den) (h : (2 ^ 25 - 1) * (2 ^ 252 * den) ≤ num) :
    roundMag num den = infMag := by
  have hsh : 253 ≤ roundShift num den := by
    refine le_roundShift hden (le_trans ?_ h)
    rw [show 23 + 253 = 24 + 252 from rfl, pow_add, mul_assoc]
    exact Nat.mul_le_mul_right _ (by norm_num)
  have hsig : 2 ^ 23 ≤ roundSig num den := (roundShift_eq_zero_or_le_roundSig num den).resolve_left (by omega)
  rw [roundMag_eq, infMag]
  refine min_eq_right ?_
  rcases hsh.eq_or_lt with hsh | hsh
  · have hlt : 2 ^ 24 - 1 < roundSig num den := by
      rw [roundSig, ← hsh, show den * 2 ^ 253 = 2 * (2 ^ 252 * den) by ring]
      exact lt_roundHalfEven_of_half_le (by positivity) (by norm_num) h
    omega
  · omega

theorem overflowAt_mul (den : Nat) : overflowAt * den = (((2 ^ 25 - 1) * (2 ^ 252 * den) : Nat) : Int) := by
  unfold overflowAt; push_cast; ring

end Sys2Proof.Machine
end

