-- ==== Sys2Proof/Proofs/RoundsToNearest.lean ====
section
/-! PROOF of O38: sums and products of finite operands, rounded once (R12). -/

namespace Sys2Proof.Machine

open Sys2Proof

/-! ## Rounding a signed value -/

theorem natAbs_valueF (w : Word) : (valueF w).natAbs = magUnits (mag w) := by
  unfold valueF; split <;> simp [units_eq_magUnits]

theorem valueF_packF (neg : Bool) {m : Nat} (h : m < infMag) :
    valueF (packF neg m) = if neg then -(magUnits m : Int) else magUnits m := by
  have hm : m < 2 ^ 31 := h.trans (by decide)
  rw [valueF, signBit_packF neg hm, units_eq_magUnits, mag_packF neg hm]

theorem isFinite_packF (neg : Bool) {m : Nat} (h : m < infMag) : isFinite (packF neg m) = true := by
  rw [isFinite, mag_packF neg (h.trans (by decide))]
  exact decide_eq_true h

/-- `roundMag_nearest` against values of either sign: one of the other sign is farther away than 0. -/
theorem roundMag_nearest_signed {num den : Nat} (hden : 0 < den) (hfin : roundMag num den < infMag) {v : Int} {k : Nat}
    (hv : v.natAbs = magUnits k) :
    |(magUnits (roundMag num den) : Int) * den - num| ≤ |v * den - num|
      ∧ (|(magUnits (roundMag num den) : Int) * den - num| = |v * den - num| →
          v = magUnits (roundMag num den) ∨ roundMag num den % 2 = 0) := by
  rcases le_or_gt 0 v with hpos | hneg
  · obtain rfl : v = magUnits k := by omega
    exact_mod_cast roundMag_nearest hden hfin k
  · obtain ⟨hzero, -⟩ := roundMag_nearest hden hfin 0
    have hvd : v * den < 0 := mul_neg_of_neg_of_pos hneg (by exact_mod_cast hden)
    have h0 : |(magUnits 0 : Int) * den - num| = num := by simp [magUnits]
    have hfar : (num : Int) < |v * den - num| := by rw [abs_of_neg (by omega)]; omega
    have hlt := (hzero.trans_eq h0).trans_lt hfar
    exact ⟨hlt.le, fun heq => absurd heq hlt.ne⟩

/-- R12 for one result: `r` is `z / den` rounded once to nearest, ties to even, with overflow to the infinity of the
sign of `z`. -/
structure RoundedTo (z : Int) (den : Nat) (r : Word) : Prop where
  nearest : |z| < overflowAt * den → isFinite r = true ∧ ∀ w : Word, isFinite w = true →
    |valueF r * den - z| ≤ |valueF w * den - z|
      ∧ (|valueF r * den - z| = |valueF w * den - z| → valueF w = valueF r ∨ mag r % 2 = 0)
  posInf : overflowAt * den ≤ z → r = 0x7F800000
  negInf : z ≤ -(overflowAt * den) → r = 0xFF800000

theorem packF_roundMag_roundedTo (neg : Bool) (num : Nat) {den : Nat} (hden : 0 < den) :
    RoundedTo (if neg then -(num : Int) else num) den (packF neg (roundMag num den)) := by
  have hpos : 0 < (2 ^ 25 - 1) * (2 ^ 252 * den) := by positivity
  have habs : |if neg then -(num : Int) else num| = num := by cases neg <;> simp
  refine ⟨fun h => ?_, fun h => ?_, fun h => ?_⟩ <;> rw [overflowAt_mul] at h
  · rw [habs, Nat.cast_lt] at h
    have hfin := roundMag_lt_infMag hden h
    refine ⟨isFinite_packF neg hfin, fun w _ => ?_⟩
    rw [valueF_packF neg hfin, mag_packF neg (hfin.trans (by decide))]
    cases neg with
    | false => simpa using roundMag_nearest_signed hden hfin (natAbs_valueF w)
    | true =>
      have hflip (x : Int) : |x * den - -(num : Int)| = |-x * den - num| := by
        rw [← abs_neg]; congr 1; ring
      have hw : (-valueF w).natAbs = magUnits (mag w) := by rw [Int.natAbs_neg, natAbs_valueF]
      obtain ⟨hle, htie⟩ := roundMag_nearest_signed hden hfin hw
      simp only [if_true, hflip, neg_neg]
      exact ⟨hle, fun heq => (htie heq).imp_left neg_eq_iff_eq_neg.mp⟩
  · cases neg with
    | false => rw [roundMag_eq_infMag hden (Nat.cast_le.mp h)]; decide
    | true => simp only [if_true] at h; omega
  · cases neg with
    | false => simp only [Bool.false_eq_true, if_false] at h; omega
    | true => rw [roundMag_eq_infMag hden (by simp only [if_true] at h; omega)]; decide

/-! ## Sums and products -/

theorem isInf_of_isFinite {w : Word} (h : isFinite w = true) : isInf w = false := by
  simp [isInf, isFinite] at *; omega

theorem fadd_roundedTo {a b : Word} (ha : isFinite a = true) (hb : isFinite b = true) :
    RoundedTo (valueF a + valueF b) 1 (fadd a b) := by
  simp only [fadd, isNaN_of_isFinite ha, isNaN_of_isFinite hb, isInf_of_isFinite ha, isInf_of_isFinite hb, Bool.or_self,
    Bool.false_eq_true, if_false]
  split
  · next hzero =>
    rw [hzero]
    have hround : roundMag 0 1 = 0 := by decide
    -- an exact zero is packed unrounded, with a sign of its own
    simpa [hround] using packF_roundMag_roundedTo (signBit a && signBit b) 0 one_pos
  · next hne =>
    have hsign : (if decide (valueF a + valueF b < 0) then -((valueF a + valueF b).natAbs : Int)
        else (valueF a + valueF b).natAbs) = valueF a + valueF b := by
      by_cases hlt : valueF a + valueF b < 0
      · simp [hlt, abs_of_neg hlt]
      · simp [hlt, abs_of_nonneg (not_lt.mp hlt)]
    have h := packF_roundMag_roundedTo (decide (valueF a + valueF b < 0)) (valueF a + valueF b).natAbs one_pos
    rwa [hsign] at h

theorem valueF_mul (a b : Word) :
    valueF a * valueF b = if signBit a != signBit b then -((units a * units b : Nat) : Int) else (units a * units b : Nat) := by
  unfold valueF
  cases signBit a <;> cases signBit b <;> simp

theorem fmul_roundedTo {a b : Word} (ha : isFinite a = true) (hb : isFinite b = true) :
    RoundedTo (valueF a * valueF b) (2 ^ 149) (fmul a b) := by
  rw [valueF_mul]
  simp only [fmul, isNaN_of_isFinite ha, isNaN_of_isFinite hb, isInf_of_isFinite ha, isInf_of_isFinite hb, Bool.or_self,
    Bool.false_eq_true, if_false]
  exact packF_roundMag_roundedTo _ _ (by positivity)

/-- Settles O38: a sum is rounded in units of 2^-149, a product in units of 2^-298. -/
theorem roundsToNearest : Obligations.RoundsToNearest := by
  intro a b ha hb
  refine ⟨?_, ?_⟩
  · obtain ⟨hnear, hpos, hneg⟩ := fadd_roundedTo ha hb
    simp only [Nat.cast_one, mul_one] at hnear hpos hneg
    exact ⟨hnear, hpos, hneg⟩
  · obtain ⟨hnear, hpos, hneg⟩ := fmul_roundedTo ha hb
    rw [Nat.cast_pow, Nat.cast_ofNat] at hnear hpos hneg
    exact ⟨hnear, hpos, hneg⟩

end Sys2Proof.Machine
end

