-- ==== Sys2Proof/Proofs/RegRead.lean ====
section
/-! PROOF of O10: what REG_READ answers, and the value of every register. -/

namespace Sys2Proof.Machine

open Sys2Proof

/-! ## The operand -/

theorem regOfArg_of_le {a : BitVec 16} (h : a.toNat ≤ 0xFF) : regOfArg a = regOfNum (a.extractLsb' 0 8) := if_pos h

theorem regOfArg_eq_none {a : BitVec 16} (h : 0xFF < a.toNat ∨ regOfNum (a.extractLsb' 0 8) = none) :
    regOfArg a = none := by
  unfold regOfArg
  split
  · next hle => exact h.resolve_left (by omega)
  · rfl

theorem execRegRead_of_some {a : BitVec 16} {r : RegName} (h : regOfArg a = some r) (s : State) :
    execRegRead a s = .next (emitState (.response (readReg s r)) s) := by
  simp only [execRegRead, h]

theorem execRegRead_of_none {a : BitVec 16} (h : regOfArg a = none) (s : State) :
    execRegRead a s = .next (raiseStatus .badReg (emitState (.response 0) s)) := by
  simp only [execRegRead, h]

/-! ## Registers composed of fields -/

/-- Concatenation in numbers: the left part stands above the right one. -/
theorem toNat_append_add {m n : Nat} (x : BitVec m) (y : BitVec n) : (x ++ y).toNat = x.toNat * 2 ^ n + y.toNat := by
  rw [BitVec.toNat_append, ← Nat.shiftLeft_add_eq_or_of_lt y.isLt, Nat.shiftLeft_eq]

/-- STATUS by its fields at their bit positions (R22). -/
theorem statusWord_toNat (t : Status) :
    (statusWord t).toNat = (runCode t.run).toNat + 2 ^ 8 * t.illegalCmd.toNat + 2 ^ 9 * t.cmdRejected.toNat
      + 2 ^ 10 * t.badReg.toNat + 2 ^ 11 * t.badValue.toNat + 2 ^ 16 * t.cfgErrCode.toNat := by
  simp only [statusWord, toNat_append_add, BitVec.toNat_ofBool, BitVec.ofNat_eq_ofNat, BitVec.toNat_ofNat, Nat.zero_mod]
  omega

/-- CAPS0 by its fields at their bit positions (R24). -/
theorem caps0_toNat (p : Params) :
    (caps0 p).toNat = p.maxCalls % 2 ^ 8 + 2 ^ 8 * (p.maxNeighbors % 2 ^ 8) + 2 ^ 16 * (p.maxScc % 2 ^ 8)
      + 2 ^ 24 * (p.numBw % 2 ^ 8) := by
  simp only [caps0, toNat_append_add, BitVec.toNat_ofNat]
  omega

/-- The two halves of a 64-bit value make it up (R41, R66). -/
theorem toNat_halves (x : BitVec 64) :
    (x.extractLsb' 32 32).toNat * 2 ^ 32 + (x.extractLsb' 0 32).toNat = x.toNat := by
  simp only [BitVec.extractLsb'_toNat, Nat.shiftRight_eq_div_pow]
  omega

theorem framerState_zero_or_two {s : State} (h : FramerInv s) :
    readReg s (.ro .framerState) = 0 ∨ readReg s (.ro .framerState) = 2 := by
  change framerCode s.back.framer.fstate = 0 ∨ framerCode s.back.framer.fstate = 2
  exact h.framer.state.imp (fun hstate => by rw [hstate]; rfl) (fun hstate => by rw [hstate]; rfl)

/-- Settles O10: the two answers by the operand, then the registers composed of fields; every other register reads
one stored element. -/
theorem regReadEffect : Obligations.RegReadEffect := by
  intro a s
  refine ⟨fun r hle hr => execRegRead_of_some ((regOfArg_of_le hle).trans hr) s,
    fun hnone => execRegRead_of_none (regOfArg_eq_none hnone) s,
    statusWord_toNat s.status, toNat_halves s.back.cnt.sampleCount, caps0_toNat s.par,
    congrArg framerCode, congrArg framerCode, congrArg framerCode, congrArg framerCode,
    framerState_zero_or_two, rfl, rfl, rfl⟩

end Sys2Proof.Machine
end

