-- ==== Sys2Proof/Proofs/RunState.lean ====
section
/-! PROOF of O23: which commands change the run state. -/

namespace Sys2Proof.Machine

open Sys2Proof

/-! ## RUN_STATE and CFG_ERR_CODE -/

/-- RUN_STATE and CFG_ERR_CODE, the two fields of STATUS that are no sticky bit (R22). -/
def runFields (t : Status) : RunState × BitVec 8 := (t.run, t.cfgErrCode)

@[simp] theorem runFields_setCause (t : Status) (c : Cause) : runFields (setCause t c) = runFields t := by
  simp [runFields]

@[simp] theorem runFields_clearCauses (t : Status) (m : BitVec 4) : runFields (clearCauses t m) = runFields t := rfl

/-- Every command but START and STOP leaves both fields alone, performed or refused (R239). -/
theorem exec_runFields {i : Instr} {s t : State} (h : exec i s = .next t) (hstart : i ≠ .start) (hstop : i ≠ .stop) :
    runFields t.status = runFields s.status := by
  cases i with
  | start => exact absurd rfl hstart
  | stop => exact absurd rfl hstop
  | nop => cases h; rfl
  | summary t => cases h; rfl
  | clearStatus m => cases h; rfl
  | cfgWrite n v =>
    simp only [exec, execCfgWrite] at h
    split at h
    · split at h <;> cases h <;> simp
    all_goals cases h; simp
  | regRead a => simp only [exec, execRegRead] at h; split at h <;> cases h <;> simp
  | setCorrection sel v =>
    simp only [exec, execSetCorrection] at h
    split at h
    · cases h; simp
    · split at h <;> cases h <;> simp
  | pushReal xs => simp only [exec, execPushReal] at h; split at h <;> cases h <;> simp
  | pushComplex xs => simp only [exec, execPushComplex] at h; split at h <;> cases h <;> simp
  | sweep t => simp only [exec, execSweep] at h; split at h <;> cases h <;> simp

/-- START while RUNNING is refused. -/
theorem execStart_of_running {s : State} (hrun : s.status.run = .running) :
    execStart s = .next (raiseStatus .cmdRejected s) := if_pos hrun

/-- Settles O23. -/
theorem runStateChanges : Obligations.RunStateChanges := by
  intro i s t h
  refine ⟨fun hstart hstop => Prod.mk.inj (exec_runFields h hstart hstop), ?_, ?_⟩
  · rintro rfl hrun
    have ht := (execStart_of_running hrun).symm.trans h
    cases ht
    simpa using hrun
  · rintro rfl
    cases h
    rfl

end Sys2Proof.Machine
end

