-- ==== Sys2Proof/Proofs/TraceGrows.lean ====
section
/-! PROOF of O26: no step takes an event off the output trace. -/

namespace Sys2Proof.Machine

open Sys2Proof

/-! ## The output trace -/

@[simp] theorem sweepPending_trace (c : CfgRegs) (t : BitVec 64) (b : Backend) :
    (sweepPending c t b).trace = b.trace := by
  unfold sweepPending
  split
  · split <;> rfl
  · rfl

theorem sweepBack_trace_prefix (c : CfgRegs) (t : BitVec 64) (b : Backend) : b.trace <+: (sweepBack c t b).trace := by
  simp [sweepBack]

/-- Every effect of a command appends to the trace, or leaves it as it is (R58). -/
theorem Effect.trace_prefix {s t : State} (h : Effect s t) : s.back.trace <+: t.back.trace := by
  cases h with
  | real xs _ _ => exact pushSamples_trace _ s
  | complex xs _ _ => exact pushSamples_trace _ s
  | sweep t _ => exact sweepBack_trace_prefix s.cfg t s.back
  | _ => simp

/-- Settles O26. -/
theorem traceOnlyGrows : Obligations.TraceOnlyGrows := by
  intro s t h
  simpa using (step_effect h).trace_prefix

end Sys2Proof.Machine
end

