-- ==== Sys2Proof/Proofs/ConfigInvariant.lean ====
section
/-! PROOF of O28: a RUNNING core has a legal configuration, and CFG_ERR_CODE fits the run state. -/

namespace Sys2Proof.Machine

open Sys2Proof

/-! ## CheckConfig (R238) -/

theorem firstFailure_eq_zero_iff {n : Nat} (hn : n ≠ 0) (oks : List Bool) :
    firstFailure n oks = 0 ↔ ∀ ok ∈ oks, ok = true := by
  induction oks generalizing n with
  | nil => simp [firstFailure]
  | cons ok rest ih => cases ok <;> simp [firstFailure, hn, ih (Nat.succ_ne_zero n)]

theorem firstFailure_lt {n : Nat} (hn : 0 < n) (oks : List Bool) : firstFailure n oks < n + oks.length := by
  induction oks generalizing n with
  | nil => simpa [firstFailure] using hn
  | cons ok rest ih =>
    have hrest := ih (n := n + 1) (Nat.succ_pos n)
    simp only [firstFailure, List.length_cons]
    split <;> omega

theorem checkConfig_eq_zero_iff {p : Params} {c : CfgRegs} {k : CorRegs} :
    checkConfig p c k = 0 ↔ ∀ ok ∈ configChecks p c k, ok = true :=
  firstFailure_eq_zero_iff one_ne_zero _

theorem checkConfig_le (p : Params) (c : CfgRegs) (k : CorRegs) : checkConfig p c k ≤ 27 :=
  Nat.le_of_lt_succ (firstFailure_lt one_pos (configChecks p c k))

/-- The check of code i + 1 of a legal configuration. -/
theorem configCheck_of_legal {p : Params} {c : CfgRegs} {k : CorRegs} {ok : Bool} (h : checkConfig p c k = 0) (i : Nat)
    (hi : (configChecks p c k)[i]? = some ok) : ok = true :=
  checkConfig_eq_zero_iff.mp h ok (List.mem_of_getElem? hi)

/-- Code 27. -/
theorem timingPhase_lt_of_legal {p : Params} {c : CfgRegs} {k : CorRegs} (h : checkConfig p c k = 0) :
    k.timingPhase.toNat < c.sps.toNat :=
  of_decide_eq_true (configCheck_of_legal h 26 rfl)

/-- The COR registers matter to the last check only, which asks for TIMING_PHASE below SPS. -/
theorem legal_of_timingPhase_lt {p : Params} {c : CfgRegs} {k k' : CorRegs} (h : checkConfig p c k = 0)
    (hphase : k'.timingPhase.toNat < c.sps.toNat) : checkConfig p c k' = 0 := by
  have hlast : configChecks p c k' = (configChecks p c k).take 26 ++ [decide (k'.timingPhase.toNat < c.sps.toNat)] := rfl
  rw [checkConfig_eq_zero_iff] at h ⊢
  rw [hlast, List.forall_mem_append]
  exact ⟨fun ok hok => h ok (List.mem_of_mem_take hok), by simpa using hphase⟩

/-- SET_CORRECTION checks the TIMING_PHASE that it writes (R220). -/
theorem timingPhase_corSet_lt {c : CfgRegs} {k : CorRegs} {r : CorReg} {v : Word} (hv : corInRange c r v = true)
    (hk : k.timingPhase.toNat < c.sps.toNat) : (corSet k r v).timingPhase.toNat < c.sps.toNat := by
  cases r with
  | slicerOffset => exact hk
  | slicerSpan => exact hk
  | timingPhase => exact of_decide_eq_true hv

/-! ## What a command can do to the configuration -/

/-- The parameters, the registers that the host writes, the run state and its code. -/
structure SameConfig (s t : State) : Prop where
  par : t.par = s.par
  cfg : t.cfg = s.cfg
  cor : t.cor = s.cor
  run : t.status.run = s.status.run
  code : t.status.cfgErrCode = s.status.cfgErrCode

theorem SameConfig.consumeCommand (s : State) : SameConfig s (consumeCommand s) :=
  ⟨by simp, by simp, by simp, by simp, by simp⟩

theorem SameConfig.sampleStep (s : State) (x : Sample) : SameConfig s (sampleStep s x) := ⟨rfl, rfl, rfl, rfl, rfl⟩

theorem SameHost.sameConfig {s t : State} (h : SameHost s t) : SameConfig s t :=
  ⟨h.par, h.cfg, h.cor, by rw [h.status], by rw [h.status]⟩

/-- The ways a command writes the configuration: not at all, a CFG register outside RUNNING, a COR register after its
range check, START outside RUNNING, and STOP (R214, R216, R217, R220). -/
inductive ConfigEffect (s t : State) : Prop where
  | kept (h : SameConfig s t)
  | cfg (r : CfgReg) (v : Word) (hidle : s.status.run ≠ .running) (ht : t = { s with cfg := cfgSet s.cfg r v })
  | cor (r : CorReg) (v : Word) (hv : corInRange s.cfg r v = true) (ht : t = { s with cor := corSet s.cor r v })
  | start (hidle : s.status.run ≠ .running) (ht : t = startRun s)
  | stop (ht : t = clearPipeline { s with status := { s.status with run := .idle } })

theorem Effect.configEffect {s t : State} (h : Effect s t) : ConfigEffect s t := by
  cases h with
  | cfg r v hidle => exact .cfg r v hidle rfl
  | cor r v hv => exact .cor r v hv rfl
  | start hidle => exact .start hidle rfl
  | stop => exact .stop rfl
  | real xs _ _ => exact .kept (pushSamples_host _ s).sameConfig
  | complex xs _ _ => exact .kept (pushSamples_host _ s).sameConfig
  | _ => exact .kept ⟨rfl, rfl, rfl, by simp, by simp⟩

/-! ## The code of STATUS fits the run state -/

theorem ConfigInv.of_sameConfig {s t : State} (h : ConfigInv s) (ht : SameConfig s t) : ConfigInv t := by
  obtain ⟨hpar, hcfg, hcor, hrun, hcode⟩ := ht
  exact ⟨by rw [hpar, hcfg, hcor, hrun]; exact h.legal, by rw [hrun, hcode]; exact h.code,
    by rw [hrun, hcode]; exact h.failed, by rw [hcode]; exact h.bounded⟩

/-- A configuration that nothing checks while the core is not RUNNING. -/
theorem ConfigInv.of_not_running {s t : State} (h : ConfigInv s) (hrun : t.status.run ≠ .running)
    (hcode : t.status.cfgErrCode = s.status.cfgErrCode)
    (hfailed : t.status.run = .configError → s.status.run = .configError) : ConfigInv t :=
  ⟨fun hr => absurd hr hrun, fun hr => absurd hr hrun, fun hr => by rw [hcode]; exact h.failed (hfailed hr),
    by rw [hcode]; exact h.bounded⟩

/-- START establishes the invariant from any state: RUNNING with code 0, or CONFIG_ERROR with the code that failed
(R216). -/
theorem startRun_configInv (s : State) : ConfigInv (startRun s) := by
  have hle := checkConfig_le s.par s.cfg s.cor
  by_cases hlegal : checkConfig s.par s.cfg s.cor = 0
  · have hrun : (startRun s).status.run = .running := by simp [startStatus, hlegal]
    have hcode : (startRun s).status.cfgErrCode = 0 := by simp [startStatus, hlegal]
    refine ⟨fun _ => hlegal, fun _ => hcode, fun hr => ?_, by rw [hcode]; decide⟩
    exact absurd (hrun.symm.trans hr) (by decide)
  · have hrun : (startRun s).status.run = .configError := by simp [startStatus, hlegal]
    have hcode : (startRun s).status.cfgErrCode.toNat = checkConfig s.par s.cfg s.cor := by
      simp only [startRun_status, startStatus, if_neg hlegal, BitVec.toNat_ofNat]
      omega
    have hnot : (startRun s).status.run ≠ .running := by rw [hrun]; decide
    refine ⟨fun hr => absurd hr hnot, fun hr => absurd hr hnot, fun _ hzero => ?_, by rw [hcode]; exact hle⟩
    rw [hzero] at hcode
    exact hlegal hcode.symm

theorem ConfigInv.corSet {s : State} (h : ConfigInv s) {r : CorReg} {v : Word} (hv : corInRange s.cfg r v = true) :
    ConfigInv { s with cor := corSet s.cor r v } :=
  ⟨fun hrun => legal_of_timingPhase_lt (h.legal hrun) (timingPhase_corSet_lt hv (timingPhase_lt_of_legal (h.legal hrun))),
    h.code, h.failed, h.bounded⟩

theorem Effect.configInv {s t : State} (h : Effect s t) (hs : ConfigInv s) : ConfigInv t := by
  cases h.configEffect with
  | kept ht => exact hs.of_sameConfig ht
  | cfg r v hidle ht => subst ht; exact hs.of_not_running hidle rfl id
  | cor r v hv ht => subst ht; exact hs.corSet hv
  | start hidle ht => subst ht; exact startRun_configInv s
  | stop ht => subst ht; exact hs.of_not_running (by simp) rfl (by simp)

/-- Settles O28. -/
theorem configInvKept : Obligations.ConfigInvKept :=
  fun s _ hs h => (step_effect h).configInv (hs.of_sameConfig (.consumeCommand s))

end Sys2Proof.Machine
end

