-- ==== Sys2Proof/Proofs/CorRange.lean ====
section
/-! PROOF of O32: the COR registers stay in range. -/

namespace Sys2Proof.Machine

open Sys2Proof

/-! ## The ranges of the COR registers -/

theorem CorInv.of_sameConfig {s t : State} (h : CorInv s) (ht : SameConfig s t) : CorInv t := by
  obtain ⟨-, hcfg, hcor, hrun, -⟩ := ht
  exact ⟨by rw [hcor]; exact h.offset, by rw [hcor]; exact h.spanPositive, by rw [hcor]; exact h.spanUnit,
    by rw [hrun, hcor, hcfg]; exact h.phase⟩

theorem CorInv.corSet {s : State} (h : CorInv s) {r : CorReg} {v : Word} (hv : corInRange s.cfg r v = true) :
    CorInv { s with cor := corSet s.cor r v } := by
  have hphase := fun hrun => timingPhase_corSet_lt (k := s.cor) hv (h.phase hrun)
  cases r with
  | slicerOffset => exact ⟨hv, h.spanPositive, h.spanUnit, hphase⟩
  | slicerSpan =>
    obtain ⟨hpos, hunit⟩ := Bool.and_eq_true_iff.mp hv
    exact ⟨h.offset, hpos, hunit, hphase⟩
  | timingPhase => exact ⟨h.offset, h.spanPositive, h.spanUnit, hphase⟩

/-- START enters RUNNING only when check 27 passes. -/
theorem CorInv.startRun {s : State} (h : CorInv s) : CorInv (startRun s) :=
  ⟨h.offset, h.spanPositive, h.spanUnit, fun hrun => timingPhase_lt_of_legal ((startRun_configInv s).legal hrun)⟩

theorem Effect.corInv {s t : State} (h : Effect s t) (hs : CorInv s) : CorInv t := by
  cases h.configEffect with
  | kept ht => exact hs.of_sameConfig ht
  | cfg r v hidle ht =>
    subst ht
    exact ⟨hs.offset, hs.spanPositive, hs.spanUnit, fun hrun => absurd hrun hidle⟩
  | cor r v hv ht => subst ht; exact hs.corSet hv
  | start hidle ht => subst ht; exact hs.startRun
  | stop ht =>
    subst ht
    exact ⟨hs.offset, hs.spanPositive, hs.spanUnit, fun hrun => by simp at hrun⟩

/-- Settles O32. -/
theorem corInvKept : Obligations.CorInvKept :=
  fun s _ hs h => (step_effect h).corInv (hs.of_sameConfig (.consumeCommand s))

end Sys2Proof.Machine
end

