-- ==== Sys2Proof/Proofs/LineLengths.lean ====
section
/-! PROOF of O31: the delay lines, the envelope ring and the sample history keep their lengths. -/

namespace Sys2Proof.Machine

open Sys2Proof

/-! ## One sample -/

/-- A full line stays full: one value enters, the oldest leaves (R102). -/
theorem shiftLine_length {n : Nat} {line : List Word} (h : line.length = n) (x : Word) :
    (shiftLine n line x).length = n := by
  simp [shiftLine, h]

/-- A nonempty history loses its oldest entry to the new one (R104, R118). -/
theorem tail_append_singleton_length {α : Type} {l : List α} (h : 1 ≤ l.length) (x : α) :
    (l.tail ++ [x]).length = l.length := by
  simp only [List.length_append, List.length_tail, List.length_singleton]
  omega

section OneSample

variable {e : Env}

theorem condition_cfLineRe_length {c : Conditioner} (h : c.cfLineRe.length = e.par.maxTaps) (x : Sample) :
    (condition e c x).2.cfLineRe.length = e.par.maxTaps := by
  cases x with
  | real x => exact shiftLine_length h _
  | complex x => exact shiftLine_length h _

theorem condition_cfLineIm_length {c : Conditioner} (h : c.cfLineIm.length = e.par.maxTaps) (x : Sample) :
    (condition e c x).2.cfLineIm.length = e.par.maxTaps := by
  cases x with
  | real x => exact h
  | complex x => exact shiftLine_length h _

theorem condition_envRing_length {c : Conditioner} (h : 1 ≤ c.envRing.length) (x : Sample) :
    (condition e c x).2.envRing.length = c.envRing.length := by
  cases x with
  | real x => rfl
  | complex x => exact tail_append_singleton_length h _

/-- A property of the demodulator holds after one sample when the paths of R111 give it: C4FM on a real sample, CQPSK, and
C4FM on a complex sample, behind the discriminator. -/
theorem demodulate_cases {P : Demod → Prop} {m : Demod} (c : Conditioned)
    (hreal : ∀ d, P (symbolPath e m d).demod) (hcostas : ∀ z, P (costas e m z).demod)
    (hdisc : ∀ z d, P (symbolPath e (discriminate m z).2 d).demod) : P (demodulate e m c).demod := by
  cases c with
  | real y => exact hreal y
  | complex z =>
    simp only [demodulate]
    split
    · exact hcostas z
    · exact hdisc z _

theorem demodulate_sfLine_length {m : Demod} (h : m.sfLine.length = e.par.maxTaps) (c : Conditioned) :
    (demodulate e m c).demod.sfLine.length = e.par.maxTaps :=
  demodulate_cases (P := fun m' => m'.sfLine.length = e.par.maxTaps) c (fun _ => shiftLine_length h _) (fun _ => h)
    fun _ _ => shiftLine_length h _

theorem demodulate_rrcLineRe_length {m : Demod} (h : m.rrcLineRe.length = e.par.maxTaps) (c : Conditioned) :
    (demodulate e m c).demod.rrcLineRe.length = e.par.maxTaps :=
  demodulate_cases (P := fun m' => m'.rrcLineRe.length = e.par.maxTaps) c (fun _ => h) (fun _ => shiftLine_length h _)
    fun _ _ => h

theorem demodulate_rrcLineIm_length {m : Demod} (h : m.rrcLineIm.length = e.par.maxTaps) (c : Conditioned) :
    (demodulate e m c).demod.rrcLineIm.length = e.par.maxTaps :=
  demodulate_cases (P := fun m' => m'.rrcLineIm.length = e.par.maxTaps) c (fun _ => h) (fun _ => shiftLine_length h _)
    fun _ _ => h

theorem demodulate_zhist_length {m : Demod} (h : 1 ≤ m.zhist.length) (c : Conditioned) :
    (demodulate e m c).demod.zhist.length = m.zhist.length :=
  demodulate_cases (P := fun m' => m'.zhist.length = m.zhist.length) c (fun _ => rfl)
    (fun _ => tail_append_singleton_length h _) fun _ _ => rfl

end OneSample

/-! ## A legal configuration has a ring and a history -/

/-- Code 8 of R238. -/
theorem agcWindow_pos_of_legal {p : Params} {c : CfgRegs} {k : CorRegs} (h : checkConfig p c k = 0) :
    1 ≤ c.agcWindow.toNat :=
  (of_decide_eq_true (configCheck_of_legal h 7 rfl)).1

/-- The supported numbers of samples per symbol (R7). -/
theorem one_le_of_mem_spsSupported {p : Params} (hp : paramsOk p = true) {n : Nat} (hn : n ∈ p.spsSupported) : 1 ≤ n := by
  simp only [paramsOk, sizesOk, Bool.and_eq_true, and_assoc, List.all_eq_true, decide_eq_true_eq] at hp
  obtain ⟨-, -, -, -, -, -, hsps, -⟩ := hp
  exact (hsps n hn).1

/-- Code 5 of R238. -/
theorem sps_pos_of_legal {p : Params} {c : CfgRegs} {k : CorRegs} (hp : paramsOk p = true) (h : checkConfig p c k = 0) :
    1 ≤ c.sps.toNat :=
  one_le_of_mem_spsSupported hp (List.contains_iff_mem.mp (configCheck_of_legal h 4 rfl))

/-! ## The invariant -/

/-- A command that leaves the parameters, the conditioner and the demodulator alone, and the CFG registers while RUNNING. -/
theorem LineInv.of_same_pipeline {s t : State} (h : LineInv s) (hconfig : ConfigInv t) (hpar : t.par = s.par)
    (hcond : t.cond = s.cond) (hdemod : t.demod = s.demod)
    (hcfg : t.status.run = .running → s.status.run = .running ∧ t.cfg = s.cfg) : LineInv t := by
  constructor
  case params => rw [hpar]; exact h.params
  case config => exact hconfig
  case cfRe => rw [hcond, hpar]; exact h.cfRe
  case cfIm => rw [hcond, hpar]; exact h.cfIm
  case sf => rw [hdemod, hpar]; exact h.sf
  case rrcRe => rw [hdemod, hpar]; exact h.rrcRe
  case rrcIm => rw [hdemod, hpar]; exact h.rrcIm
  case ring =>
    intro hrun
    obtain ⟨hsrun, hsame⟩ := hcfg hrun
    rw [hcond, hsame]
    exact h.ring hsrun
  case hist =>
    intro hrun
    obtain ⟨hsrun, hsame⟩ := hcfg hrun
    rw [hdemod, hsame]
    exact h.hist hsrun

/-- A cleared pipeline has the lengths of its parameters and registers (R59). -/
theorem LineInv.of_cleared {s : State} (hparams : paramsOk s.par = true) (hconfig : ConfigInv s)
    (hcond : s.cond = conditionerCleared s.par s.cfg) (hdemod : s.demod = demodCleared s.par s.cfg) : LineInv s := by
  constructor
  case params => exact hparams
  case config => exact hconfig
  case cfRe => rw [hcond]; exact List.length_replicate
  case cfIm => rw [hcond]; exact List.length_replicate
  case sf => rw [hdemod]; exact List.length_replicate
  case rrcRe => rw [hdemod]; exact List.length_replicate
  case rrcIm => rw [hdemod]; exact List.length_replicate
  case ring => intro _; rw [hcond, conditionerCleared_envRing_length]
  case hist => intro _; rw [hdemod, demodCleared_zhist_length]

theorem sampleStep_lineInv {s : State} (x : Sample) (h : LineInv s) : LineInv (sampleStep s x) := by
  constructor
  case params => exact h.params
  case config => exact h.config.of_sameConfig (.sampleStep s x)
  case cfRe => exact condition_cfLineRe_length (e := s.env) h.cfRe x
  case cfIm => exact condition_cfLineIm_length (e := s.env) h.cfIm x
  case sf => exact demodulate_sfLine_length (e := s.env) h.sf _
  case rrcRe => exact demodulate_rrcLineRe_length (e := s.env) h.rrcRe _
  case rrcIm => exact demodulate_rrcLineIm_length (e := s.env) h.rrcIm _
  case ring =>
    intro hrun
    have hlen := h.ring hrun
    have hpos : 1 ≤ s.cond.envRing.length := by rw [hlen]; exact agcWindow_pos_of_legal (h.config.legal hrun)
    exact (condition_envRing_length hpos x).trans hlen
  case hist =>
    intro hrun
    have hlen := h.hist hrun
    have hpos : 1 ≤ s.demod.zhist.length := by rw [hlen]; exact sps_pos_of_legal h.params (h.config.legal hrun)
    exact (demodulate_zhist_length hpos _).trans hlen

theorem pushSamples_lineInv (xs : List Sample) {s : State} (h : LineInv s) : LineInv (pushSamples xs s) :=
  pushSamples_induction xs s h fun _ x _ ht => sampleStep_lineInv x ht

theorem Effect.lineInv {s t : State} (h : Effect s t) (hs : LineInv s) : LineInv t := by
  have hconfig := h.configInv hs.config
  cases h with
  | real xs _ _ => exact pushSamples_lineInv _ hs
  | complex xs _ _ => exact pushSamples_lineInv _ hs
  | start _ => exact .of_cleared hs.params hconfig rfl rfl
  | stop => exact .of_cleared hs.params hconfig rfl rfl
  | cfg r v hidle => exact hs.of_same_pipeline hconfig rfl rfl rfl fun hrun => absurd hrun hidle
  | _ => exact hs.of_same_pipeline hconfig rfl rfl rfl fun hrun => ⟨by simpa using hrun, rfl⟩

/-- Settles O31: consuming the command's words leaves the pipeline alone, and its effect keeps the lengths. -/
theorem lineInvKept : Obligations.LineInvKept := by
  intro s t hs h
  have hconsumed : LineInv (consumeCommand s) :=
    hs.of_same_pipeline (hs.config.of_sameConfig (.consumeCommand s)) (by simp) (by simp) (by simp) (by simp)
  exact (step_effect h).lineInv hconsumed

end Sys2Proof.Machine
end

