-- ==== Sys2Proof/Proofs/Reset.lean ====
section
/-! PROOF of O20, O21 and O37: the state after reset, its registers and its invariants. -/

namespace Sys2Proof.Machine

open Sys2Proof

/-! ## The reset state -/

theorem resetWith_pipelineCleared (p : Params) : PipelineCleared (State.resetWith p) := ⟨rfl, rfl, rfl, rfl, rfl⟩

theorem statusWord_statusReset : statusWord statusReset = 0 := by decide

/-- Settles O20. -/
theorem resetState : Obligations.ResetState :=
  ⟨fun p => ⟨rfl, rfl, statusWord_statusReset, rfl, resetWith_pipelineCleared p, rfl, rfl, rfl⟩, rfl⟩

/-- Settles O21: two lists of the map's rows agree, so they agree row by row; each of the 256 numbers is assigned or
not. -/
theorem resetRegisters : Obligations.ResetRegisters := by
  refine ⟨fun x hx => ⟨?_, ?_⟩, by decide +kernel⟩
  · exact List.map_inj_left (f := fun y => regOfNum y.1) (g := fun y => some y.2.1) |>.mp rfl x hx
  · exact List.map_inj_left (f := fun y => readReg State.reset y.2.1) (g := fun y => y.2.2) |>.mp rfl x hx

/-! ## The invariants, for every choice of legal parameters -/

/-- The reset state is IDLE, so what an invariant asks of a RUNNING core holds of it. -/
theorem resetWith_not_running {p : Params} {Q : Prop} (h : (State.resetWith p).status.run = .running) : Q := by cases h

theorem resetWith_configInv (p : Params) : ConfigInv (State.resetWith p) :=
  ⟨resetWith_not_running, resetWith_not_running, fun h => (by cases h), Nat.zero_le 27⟩

theorem resetWith_gainInv (p : Params) : GainInv (State.resetWith p) :=
  ⟨resetWith_configInv p, resetWith_not_running, resetWith_not_running⟩

theorem resetWith_feedbackInv (p : Params) : FeedbackInv (State.resetWith p) :=
  ⟨resetWith_configInv p, resetWith_not_running, resetWith_not_running⟩

theorem resetWith_lineInv {p : Params} (hp : paramsOk p = true) : LineInv (State.resetWith p) :=
  .of_cleared hp (resetWith_configInv p) rfl rfl

/-- The reset values of SLICER_OFFSET and SLICER_SPAN are in range (R40). -/
theorem corReset_inRange :
    isFinite corReset.slicerOffset = true ∧ flt 0 corReset.slicerSpan = true ∧ fle corReset.slicerSpan fOne = true := by
  decide

theorem resetWith_corInv (p : Params) : CorInv (State.resetWith p) := by
  obtain ⟨hoffset, hpos, hunit⟩ := corReset_inRange
  exact ⟨hoffset, hpos, hunit, resetWith_not_running⟩

theorem resetWith_symbolInv (p : Params) : SymbolInv (State.resetWith p) :=
  ⟨resetWith_configInv p, resetWith_not_running⟩

/-- The cleared framer is SEARCHING with nothing collected. -/
theorem framerCleared_ok (p : Params) : FramerOk p framerCleared where
  fill := Nat.zero_le _
  ring := Nat.zero_le _
  state := .inl rfl
  searching _ := ⟨rfl, rfl, rfl⟩
  even := rfl
  targetEven h := by cases h
  room h := by cases h
  fits h := by cases h
  phase h := by cases h

theorem resetWith_framerInv {p : Params} (hp : paramsOk p = true) : FramerInv (State.resetWith p) :=
  ⟨hp, framerCleared_ok p⟩

theorem channelsDistinct_replicate_none (n : Nat) : ChannelsDistinct (List.replicate n none) := by
  intro i j ci cj hi
  have hmem : some ci ∈ List.replicate n (none : Option Call) := List.mem_of_getElem? hi
  exact absurd (List.eq_of_mem_replicate hmem) (by simp)

/-- The cleared aggregator has closed slots and empty tables. -/
theorem aggCleared_ok (p : Params) : AggOk p (aggCleared p) where
  slots := List.length_replicate
  channels := channelsDistinct_replicate_none p.maxCalls
  neighborsFit := Nat.zero_le _
  neighborsSorted := .nil
  sccFit := Nat.zero_le _
  sccSorted := .nil

theorem resetWith_tableInv (p : Params) : TableInv (State.resetWith p) :=
  ⟨fun _ h => (by cases h), aggCleared_ok p⟩

/-- A framer that is not FRAMING has no header to remember. -/
theorem headerOk_of_not_framing {P : Profile} {f : Framer} (h : f.fstate ≠ .framing) : HeaderOk P f := by
  unfold HeaderOk
  split
  · exact fun hframing => absurd hframing h
  all_goals trivial

theorem resetWith_orphanInv {p : Params} (hp : paramsOk p = true) : OrphanInv (State.resetWith p) :=
  ⟨resetWith_framerInv hp, headerOk_of_not_framing (f := framerCleared) (by decide), rfl⟩

/-- The reference values meet the constraints of R7 and R8: a finite check. -/
theorem referenceParams_ok : paramsOk referenceParams = true := by decide +kernel

/-- Settles O37: the invariants of a reset core, at the reference parameters. -/
theorem invariantsAtReset : Obligations.InvariantsAtReset :=
  ⟨resetWith_configInv _, resetWith_gainInv _, resetWith_feedbackInv _, resetWith_lineInv referenceParams_ok,
    resetWith_corInv _, resetWith_symbolInv _, resetWith_framerInv referenceParams_ok, resetWith_tableInv _,
    resetWith_orphanInv referenceParams_ok⟩

end Sys2Proof.Machine
end

