-- ==== Sys2Proof/Proofs/FramerInvariant.lean ====
section
/-! PROOF of O34: the framer between two dibits, and its buffer. -/

namespace Sys2Proof.Machine

open Sys2Proof

/-! ## What a legal profile gives the framer (R8, R146, R147) -/

/-- Where PREFIX_LEN can stand: at an even number of bits, above 0 and within the buffer. -/
theorem prefixLen_of_paramsOk {p : Params} (hp : paramsOk p = true) :
    p.profile.prefixLen % 2 = 0 ∧ 2 ≤ p.profile.prefixLen ∧ p.profile.prefixLen ≤ p.maxFrameBits := by
  simp only [paramsOk, syncOk, framesOk, Bool.and_eq_true, and_assoc, decide_eq_true_eq] at hp
  obtain ⟨-, -, -, -, -, -, -, -, -, heven, hmin, -, -, -, -, hmax, -⟩ := hp
  exact ⟨heven, hmin, hmax⟩

theorem frameTypeOk_frameType {p : Params} (hp : paramsOk p = true) (t : BitVec 4) :
    frameTypeOk p (frameType p.profile t) = true := by
  simp only [paramsOk, framesOk, Bool.and_eq_true, and_assoc, List.all_eq_true] at hp
  obtain ⟨-, -, -, -, -, hall, -⟩ := hp
  unfold frameType
  rw [List.getD_eq_getElem?_getD]
  cases hget : p.profile.frameTypes[t.toNat]? with
  | none => rfl
  | some ft => exact hall ft (List.mem_of_getElem? hget)

/-- The payload of a raw frame: even, and it fits the buffer behind PREFIX_LEN bits. -/
theorem raw_fits {p : Params} (hp : paramsOk p = true) {t : BitVec 4} {len : Nat} {cat : Category}
    (ht : frameType p.profile t = .raw len cat) : len % 2 = 0 ∧ p.profile.prefixLen + len ≤ p.maxFrameBits := by
  have hok := frameTypeOk_frameType hp t
  simp only [ht, frameTypeOk, Bool.and_eq_true, and_assoc, decide_eq_true_eq] at hok
  obtain ⟨heven, hfits, -⟩ := hok
  exact ⟨heven, hfits⟩

/-- Blocks of BL bits, at least one and at most MB of them, fit the buffer behind PREFIX_LEN bits. -/
structure BlocksFit (p : Params) (bl mb : Nat) : Prop where
  even : bl % 2 = 0
  pos : 0 < bl
  nonempty : 0 < mb
  fits : p.profile.prefixLen + mb * bl ≤ p.maxFrameBits

theorem tsbk_fits {p : Params} (hp : paramsOk p = true) {t : BitVec 4} {bl mb ilv : Nat}
    (ht : frameType p.profile t = .tsbk bl mb ilv) : BlocksFit p bl mb := by
  have hok := frameTypeOk_frameType hp t
  simp only [ht, frameTypeOk, blocksOk, Bool.and_eq_true, and_assoc, decide_eq_true_eq] at hok
  obtain ⟨hmul, hmin, hfits, -, -, hmb, -⟩ := hok
  exact ⟨by omega, by omega, by omega, hfits⟩

theorem pdu_fits {p : Params} (hp : paramsOk p = true) {t : BitVec 4} {bl mb ilv : Nat}
    (ht : frameType p.profile t = .pdu bl mb ilv) : BlocksFit p bl mb := by
  have hok := frameTypeOk_frameType hp t
  simp only [ht, frameTypeOk, blocksOk, Bool.and_eq_true, and_assoc, decide_eq_true_eq] at hok
  obtain ⟨hmul, hmin, hfits, -, -, hmb, -⟩ := hok
  exact ⟨by omega, by omega, by omega, hfits⟩

/-! ## The phase of each frame type -/

section Phases

variable {P : Profile} {f : Framer}

theorem phaseOk_raw {len : Nat} {cat : Category} (ht : frameType P f.ftype = .raw len cat) :
    PhaseOk P f ↔ 0 < len ∧ f.target = P.prefixLen + len := by simp only [PhaseOk, ht]

theorem phaseOk_tsbk {bl mb ilv : Nat} (ht : frameType P f.ftype = .tsbk bl mb ilv) :
    PhaseOk P f ↔ f.blocks.length < mb ∧ f.target = P.prefixLen + (f.blocks.length + 1) * bl := by
  simp only [PhaseOk, ht]

theorem phaseOk_pdu {bl mb ilv : Nat} (ht : frameType P f.ftype = .pdu bl mb ilv) :
    PhaseOk P f ↔ f.target = P.prefixLen + (f.blocks.length + 1) * bl ∧ f.blocks.length < mb
      ∧ (f.blocks ≠ [] → f.blocks.length < f.expected ∧ f.expected ≤ mb) := by
  simp only [PhaseOk, ht]

theorem not_phaseOk_invalid (ht : frameType P f.ftype = .invalid) : ¬ PhaseOk P f := by
  simp only [PhaseOk, ht, not_false_eq_true]

end Phases

/-- A phase of the frame's type collects more than PREFIX_LEN bits. -/
theorem PhaseOk.prefixLen_lt {p : Params} (hp : paramsOk p = true) {f : Framer} (h : PhaseOk p.profile f) :
    p.profile.prefixLen < f.target := by
  have hblock {bl n : Nat} (hpos : 0 < bl) : 0 < (n + 1) * bl := Nat.mul_pos n.succ_pos hpos
  cases ht : frameType p.profile f.ftype with
  | invalid => exact absurd h (not_phaseOk_invalid ht)
  | raw len cat =>
    obtain ⟨hpos, htarget⟩ := (phaseOk_raw ht).mp h
    omega
  | tsbk bl mb ilv =>
    obtain ⟨-, htarget⟩ := (phaseOk_tsbk ht).mp h
    have := hblock (n := f.blocks.length) (tsbk_fits hp ht).pos
    omega
  | pdu bl mb ilv =>
    obtain ⟨htarget, -⟩ := (phaseOk_pdu ht).mp h
    have := hblock (n := f.blocks.length) (pdu_fits hp ht).pos
    omega

/-! ## A target reached (R148) -/

/-- The framer when Progress is called: FRAMING, with as many bits as the target asks for. -/
structure TargetReached (p : Params) (f : Framer) : Prop where
  fill : f.fill ≤ p.profile.syncLen
  ring : f.tsRing.length ≤ p.profile.syncLen / 2
  framing : f.fstate = .framing
  even : f.buf.length % 2 = 0
  full : f.buf.length = f.target

/-- A frame ends in SEARCHING, with nothing collected, whatever it was (R150, R151). -/
theorem toSearching_ok (p : Params) (f : Framer) : FramerOk p (toSearching f) where
  fill := Nat.zero_le _
  ring := Nat.zero_le _
  state := .inl rfl
  searching _ := ⟨rfl, rfl, rfl⟩
  even := rfl
  targetEven h := by cases h
  room h := by cases h
  fits h := by cases h
  phase h := by cases h

theorem emitFrame_ok (p : Params) (e : Env) (b : Backend) : FramerOk p (emitFrame e b).framer := by
  rw [emitFrame_framer]
  exact toSearching_ok p b.framer

/-- A frame goes on with a larger target that fits the buffer. -/
theorem TargetReached.framerOk {p : Params} {f : Framer} (h : TargetReached p f) {target : Nat}
    (heven : target % 2 = 0) (hroom : f.buf.length < target) (hfits : target ≤ p.maxFrameBits)
    (hphase : PhaseOk p.profile { f with target := target }) : FramerOk p { f with target := target } where
  fill := h.fill
  ring := h.ring
  state := .inr h.framing
  searching hs := by cases h.framing.symm.trans hs
  even := h.even
  targetEven _ := heven
  room _ := hroom
  fits _ := hfits
  phase _ := .inr hphase

/-- A frame goes on with one more block when it has not had MAX_BLOCKS. -/
theorem TargetReached.framerOk_block {p : Params} {f : Framer} (h : TargetReached p f) {bl mb target : Nat}
    (hp : paramsOk p = true) (hfit : BlocksFit p bl mb)
    (hbuf : f.buf.length = p.profile.prefixLen + f.blocks.length * bl) (hmore : f.blocks.length < mb)
    (htarget : target = p.profile.prefixLen + (f.blocks.length + 1) * bl)
    (hphase : PhaseOk p.profile { f with target := target }) : FramerOk p { f with target := target } := by
  have hnext : (f.blocks.length + 1) * bl = f.blocks.length * bl + bl := Nat.succ_mul ..
  have hle : (f.blocks.length + 1) * bl ≤ mb * bl := Nat.mul_le_mul_right bl hmore
  have hmod : (f.blocks.length + 1) * bl % 2 = 0 := by rw [Nat.mul_mod, hfit.even, mul_zero, Nat.zero_mod]
  have hpos := hfit.pos
  have hmax := hfit.fits
  obtain ⟨heven, -, -⟩ := prefixLen_of_paramsOk hp
  exact h.framerOk (by omega) (by omega) (by omega) hphase

/-- With PREFIX_LEN bits read, a frame of blocks collects its first. -/
theorem TargetReached.framerOk_firstBlock {p : Params} {f : Framer} (h : TargetReached p f) {bl mb : Nat}
    (hp : paramsOk p = true) (hfit : BlocksFit p bl mb) (hbuf : f.buf.length = p.profile.prefixLen) (hblocks : f.blocks = [])
    (hphase : f.blocks.length < mb → p.profile.prefixLen + bl = p.profile.prefixLen + (f.blocks.length + 1) * bl →
      PhaseOk p.profile { f with target := p.profile.prefixLen + bl }) :
    FramerOk p { f with target := p.profile.prefixLen + bl } := by
  have hmore : f.blocks.length < mb := by simpa [hblocks] using hfit.nonempty
  have htarget : p.profile.prefixLen + bl = p.profile.prefixLen + (f.blocks.length + 1) * bl := by simp [hblocks]
  exact h.framerOk_block hp hfit (by simpa [hblocks] using hbuf) hmore htarget (hphase hmore htarget)

/-! ## Progress (R148) -/

@[simp] theorem endOrContinue_framer (e : Env) (bl : Nat) (isEnd : Bool) (b : Backend) :
    (endOrContinue e bl isEnd b).framer =
      if isEnd then toSearching b.framer else { b.framer with target := b.framer.target + bl } := by
  unfold endOrContinue
  split
  · exact emitFrame_framer e b
  · rfl

/-- The block that completes a target of n + 1 blocks is block n. -/
theorem blockIndex_eq {P : Profile} {bl n : Nat} {f : Framer} (hpos : 0 < bl)
    (hbuf : f.buf.length = P.prefixLen + (n + 1) * bl) : blockIndex P bl f = n := by
  rw [blockIndex, hbuf, Nat.add_sub_cancel_left, Nat.mul_div_cancel _ hpos, Nat.add_sub_cancel]

theorem TargetReached.addBlock {p : Params} {b : Backend} (h : TargetReached p b.framer) (r : BlockResult) :
    TargetReached p (addBlock r b).framer :=
  ⟨h.fill, h.ring, h.framing, h.even, h.full⟩

section Progress

variable {e : Env} {b : Backend} {bl mb ilv : Nat}

/-- After a block, the frame ends or it collects the next one. -/
theorem endOrContinue_ok (hp : paramsOk e.par = true) (h : TargetReached e.par b.framer) (hfit : BlocksFit e.par bl mb)
    (hbuf : b.framer.buf.length = e.par.profile.prefixLen + b.framer.blocks.length * bl) {isEnd : Bool}
    (hmore : isEnd = false → b.framer.blocks.length < mb)
    (hphase : isEnd = false → b.framer.target + bl = e.par.profile.prefixLen + (b.framer.blocks.length + 1) * bl →
      PhaseOk e.par.profile { b.framer with target := b.framer.target + bl }) :
    FramerOk e.par (endOrContinue e bl isEnd b).framer := by
  rw [endOrContinue_framer]
  cases isEnd with
  | true => exact toSearching_ok ..
  | false =>
    have htarget : b.framer.target + bl = e.par.profile.prefixLen + (b.framer.blocks.length + 1) * bl := by
      rw [← h.full, hbuf, Nat.succ_mul, Nat.add_assoc]
    exact h.framerOk_block hp hfit hbuf (hmore rfl) htarget (hphase rfl htarget)

theorem progressTsbk_ok (hp : paramsOk e.par = true) (h : TargetReached e.par b.framer)
    (ht : frameType e.par.profile b.framer.ftype = .tsbk bl mb ilv) (hphase : PhaseOk e.par.profile b.framer) :
    FramerOk e.par (progressTsbk e bl mb ilv b).framer := by
  obtain ⟨hlt, htarget⟩ := (phaseOk_tsbk ht).mp hphase
  have hfit := tsbk_fits hp ht
  have hbuf := h.full.trans htarget
  refine endOrContinue_ok (mb := mb) hp (h.addBlock _) hfit (by simpa using hbuf) (fun hend => ?_) fun hend hnext => ?_
  all_goals
    rw [Bool.or_eq_false_iff, blockIndex_eq hfit.pos hbuf, beq_eq_false_iff_ne] at hend
    have hmore : b.framer.blocks.length + 1 < mb := lt_of_le_of_ne hlt hend.2
  · simpa using hmore
  · exact Iff.mpr (phaseOk_tsbk ht) ⟨by simpa using hmore, hnext⟩

/-- The header block, already added, is the one block of its frame. -/
theorem progressHeader_ok (hp : paramsOk e.par = true) (h : TargetReached e.par b.framer)
    (ht : frameType e.par.profile b.framer.ftype = .pdu bl mb ilv) (hone : b.framer.blocks.length = 1)
    (hbuf : b.framer.buf.length = e.par.profile.prefixLen + b.framer.blocks.length * bl) (r : BlockResult) :
    FramerOk e.par (progressHeader e bl mb r b).framer := by
  unfold progressHeader
  dsimp only
  split
  · exact emitFrame_ok ..
  split
  · exact toSearching_ok ..
  next hcount =>
    split
    · exact emitFrame_ok ..
    next hdata =>
      refine endOrContinue_ok hp ?reached (pdu_fits hp ht) ?filled (fun _ => ?_) fun _ hnext =>
        Iff.mpr (phaseOk_pdu ht) ⟨hnext, ?_, fun _ => ⟨?_, ?_⟩⟩
      case reached => exact ⟨h.fill, h.ring, h.framing, h.even, h.full⟩
      case filled => exact hbuf
      all_goals
        dsimp only
        omega

theorem progressPdu_ok (hp : paramsOk e.par = true) (h : TargetReached e.par b.framer)
    (ht : frameType e.par.profile b.framer.ftype = .pdu bl mb ilv) (hphase : PhaseOk e.par.profile b.framer) :
    FramerOk e.par (progressPdu e bl mb ilv b).framer := by
  obtain ⟨htarget, hlt, hexpected⟩ := (phaseOk_pdu ht).mp hphase
  have hfit := pdu_fits hp ht
  have hbuf := h.full.trans htarget
  unfold progressPdu
  simp only [blockIndex_eq hfit.pos hbuf]
  split
  next hzero => exact progressHeader_ok hp (h.addBlock _) ht (by simp [hzero]) (by simpa using hbuf) _
  next hdata =>
    obtain ⟨hbefore, hbound⟩ := hexpected (by simpa using hdata)
    refine endOrContinue_ok hp (h.addBlock _) hfit (by simpa using hbuf) (fun hend => ?_) fun hend hnext =>
      Iff.mpr (phaseOk_pdu ht) ⟨hnext, ?_, fun _ => ⟨?_, hbound⟩⟩
    all_goals
      rw [beq_eq_false_iff_ne] at hend
      simp only [addBlock_framer, List.length_append, List.length_singleton]
      omega

/-- With PREFIX_LEN bits read, the frame's type gives the next target (R146). -/
theorem progressPrefix_ok (hp : paramsOk e.par = true) (h : TargetReached e.par b.framer)
    (hbuf : b.framer.buf.length = e.par.profile.prefixLen) (hblocks : b.framer.blocks = []) :
    FramerOk e.par (progressPrefix e b).framer := by
  obtain ⟨heven, -, -⟩ := prefixLen_of_paramsOk hp
  unfold progressPrefix
  dsimp only
  generalize BitVec.ofNat 4 (field b.framer.buf e.par.profile.typePos e.par.profile.typeWidth) = t
  have h' : TargetReached e.par { b.framer with ftype := t } := ⟨h.fill, h.ring, h.framing, h.even, h.full⟩
  split
  next => exact toSearching_ok ..
  next len cat ht =>
    obtain ⟨hlen, hfits⟩ := raw_fits hp ht
    split
    · exact emitFrame_ok ..
    · refine h'.framerOk (by omega) ?_ hfits (Iff.mpr (phaseOk_raw ht) ⟨by omega, rfl⟩)
      dsimp only
      omega
  next bl mb ilv ht =>
    exact h'.framerOk_firstBlock hp (tsbk_fits hp ht) hbuf hblocks fun hmore htarget =>
      Iff.mpr (phaseOk_tsbk ht) ⟨hmore, htarget⟩
  next bl mb ilv ht =>
    exact h'.framerOk_firstBlock hp (pdu_fits hp ht) hbuf hblocks fun hmore htarget =>
      Iff.mpr (phaseOk_pdu ht) ⟨htarget, hmore, fun hne => absurd hblocks hne⟩

theorem progress_ok (hp : paramsOk e.par = true) (h : TargetReached e.par b.framer)
    (hphase : (b.framer.target = e.par.profile.prefixLen ∧ b.framer.blocks = []) ∨ PhaseOk e.par.profile b.framer) :
    FramerOk e.par (progress e b).framer := by
  have hfull := h.full
  unfold progress
  split
  next hbuf =>
    rcases hphase with ⟨-, hblocks⟩ | hphase
    · exact progressPrefix_ok hp h hbuf hblocks
    · have := hphase.prefixLen_lt hp
      omega
  next hbuf =>
    have hphase' : PhaseOk e.par.profile b.framer := hphase.resolve_left fun ⟨htarget, _⟩ => hbuf (hfull.trans htarget)
    split
    next => exact toSearching_ok ..
    next => exact emitFrame_ok ..
    next ht => exact progressTsbk_ok hp h ht hphase'
    next ht => exact progressPdu_ok hp h ht hphase'

end Progress

/-! ## One dibit (R140 to R145) -/

@[simp] theorem appendDibit_buf_length (d : Dibit) (f : Framer) : (appendDibit d f).buf.length = f.buf.length + 2 := by
  simp [appendDibit, bitsOfDibit]

theorem frameStep_ok {e : Env} {b : Backend} (hp : paramsOk e.par = true) (h : FramerOk e.par b.framer)
    (hframing : b.framer.fstate = .framing) (d : Dibit) : FramerOk e.par (frameStep e d b).framer := by
  have heven := h.even
  have htarget := h.targetEven hframing
  have hroom := h.room hframing
  have heven' : (appendDibit d b.framer).buf.length % 2 = 0 := by rw [appendDibit_buf_length]; omega
  unfold frameStep
  dsimp only
  split
  · exact ⟨h.fill, h.ring, h.state, h.searching, h.even, h.targetEven, h.room, h.fits, h.phase⟩
  split
  next hfull => exact progress_ok hp ⟨h.fill, h.ring, hframing, heven', hfull⟩ (h.phase hframing)
  next hnot =>
    refine ⟨h.fill, h.ring, h.state, fun hs => ?_, heven', h.targetEven, fun _ => ?_, h.fits, h.phase⟩
    · cases hframing.symm.trans hs
    · have hne : (appendDibit d b.framer).buf.length ≠ b.framer.target := hnot
      change (appendDibit d b.framer).buf.length < b.framer.target
      rw [appendDibit_buf_length] at hne ⊢
      omega

theorem pushTs_length {P : Profile} {ring : List (BitVec 64)} (h : ring.length ≤ P.syncLen / 2) (n : BitVec 64) :
    (pushTs P ring n).length ≤ P.syncLen / 2 := by
  unfold pushTs
  split
  · simpa using h
  · omega

/-- SEARCHING goes on with nothing collected, or a frame begins with PREFIX_LEN bits to collect (R141). -/
theorem searchStep_ok {e : Env} {b : Backend} (hp : paramsOk e.par = true) (h : FramerOk e.par b.framer)
    (hsearching : b.framer.fstate = .searching) (d : Dibit) (n : BitVec 64) :
    FramerOk e.par (searchStep e d n b).framer := by
  obtain ⟨heven, hmin, hmax⟩ := prefixLen_of_paramsOk hp
  have hfill : min (b.framer.fill + 2) e.par.profile.syncLen ≤ e.par.profile.syncLen := Nat.min_le_right ..
  have hring := pushTs_length h.ring n
  have hidle {Q : Prop} (hf : b.framer.fstate = .framing) : Q := by cases hsearching.symm.trans hf
  unfold searchStep
  dsimp only
  split
  · exact ⟨hfill, hring, .inr rfl, fun hs => (by cases hs), rfl, fun _ => heven, fun _ => Nat.lt_of_lt_of_le two_pos hmin,
      fun _ => hmax, fun _ => .inl ⟨rfl, rfl⟩⟩
  · exact ⟨hfill, hring, .inl hsearching, h.searching, h.even, hidle, hidle, hidle, hidle⟩

theorem framerStep_ok {e : Env} {b : Backend} (hp : paramsOk e.par = true) (h : FramerOk e.par b.framer) (d : Dibit)
    (n : BitVec 64) : FramerOk e.par (framerStep e d n b).framer := by
  unfold framerStep
  split
  next hs => exact searchStep_ok hp h hs d n
  next hf => exact frameStep_ok hp h hf d
  all_goals exact h

/-! ## Samples and commands -/

@[simp] theorem sendFeedback_framer (w : Option Word) (b : Backend) : (sendFeedback w b).framer = b.framer := by
  cases w <;> rfl

theorem strobeStep_ok {e : Env} {b : Backend} (hp : paramsOk e.par = true) (h : FramerOk e.par b.framer) (k : CorRegs)
    (soft : Word) (n : BitVec 64) : FramerOk e.par (strobeStep e k soft n b).framer := by
  unfold strobeStep
  split
  · exact framerStep_ok (b := { b with cnt.symbolCount := b.cnt.symbolCount + 1 }) hp h _ n
  · exact h

theorem sampleStep_framerInv {s : State} (x : Sample) (h : FramerInv s) : FramerInv (sampleStep s x) :=
  ⟨h.params, strobeStep_ok (e := s.env) h.params (by rw [sendFeedback_framer]; exact h.framer) ..⟩

theorem pushSamples_framerInv (xs : List Sample) {s : State} (h : FramerInv s) : FramerInv (pushSamples xs s) :=
  pushSamples_induction xs s h fun _ x _ ht => sampleStep_framerInv x ht

@[simp] theorem sweepPending_framer (c : CfgRegs) (t : BitVec 64) (b : Backend) :
    (sweepPending c t b).framer = b.framer := by
  unfold sweepPending
  split
  · split <;> rfl
  · rfl

@[simp] theorem sweepBack_framer (c : CfgRegs) (t : BitVec 64) (b : Backend) : (sweepBack c t b).framer = b.framer := by
  simp [sweepBack]

theorem FramerInv.of_same_framer {s t : State} (h : FramerInv s) (hpar : t.par = s.par)
    (hframer : t.back.framer = s.back.framer) : FramerInv t :=
  ⟨by rw [hpar]; exact h.params, by rw [hpar, hframer]; exact h.framer⟩

theorem FramerInv.bufferFits {s : State} (h : FramerInv s) : BufferFits s := by
  unfold BufferFits
  rcases h.framer.state with hs | hf
  · obtain ⟨hbuf, -, -⟩ := h.framer.searching hs
    simp [hbuf]
  · exact (h.framer.room hf).le.trans (h.framer.fits hf)

theorem Effect.framerInv {s t : State} (h : Effect s t) (hs : FramerInv s) : FramerInv t := by
  cases h with
  | real xs _ _ => exact pushSamples_framerInv _ hs
  | complex xs _ _ => exact pushSamples_framerInv _ hs
  | start _ => exact ⟨hs.params, framerCleared_ok _⟩
  | stop => exact ⟨hs.params, framerCleared_ok _⟩
  | sweep t _ => exact hs.of_same_framer rfl (sweepBack_framer ..)
  | _ => exact hs.of_same_framer rfl rfl

/-- Settles O34: one dibit keeps the framer in order, so every sample and every command does. -/
theorem framerInvKept : Obligations.FramerInvKept :=
  ⟨fun _ hs => hs.bufferFits, fun _ _ hs h => (step_effect h).framerInv (hs.of_same_framer (by simp) (by simp))⟩

end Sys2Proof.Machine
end

