-- ==== Sys2Proof/Proofs/Batches.lean ====
section
/-! PROOF of O27: the samples of two batches are the samples of one. -/

namespace Sys2Proof.Machine

open Sys2Proof

/-! ## A PUSH that is performed -/

theorem execPushReal_of_running {s : State} (hrun : s.status.run = .running) (hkind : s.cfg.inputKind = 1) (xs : List Word) :
    execPushReal xs s = .next (pushSamples (xs.map Sample.real) s) := if_pos ⟨hrun, hkind⟩

theorem execPushComplex_of_running {s : State} (hrun : s.status.run = .running) (hkind : s.cfg.inputKind = 0)
    (xs : List (Word × Word)) : execPushComplex xs s = .next (pushSamples (xs.map Sample.complex) s) := if_pos ⟨hrun, hkind⟩

/-- Settles O27: the samples leave RUNNING and INPUT_KIND alone, so the second PUSH is performed too, and the fold over the
samples splits at the batch boundary. -/
theorem batchesJoin : Obligations.BatchesJoin := by
  constructor
  · intro xs ys s hrun hkind
    refine ⟨_, _, execPushReal_of_running hrun hkind xs,
      execPushReal_of_running (by simpa using hrun) (by simpa using hkind) ys, ?_⟩
    rw [← pushSamples_append, ← List.map_append]
    exact execPushReal_of_running hrun hkind (xs ++ ys)
  · intro xs ys s hrun hkind
    refine ⟨_, _, execPushComplex_of_running hrun hkind xs,
      execPushComplex_of_running (by simpa using hrun) (by simpa using hkind) ys, ?_⟩
    rw [← pushSamples_append, ← List.map_append]
    exact execPushComplex_of_running hrun hkind (xs ++ ys)

end Sys2Proof.Machine
end

