-- ==== Sys2Proof/Proofs/CommandLength.lean ====
section
/-! SUPPORT. The fields, the legality and the length of a command word in the bit positions of R81, and the length of a
command that was decoded. -/

namespace Sys2Proof

open Machine (IllegalBits lengthRule)

/-! ## The fields of a command word (R81) -/

theorem opcodeOf_toNat (w : Word) : (opcodeOf w).toNat = w.toNat / 2 ^ 24 := by
  have hw : w.toNat / 2 ^ 24 < 2 ^ 8 := by have := w.isLt; omega
  rw [opcodeOf, BitVec.extractLsb'_toNat, Nat.shiftRight_eq_div_pow, Nat.mod_eq_of_lt hw]

theorem rsvOf_toNat (w : Word) : (rsvOf w).toNat = w.toNat / 2 ^ 16 % 2 ^ 8 := by
  rw [rsvOf, BitVec.extractLsb'_toNat, Nat.shiftRight_eq_div_pow]

theorem argOf_toNat (w : Word) : (argOf w).toNat = w.toNat % 2 ^ 16 := by
  rw [argOf, BitVec.extractLsb'_toNat, Nat.shiftRight_zero]

/-- The bits of ARG from bit k up. -/
theorem argOf_high_toNat (w : Word) {k n : Nat} (hk : k + n = 16) :
    ((argOf w).extractLsb' k n).toNat = w.toNat % 2 ^ 16 / 2 ^ k := by
  have hlt : w.toNat % 2 ^ 16 / 2 ^ k < 2 ^ n :=
    Nat.div_lt_of_lt_mul (by rw [← pow_add, hk]; exact Nat.mod_lt _ (by norm_num))
  rw [BitVec.extractLsb'_toNat, argOf_toNat, Nat.shiftRight_eq_div_pow, Nat.mod_eq_of_lt hlt]

/-- The decoder's test of a word is R85. -/
theorem illegalWord_iff (w : Word) : illegalWord w = true ↔ IllegalBits w := by
  simp only [illegalWord, argMustBeZero, Bool.or_eq_true, Bool.and_eq_true, decide_eq_true_eq, beq_iff_eq, bne_iff_ne,
    ne_eq, ← BitVec.toNat_inj, opcodeOf_toNat, rsvOf_toNat, argOf_toNat, argOf_high_toNat w (k := 8) (n := 8) rfl,
    argOf_high_toNat w (k := 4) (n := 12) rfl, IllegalBits, or_assoc]
  rfl

/-- The decoder's length of a command is that of R84. -/
theorem commandLength_eq_lengthRule (w : Word) : commandLength w = lengthRule w := by
  unfold commandLength lengthRule
  by_cases hill : IllegalBits w
  · rw [if_pos ((illegalWord_iff w).mpr hill), if_pos hill]
  · rw [if_neg (mt (illegalWord_iff w).mp hill), if_neg hill]
    unfold payloadWords
    rw [opcodeOf_toNat, argOf_toNat]
    split
    all_goals simp_all

/-! ## The words of a decoded command -/

/-- A command has the payload that its command word declares: one case per opcode (R82, R83). -/
theorem encode_length_of_assemble {w : Word} {payload : List Word} {i : Instr} (h : assemble w payload = some i)
    (hlen : payload.length = payloadWords w) : (encode i).length = 1 + payloadWords w := by
  unfold assemble at h
  split at h
  case h_7 hop =>
    have htwice : payload.length = 2 * (argOf w).toNat := by simpa [payloadWords, hop] using hlen
    obtain ⟨-, hpairs⟩ := flattenSamples_pairSamples _ payload htwice
    cases h
    simp [encode, payloadWords, hop, hpairs, Nat.add_comm]
  case h_6 hop =>
    cases h
    simp [encode, hlen, Nat.add_comm]
  case h_12 => cases h
  all_goals
    cases h
    simp [encode, payloadWords, *]

end Sys2Proof
end

