-- ==== Sys2Proof/Proofs/StreamSteps.lean ====
section
/-! PROOF of O4 and O6: what a step does with the words of the command stream. -/

namespace Sys2Proof.Machine

open Sys2Proof

/-! ## Consuming and decoding -/

/-- A command that decodes is consumed: the rest of the stream stays, and the position moves by the encoding's length
(R49, R70). -/
theorem consumeCommand_of_decode {s : State} {i : Instr} {rest : List Word} (h : decode s.cmdIn = .ok (i, rest)) :
    consumeCommand s = { s with cmdIn := rest, cmdPos := s.cmdPos + (encode i).length } := by
  obtain ⟨w, tail, hwords, hlegal, hlen, hcmd, hrest⟩ := decode_ok h
  have hcommand : commandLength w = 1 + payloadWords w := by simp [commandLength, hlegal]
  have hencode : (encode i).length = 1 + payloadWords w :=
    encode_length_of_assemble hcmd (List.length_take_of_le hlen)
  rw [consumeCommand_cons s w tail hwords, hcommand, hencode, consumeWords, hwords, hrest, Nat.add_comm 1, List.drop_succ_cons]

theorem step_of_decode {s : State} {i : Instr} {rest : List Word} (h : decode s.cmdIn = .ok (i, rest)) :
    step s = exec i (consumeCommand s) := by
  simp only [step, fetch, h]

/-- A legal word with fewer words behind it than R84 asks for. -/
theorem decode_truncated {w : Word} {ws : List Word} (h : 1 + ws.length < lengthRule w) :
    decode (w :: ws) = .error .truncated := by
  rw [← commandLength_eq_lengthRule, commandLength] at h
  cases hill : illegalWord w with
  | true => simp [hill] at h
  | false =>
    have hshort : ws.length < payloadWords w := by simpa [hill] using h
    simp [decode, hill, hshort]

/-- Settles O4: the state that the command's words leave is the one that the statement writes out. -/
theorem stepRunsDecoded : Obligations.StepRunsDecoded := by
  intro s i rest h
  rw [step_of_decode h, consumeCommand_of_decode h]

/-- Settles O6. -/
theorem streamEnds : Obligations.StreamEnds := by
  refine fun s => ⟨fun hend => ?_, fun w ws hwords hshort => ?_⟩
  · have hdecode : decode s.cmdIn = .error .endOfStream := by rw [hend]; rfl
    simp only [step, fetch, hdecode]
  · have hdecode : decode s.cmdIn = .error .truncated := by rw [hwords]; exact decode_truncated hshort
    simp only [step, fetch, hdecode]

end Sys2Proof.Machine
end

