-- ==== Sys2Proof/Proofs/DecodeEncode.lean ====
section
/-! PROOF of O1, O2 and O7: the decoder and the encoder are inverse to each other. -/

namespace Sys2Proof

/-! ## Decoding the words of a command -/

theorem decode_of_assemble {w : Word} {payload : List Word} {i : Instr} (hlegal : illegalWord w = false)
    (hlen : payload.length = payloadWords w) (hcmd : assemble w payload = some i) (rest : List Word) :
    decode (w :: (payload ++ rest)) = .ok (i, rest) := by
  have hcomplete : ¬ (payload ++ rest).length < payloadWords w := by rw [List.length_append]; omega
  simp only [decode, hlegal, Bool.false_eq_true, if_false, if_neg hcomplete, List.take_left' hlen, List.drop_left' hlen, hcmd]

/-- Every command's encoding has the shape that the decoder looks for. -/
theorem encodeLength (i : Instr) : Laws.EncodeLength.Statement i := by
  cases i with
  | nop => exact Laws.EncodeLength.nop
  | cfgWrite reg value => exact Laws.EncodeLength.cfgWrite reg value
  | regRead arg => exact Laws.EncodeLength.regRead arg
  | start => exact Laws.EncodeLength.start
  | stop => exact Laws.EncodeLength.stop
  | pushReal samples => exact Laws.EncodeLength.pushReal samples
  | pushComplex samples => exact Laws.EncodeLength.pushComplex samples
  | setCorrection sel value => exact Laws.EncodeLength.setCorrection sel value
  | sweep t => exact Laws.EncodeLength.sweep t
  | summary t => exact Laws.EncodeLength.summary t
  | clearStatus mask => exact Laws.EncodeLength.clearStatus mask

/-- Settles O1. -/
theorem decodeEncode : Obligations.DecodeEncode := by
  intro i rest hwf
  obtain ⟨w, payload, hwords, hlegal, hlen, hcmd⟩ := encodeLength i hwf
  rw [hwords]
  exact decode_of_assemble hlegal hlen hcmd rest

/-! ## Encoding what was decoded -/

/-- What R85 asks of the operand of a legal command word: the bits that its opcode does not use are 0. -/
theorem operand_of_legal {op : BitVec 8} {arg : BitVec 16} (h : illegalWord (commandWord op arg) = false) :
    (argMustBeZero op = true → arg = 0) ∧ (op = 0x01 → arg.extractLsb' 8 8 = 0)
      ∧ (op = 0x0A → arg.extractLsb' 4 12 = 0) := by
  simp only [illegalWord, opcodeOf_commandWord, argOf_commandWord, Bool.or_eq_false_iff, Bool.and_eq_false_imp,
    bne_eq_false_iff_eq, beq_iff_eq] at h
  obtain ⟨⟨⟨_, hzero⟩, hcfg⟩, hclear⟩ := h
  exact ⟨hzero, hcfg, hclear⟩

/-- A value whose high part is 0 is its low part. -/
theorem zero_append_extractLsb' {k n : Nat} {v : BitVec (k + n)} (h : v.extractLsb' n k = 0#k) :
    0#k ++ v.extractLsb' 0 n = v := by
  rw [← h]
  exact BitVec.extractLsb'_append_extractLsb'_eq_extractLsb' (by omega) |>.trans BitVec.extractLsb'_eq_self

/-- The two payload words of a time (R66, R83). -/
theorem wordsOfTime_of_length {payload : List Word} (h : payload.length = 2) :
    wordsOfTime (timeOfWords (payload.headD 0) (payload.tail.headD 0)) = payload := by
  obtain ⟨lo, hi, rfl⟩ := List.length_eq_two.mp h
  exact wordsOfTime_timeOfWords lo hi

theorem singleton_headD_of_length {payload : List Word} (h : payload.length = 1) : [payload.headD 0] = payload := by
  obtain ⟨v, rfl⟩ := List.length_eq_one_iff.mp h
  rfl

/-- The command that a legal word and its payload assemble to encodes as these words: one case per opcode. -/
theorem encode_of_assemble {op : BitVec 8} {arg : BitVec 16} {payload : List Word} {i : Instr}
    (hlegal : illegalWord (commandWord op arg) = false) (hlen : payload.length = payloadWords (commandWord op arg))
    (hcmd : assemble (commandWord op arg) payload = some i) :
    i.WellFormed = true ∧ encode i = commandWord op arg :: payload := by
  obtain ⟨hzero, hcfg, hclear⟩ := operand_of_legal hlegal
  simp only [payloadWords, opcodeOf_commandWord, argOf_commandWord] at hlen
  simp only [assemble, opcodeOf_commandWord, argOf_commandWord] at hcmd
  split at hcmd <;> cases hcmd
  next hop => -- NOP
    obtain rfl := BitVec.eq_of_toNat_eq (y := (0x00 : BitVec 8)) hop
    exact ⟨rfl, by rw [List.length_eq_zero_iff.mp hlen, hzero rfl]; rfl⟩
  next hop => -- CFG_WRITE
    obtain rfl := BitVec.eq_of_toNat_eq (y := (0x01 : BitVec 8)) hop
    have harg := zero_append_extractLsb' (k := 8) (n := 8) (hcfg rfl)
    exact ⟨rfl, by rw [encode, singleton_headD_of_length hlen]; exact congrArg (commandWord 0x01 · :: payload) harg⟩
  next hop => -- REG_READ
    obtain rfl := BitVec.eq_of_toNat_eq (y := (0x02 : BitVec 8)) hop
    exact ⟨rfl, by rw [List.length_eq_zero_iff.mp hlen]; rfl⟩
  next hop => -- START
    obtain rfl := BitVec.eq_of_toNat_eq (y := (0x03 : BitVec 8)) hop
    exact ⟨rfl, by rw [List.length_eq_zero_iff.mp hlen, hzero rfl]; rfl⟩
  next hop => -- STOP
    obtain rfl := BitVec.eq_of_toNat_eq (y := (0x04 : BitVec 8)) hop
    exact ⟨rfl, by rw [List.length_eq_zero_iff.mp hlen, hzero rfl]; rfl⟩
  next hop => -- PUSH_REAL
    obtain rfl := BitVec.eq_of_toNat_eq (y := (0x05 : BitVec 8)) hop
    have hcount : payload.length = arg.toNat := hlen
    exact ⟨decide_eq_true (hcount ▸ arg.isLt), by rw [encode, hcount, BitVec.ofNat_toNat, BitVec.setWidth_eq]⟩
  next hop => -- PUSH_COMPLEX
    obtain rfl := BitVec.eq_of_toNat_eq (y := (0x06 : BitVec 8)) hop
    obtain ⟨hwords, hcount⟩ := flattenSamples_pairSamples arg.toNat payload hlen
    exact ⟨decide_eq_true (hcount ▸ arg.isLt), by rw [encode, hwords, hcount, BitVec.ofNat_toNat, BitVec.setWidth_eq]⟩
  next hop => -- SET_CORRECTION
    obtain rfl := BitVec.eq_of_toNat_eq (y := (0x07 : BitVec 8)) hop
    exact ⟨rfl, by rw [encode, singleton_headD_of_length hlen]⟩
  next hop => -- SWEEP
    obtain rfl := BitVec.eq_of_toNat_eq (y := (0x08 : BitVec 8)) hop
    exact ⟨rfl, by rw [encode, wordsOfTime_of_length hlen, hzero rfl]⟩
  next hop => -- SUMMARY
    obtain rfl := BitVec.eq_of_toNat_eq (y := (0x09 : BitVec 8)) hop
    exact ⟨rfl, by rw [encode, wordsOfTime_of_length hlen, hzero rfl]⟩
  next hop => -- CLEAR_STATUS
    obtain rfl := BitVec.eq_of_toNat_eq (y := (0x0A : BitVec 8)) hop
    have harg := zero_append_extractLsb' (k := 12) (n := 4) (hclear rfl)
    exact ⟨rfl, by rw [List.length_eq_zero_iff.mp hlen]; exact congrArg ([commandWord 0x0A ·]) harg⟩

theorem rsvOf_of_legal {w : Word} (h : illegalWord w = false) : rsvOf w = 0 := by
  simp only [illegalWord, Bool.or_eq_false_iff, bne_eq_false_iff_eq] at h
  obtain ⟨⟨⟨⟨_, hrsv⟩, _⟩, _⟩, _⟩ := h
  exact hrsv

/-- Settles O2: a legal word is its opcode and its operand, so the case of its opcode gives back every bit. -/
theorem encodeDecode : Obligations.EncodeDecode := by
  intro ws i rest h
  obtain ⟨w, tail, rfl, hlegal, hlen, hcmd, rfl⟩ := decode_ok h
  have hw := commandWord_of_rsv (rsvOf_of_legal hlegal)
  rw [← hw] at hlegal hcmd
  obtain ⟨hwf, hencode⟩ := encode_of_assemble hlegal (by rw [hw]; exact List.length_take_of_le hlen) hcmd
  rw [hencode, hw, List.cons_append, List.take_append_drop]
  exact ⟨hwf, rfl⟩

/-- Settles O7: the words are the encodings of the commands. -/
theorem decodedWords : Obligations.DecodedWords :=
  ⟨decodeEncode .nop [] rfl, decodeEncode (.cfgWrite 0x13 1) [] rfl, decodeEncode (.regRead 2) [] rfl,
    decodeEncode .start [] rfl, decodeEncode .stop [] rfl,
    decodeEncode (.pushReal [0x40400000, 0xBF800000]) [] rfl,
    decodeEncode (.pushComplex [(0x3F800000, 0x40000000)]) [] rfl,
    decodeEncode (.setCorrection 1 0x3F000000) [] rfl, decodeEncode (.sweep 0x000000010000BB80) [] rfl,
    decodeEncode (.summary 0x000000010000BB80) [] rfl, decodeEncode (.clearStatus 0xF) [] rfl⟩

end Sys2Proof
end

