-- ==== Sys2Proof/Proofs/CommandConsumed.lean ====
section
/-! PROOF of O3 and O5: what a step does with an illegal word, and that it consumes a complete command whole. -/

namespace Sys2Proof.Machine

open Sys2Proof

/-! ## What decodes and what does not -/

theorem decode_of_illegal {w : Word} (h : IllegalBits w) (ws : List Word) : decode (w :: ws) = .error .illegal :=
  if_pos ((illegalWord_iff w).mpr h)

/-- A legal word with its payload behind it always decodes, whatever the payload holds. -/
theorem decode_of_complete {w : Word} {ws : List Word} (hlegal : ¬ IllegalBits w) (hlen : lengthRule w ≤ 1 + ws.length) :
    ∃ i rest, decode (w :: ws) = .ok (i, rest) := by
  have hword : illegalWord w = false := Bool.eq_false_iff.mpr (mt (illegalWord_iff w).mp hlegal)
  have hcomplete : ¬ ws.length < payloadWords w := by
    rw [← commandLength_eq_lengthRule, commandLength, hword, if_neg Bool.false_ne_true] at hlen
    omega
  obtain ⟨i, hcmd⟩ := Option.isSome_iff_exists.mp (assemble_isSome hword (ws.take (payloadWords w)))
  exact ⟨i, ws.drop (payloadWords w), by simp only [decode, hword, Bool.false_eq_true, if_false, if_neg hcomplete, hcmd]⟩

theorem decode_ne_illegal {w : Word} (hlegal : ¬ IllegalBits w) (ws : List Word) :
    decode (w :: ws) ≠ .error .illegal := by
  intro hill
  by_cases hlen : lengthRule w ≤ 1 + ws.length
  · obtain ⟨i, rest, hok⟩ := decode_of_complete hlegal hlen
    cases hok.symm.trans hill
  · cases (decode_truncated (Nat.lt_of_not_le hlen)).symm.trans hill

/-! ## Consuming by the length of R84 -/

theorem consumeCommand_by_lengthRule {s : State} {w : Word} {ws : List Word} (h : s.cmdIn = w :: ws) :
    consumeCommand s = consumeWords (lengthRule w) s := by
  rw [consumeCommand_cons s w ws h, commandLength_eq_lengthRule]

theorem lengthRule_pos (w : Word) : 1 ≤ lengthRule w := by
  rw [← commandLength_eq_lengthRule, commandLength]
  split <;> omega

/-- Settles O3. -/
theorem illegalWords : Obligations.IllegalWords := by
  refine fun s w ws hwords => ⟨fun hill => ?_, fun hlegal => hwords ▸ decode_ne_illegal hlegal ws⟩
  have hdecode : decode s.cmdIn = .error .illegal := hwords ▸ decode_of_illegal hill ws
  have hone : lengthRule w = 1 := if_pos hill
  have hstep : step s = .next (illegalCommand s) := by simp only [step, fetch, hdecode]
  rw [hstep, illegalCommand, consumeCommand_by_lengthRule hwords, hone, consumeWords, hwords]
  rfl

/-! ## Every command completes -/

/-- A command is performed or refused: it never stops the machine. -/
theorem exec_next (i : Instr) (s : State) : ∃ t, exec i s = .next t := by
  cases i with
  | nop => exact ⟨_, rfl⟩
  | stop => exact ⟨_, rfl⟩
  | summary t => exact ⟨_, rfl⟩
  | clearStatus mask => exact ⟨_, rfl⟩
  | cfgWrite reg value =>
    simp only [exec, execCfgWrite]
    split
    · split <;> exact ⟨_, rfl⟩
    all_goals exact ⟨_, rfl⟩
  | regRead arg => simp only [exec, execRegRead]; split <;> exact ⟨_, rfl⟩
  | start => simp only [exec, execStart]; split <;> exact ⟨_, rfl⟩
  | pushReal samples => simp only [exec, execPushReal]; split <;> exact ⟨_, rfl⟩
  | pushComplex samples => simp only [exec, execPushComplex]; split <;> exact ⟨_, rfl⟩
  | setCorrection sel value =>
    simp only [exec, execSetCorrection]
    split
    · exact ⟨_, rfl⟩
    · split <;> exact ⟨_, rfl⟩
  | sweep t => simp only [exec, execSweep]; split <;> exact ⟨_, rfl⟩

/-- No command's meaning touches the command stream: its words were consumed before it (R212). -/
theorem Effect.stream_eq {s t : State} (h : Effect s t) : t.cmdIn = s.cmdIn ∧ t.cmdPos = s.cmdPos := by
  cases h <;> simp

/-- A complete command, legal or not, leads to a next state. -/
theorem step_of_complete {s : State} {w : Word} {ws : List Word} (hwords : s.cmdIn = w :: ws)
    (hlen : lengthRule w ≤ 1 + ws.length) : ∃ t, step s = .next t := by
  by_cases hill : IllegalBits w
  · exact ⟨_, (illegalWords s w ws hwords).1 hill⟩
  · obtain ⟨i, rest, hdecode⟩ := decode_of_complete hill hlen
    rw [step_of_decode (hwords ▸ hdecode)]
    exact exec_next i (consumeCommand s)

/-- Settles O5: the step answers a state, and every effect leaves the stream as consuming the command left it. -/
theorem stepConsumesCommand : Obligations.StepConsumesCommand := by
  intro s w ws hwords hlen
  obtain ⟨t, ht⟩ := step_of_complete hwords hlen
  obtain ⟨hin, hpos⟩ := (step_effect ht).stream_eq
  rw [consumeCommand_by_lengthRule hwords] at hin hpos
  refine ⟨t, ht, ?_, hpos⟩
  obtain ⟨n, hn⟩ := Nat.exists_eq_add_of_le' (lengthRule_pos w)
  rw [hin, consumeWords_cmdIn, hwords, hn, List.drop_succ_cons, Nat.add_sub_cancel]

end Sys2Proof.Machine
end

