-- ==== Sys2Proof/Proofs/PayloadPacking.lean ====
section
/-! SUPPORT. Payload packing: where each bit of a bit buffer stands in the packed words (R9, R65, R94). -/

namespace Sys2Proof.Machine

open Sys2Proof

/-! ## The unsigned integer of a bit buffer (R9) -/

@[simp] theorem natOfBits_append_singleton (b : Bits) (x : Bool) : natOfBits (b ++ [x]) = 2 * natOfBits b + x.toNat := by
  simp only [natOfBits, List.foldl_append, List.foldl_cons, List.foldl_nil]

/-- The last bit of a buffer is the integer's bit 0. -/
theorem natOfBits_testBit (b : Bits) (j : Nat) : (natOfBits b).testBit j = b.reverse.getD j false := by
  induction b using List.reverseRecOn generalizing j with
  | nil => simp [natOfBits]
  | append_singleton b x ih =>
    have hbit : natOfBits (b ++ [x]) = Nat.bit x (natOfBits b) := by
      rw [natOfBits_append_singleton, Nat.bit_val]
    rw [hbit, List.reverse_concat]
    cases j with
    | zero => exact Nat.testBit_bit_zero x _
    | succ j => exact (Nat.testBit_bit_succ j x (natOfBits b)).trans (ih j)

/-! ## Packing (R94) -/

/-- The first bit of a payload word stands in bit 31, and the positions past the end are 0. -/
theorem packWord_getLsbD {b : Bits} (hb : b.length ≤ 32) {i : Nat} (hi : i < 32) :
    (packWord b).getLsbD (31 - i) = b.getD i false := by
  rw [packWord, BitVec.getLsbD_ofNat, Nat.testBit_mul_two_pow, natOfBits_testBit, decide_eq_true (by omega : 31 - i < 32),
    Bool.true_and]
  by_cases hlt : i < b.length
  · rw [decide_eq_true (by omega), Bool.true_and, List.getD_eq_getElem?_getD, List.getD_eq_getElem?_getD,
      List.getElem?_reverse (by omega), show b.length - 1 - (31 - i - (32 - b.length)) = i by omega]
  · rw [decide_eq_false (by omega), Bool.false_and, List.getD_eq_default _ _ (by omega)]

theorem slice_length_le (b : Bits) (p w : Nat) : (slice b p w).length ≤ w := List.length_take_le w _

theorem slice_getD (b : Bits) (p : Nat) {w i : Nat} (hi : i < w) : (slice b p w).getD i false = b.getD (p + i) false := by
  simp only [slice, List.getD_eq_getElem?_getD, List.getElem?_take_of_lt hi, List.getElem?_drop]

@[simp] theorem packBits_length (bits : Bits) : (packBits bits).length = (bits.length + 31) / 32 := by simp [packBits]

theorem packBits_getD {bits : Bits} {w : Nat} (hw : w < (bits.length + 31) / 32) :
    (packBits bits).getD w 0 = packWord (slice bits (32 * w) 32) := by
  simp [packBits, hw]

/-- Bit 32w + i of the buffer is bit 31 - i of word w. -/
theorem packBits_getLsbD (bits : Bits) (w : Nat) {i : Nat} (hi : i < 32) :
    ((packBits bits).getD w 0).getLsbD (31 - i) = bits.getD (32 * w + i) false := by
  by_cases hw : w < (bits.length + 31) / 32
  · rw [packBits_getD hw, packWord_getLsbD (slice_length_le ..) hi, slice_getD bits _ hi]
  · rw [List.getD_eq_default _ _ (by rw [packBits_length]; omega), List.getD_eq_default _ _ (by omega)]
    exact BitVec.getLsbD_zero

end Sys2Proof.Machine
end

