-- ==== Sys2Proof/Proofs/Emission.lean ====
section
/-! PROOF of O52: what an emission does, and the words of a record and of a notification. -/

namespace Sys2Proof.Machine

open Sys2Proof

/-! ## Emission (R185, R186) -/

theorem msgValid_iff (m : Msg) : msgValid m = true ↔ m.check ≠ .fail := bne_iff_ne

/-- The record goes on the trace before the fold, which only appends NOTIFY events. -/
theorem emitMessage_trace (p : Params) (m : Msg) (cat : Category) (b : Backend) :
    ∃ es, (emitMessage p m cat b).trace = b.trace ++ .message (msgWords m) :: es ∧ ∀ x ∈ es, x.isNotify = true := by
  rw [emitMessage_eq]
  split
  · obtain ⟨es, htrace, hes⟩ := (foldMsg_frame p m cat (recorded m b)).trace
    exact ⟨es, by rw [htrace, recorded_trace, List.append_assoc, List.singleton_append], hes⟩
  · exact ⟨[], recorded_trace m b, by simp⟩

theorem recorded_of_valid {m : Msg} (h : msgValid m = true) (b : Backend) :
    recorded m b = { b with
      cnt := { b.cnt with msgCount := b.cnt.msgCount + 1 }
      trace := b.trace ++ [.message (msgWords m)] } := by
  simp [recorded, emitBack, emitEvents, h]

theorem recorded_of_invalid {m : Msg} (h : msgValid m = false) (b : Backend) :
    recorded m b = { b with
      cnt := { b.cnt with msgCount := b.cnt.msgCount + 1, msgInvalid := b.cnt.msgInvalid + 1 }
      trace := b.trace ++ [.message (msgWords m)] } := by
  simp [recorded, emitBack, emitEvents, h]

/-! ## The codes in the spec's own numbers (R89, R90, R91, R95) -/

theorem classCode_toNat (c : MsgClass) : (classCode c).toNat = classNumber c := by cases c <;> rfl
theorem checkCode_toNat (c : Check) : (checkCode c).toNat = checkNumber c := by cases c <;> rfl
theorem roleCode_toNat (r : Role) : (roleCode r).toNat = roleNumber r := by cases r <;> rfl
theorem ncatCode_toNat (c : NCat) : (ncatCode c).toNat = ncatNumber c := by cases c <;> rfl

/-! ## Words composed of fields -/

/-- W0 by its fields at their bit positions (R92). -/
theorem msgW0_toNat {m : Msg} (hids : m.ids.length ≤ 15) (hindex : m.blockIndex ≤ 255) :
    (msgW0 m).toNat = 2 ^ 28 * classNumber m.cls + 2 ^ 20 * m.msgType.toNat + 2 ^ 16 * m.ftype.toNat
      + 2 ^ 15 * (decide (m.check ≠ .fail)).toNat + 2 ^ 13 * checkNumber m.check + 2 ^ 12 * m.undecoded.toNat
      + 2 ^ 8 * m.ids.length + m.blockIndex := by
  have hvalid : decide (m.check ≠ .fail) = msgValid m := by
    rw [Bool.eq_iff_iff, decide_eq_true_eq, msgValid_iff]
  simp only [msgW0, toNat_append_add, BitVec.toNat_ofBool, BitVec.toNat_ofNat, classCode_toNat, checkCode_toNat, hvalid]
  omega

/-- W1 by its fields at their bit positions (R92). -/
theorem msgW1_toNat {m : Msg} (hbits : m.correctedBits < 2 ^ 16) (hlen : m.payload.length < 2 ^ 16) :
    (msgW1 m).toNat = 2 ^ 16 * m.correctedBits + m.payload.length := by
  simp only [msgW1, toNat_append_add, BitVec.toNat_ofNat]
  omega

theorem identWord_eq (i : Ident) : identWord i = BitVec.ofNat 32 (2 ^ 28 * roleNumber i.role + i.value.toNat) := by
  have hnum : (identWord i).toNat = 2 ^ 28 * roleNumber i.role + i.value.toNat := by
    rw [identWord, toNat_append_add, roleCode_toNat, Nat.mul_comm]
  rw [← hnum, BitVec.ofNat_toNat, BitVec.setWidth_eq]

/-- N0 by its fields at their bit positions (R95). -/
theorem notifyN0_toNat (c : NCat) {slot : Nat} (h : slot ≤ 255) :
    (notifyN0 c slot).toNat = 2 ^ 24 * ncatNumber c + 2 ^ 16 * slot := by
  simp only [notifyN0, toNat_append_add, BitVec.ofNat_eq_ofNat, BitVec.toNat_ofNat, ncatCode_toNat]
  omega

theorem msgWords_eq (m : Msg) :
    msgWords m = [msgW0 m, msgW1 m, m.ts.extractLsb' 0 32, m.ts.extractLsb' 32 32, m.key]
      ++ m.ids.map (fun i => BitVec.ofNat 32 (2 ^ 28 * roleNumber i.role + i.value.toNat)) ++ packBits m.payload := by
  rw [← funext identWord_eq]
  rfl

/-- Settles O52: what the emission does, the words of the record, the packed payload, the words of a notification. -/
theorem emissionEffect : Obligations.EmissionEffect := by
  refine ⟨fun p m cat b => ⟨fun hfail => ?_, fun hvalid => ?_, emitMessage_trace p m cat b⟩,
    fun m hids hindex hbits hlen =>
      ⟨msgW0 m, msgW1 m, msgWords_eq m, msgW0_toNat hids hindex, msgW1_toNat hbits hlen⟩,
    fun bits => ⟨packBits_length bits, fun w i hi => packBits_getLsbD bits w hi⟩,
    fun c slot x y b hslot => ⟨notifyN0 c slot, rfl, rfl, notifyN0_toNat c hslot⟩⟩
  · have hinvalid : msgValid m = false := Bool.eq_false_iff.mpr fun h => (msgValid_iff m).mp h hfail
    rw [emitMessage_eq, if_neg (by simp [hinvalid]), recorded_of_invalid hinvalid]
  · have h := (msgValid_iff m).mpr hvalid
    rw [emitMessage_eq, if_pos h, recorded_of_valid h]

end Sys2Proof.Machine
end

