-- ==== Sys2Proof/Proofs/SampleConditioner.lean ====
section
/-! PROOF of O40 and O41: the FIR primitive is the ascending tap sum, and the envelope is the largest magnitude of the
window. -/

namespace Sys2Proof.Machine

open Sys2Proof

/-! ## The FIR primitive (R102) -/

/-- On a full line the oldest value, the last one, leaves. -/
theorem shiftLine_of_full {n : Nat} {line : List Word} (hlen : line.length = n) (hpos : 1 ≤ n) (x : Word) :
    shiftLine n line x = x :: line.dropLast := by
  obtain ⟨k, rfl⟩ := Nat.exists_eq_add_of_le' hpos
  rw [shiftLine, List.take_succ_cons, List.dropLast_eq_take, hlen, Nat.add_sub_cancel]

/-- With a line entry for every tap, the recursion over both lists is a fold over the tap numbers. -/
theorem tapSum_eq_foldl_range {taps line : List Word} (hlen : taps.length ≤ line.length) (acc : Word) :
    tapSum taps line acc =
      (List.range taps.length).foldl (fun acc k => fadd acc (fmul (taps.getD k 0) (line.getD k 0))) acc := by
  induction taps generalizing line acc with
  | nil => rfl
  | cons tap taps ih =>
    cases line with
    | nil => simp at hlen
    | cons v line =>
      have hrest : taps.length ≤ line.length := by simpa using hlen
      rw [tapSum, ih hrest, List.length_cons, List.range_succ_eq_map, List.foldl_cons, List.foldl_map]
      rfl

/-- Settles O40: the line shifts, and the output is the tap sum over the shifted line. -/
theorem firIsTapSum : Obligations.FirIsTapSum := by
  intro n line taps x hlen hpos htaps
  have hshift := shiftLine_of_full hlen hpos x
  refine ⟨hshift, ?_⟩
  rw [← hshift]
  exact tapSum_eq_foldl_range (by rw [shiftLine_length hlen]; exact htaps) 0

/-! ## MAXF (R13) -/

theorem maxF_eq_or (a b : Word) : maxF a b = a ∨ maxF a b = b := by
  unfold maxF
  split
  · exact .inr rfl
  · exact .inl rfl

theorem fle_refl {a : Word} (ha : isNaN a = false) : fle a a = true := fle_iff.mpr ⟨ha, ha, le_rfl⟩

theorem fle_maxF_left {a : Word} (ha : isNaN a = false) (b : Word) : fle a (maxF a b) = true := by
  unfold maxF
  split
  · next hlt => exact fle_of_flt hlt
  · exact fle_refl ha

theorem fle_maxF_right {a b : Word} (ha : isNaN a = false) (hb : isNaN b = false) : fle b (maxF a b) = true := by
  unfold maxF
  split
  · exact fle_refl hb
  · next hlt =>
    rw [Bool.not_eq_true, flt_eq_false ha hb] at hlt
    exact fle_iff.mpr ⟨hb, ha, hlt⟩

/-- A NaN never wins, so the larger of two values is a NaN only when the first is. -/
theorem isNaN_maxF {a : Word} (ha : isNaN a = false) (b : Word) : isNaN (maxF a b) = false := by
  obtain ⟨-, hmax, -⟩ := fle_iff.mp (fle_maxF_left ha b)
  exact hmax

/-! ## The envelope (R104) -/

/-- The largest value is the one the fold starts from or an entry. -/
theorem foldl_maxF_eq_or_mem (ring : List Word) (a : Word) : ring.foldl maxF a = a ∨ ring.foldl maxF a ∈ ring := by
  induction ring generalizing a with
  | nil => exact .inl rfl
  | cons v ring ih =>
    rw [List.foldl_cons, List.mem_cons]
    rcases ih (maxF a v) with hstart | hmem
    · rw [hstart]
      exact (maxF_eq_or a v).imp_right .inl
    · exact .inr (.inr hmem)

/-- The fold never falls below the value it starts from. -/
theorem fle_foldl_maxF (ring : List Word) {a : Word} (ha : isNaN a = false) : fle a (ring.foldl maxF a) = true := by
  induction ring generalizing a with
  | nil => exact fle_refl ha
  | cons v ring ih => exact fle_trans (fle_maxF_left ha v) (ih (isNaN_maxF ha v))

theorem fle_foldl_maxF_of_mem {ring : List Word} {a v : Word} (ha : isNaN a = false) (hmem : v ∈ ring)
    (hv : isNaN v = false) : fle v (ring.foldl maxF a) = true := by
  induction ring generalizing a with
  | nil => cases hmem
  | cons w ring ih =>
    have hmax := isNaN_maxF ha w
    rcases List.mem_cons.mp hmem with rfl | hrest
    · exact fle_trans (fle_maxF_right ha hv) (fle_foldl_maxF ring hmax)
    · exact ih hmax hrest

/-- Settles O41: the envelope is the fold of MAXF from +0.0. -/
theorem envelopeIsLargest : Obligations.EnvelopeIsLargest := by
  intro ring
  obtain ⟨-, hnan, -⟩ := fle_iff.mp (fle_foldl_maxF ring isNaN_zero)
  exact ⟨foldl_maxF_eq_or_mem ring 0, hnan, fun v hmem hv => fle_foldl_maxF_of_mem isNaN_zero hmem hv⟩

end Sys2Proof.Machine
end

