-- ==== Sys2Proof/Proofs/GainInvariant.lean ====
section
/-! PROOF of O29: while RUNNING both gains stay within their configured bounds. -/

namespace Sys2Proof.Machine

open Sys2Proof

/-! ## Finite and positive values -/

/-- The order key of a pattern is its magnitude, signed. -/
theorem natAbs_fkey (w : Word) : (fkey w).natAbs = mag w := by
  unfold fkey
  split <;> simp

theorem isFinite_iff_natAbs_fkey {w : Word} : isFinite w = true ↔ (fkey w).natAbs < infMag := by
  rw [natAbs_fkey, isFinite, decide_eq_true_eq]

/-- A value between finite bounds is finite. -/
theorem isFinite_of_within {lo v hi : Word} (hlo : isFinite lo = true) (hhi : isFinite hi = true) (h : within lo v hi) :
    isFinite v = true := by
  obtain ⟨-, -, hlow⟩ := fle_iff.mp h.1
  obtain ⟨-, -, hhigh⟩ := fle_iff.mp h.2
  rw [isFinite_iff_natAbs_fkey] at *
  omega

/-- Attack and decay rates are finite (codes 11, 12, 15 and 16). -/
theorem isFinite_of_unitRateF {v : Word} (h : unitRateF v = true) : isFinite v = true := by
  obtain ⟨hlow, hhigh⟩ := Bool.and_eq_true_iff.mp h
  exact isFinite_of_within (by decide) (by decide) ⟨hlow, fle_of_flt hhigh⟩

/-- A finite value > 0 times a value that is no NaN is no NaN: the factor can be infinite, but meets no zero. -/
theorem isNaN_fmul_of_positiveF {g f : Word} (hg : positiveF g = true) (hf : isNaN f = false) : isNaN (fmul g f) = false := by
  obtain ⟨hfin, hpos⟩ := Bool.and_eq_true_iff.mp hg
  obtain ⟨-, hnan, hkey⟩ := flt_iff.mp hpos
  have hzero : isZero g = false := by
    rw [isZero, beq_eq_false_iff_ne, ← natAbs_fkey]
    rw [show fkey 0 = 0 from fkey_zero] at hkey
    omega
  exact isNaN_fmul hnan hf (fun h => absurd (hzero.symm.trans h) (by decide)) fun _ => isInf_of_isFinite hfin

/-! ## DGC (R106) -/

/-- Legal gain bounds: the minimum is finite and > 0, the maximum is finite, and the initial gain lies between them
(codes 14 and 18). -/
theorem gainsF_iff {lo hi init : Word} :
    gainsF lo hi init = true ↔
      positiveF lo = true ∧ isFinite hi = true ∧ fle lo hi = true ∧ within lo init hi := by
  simp only [gainsF, within, Bool.and_eq_true, and_assoc]

/-- A gain within legal bounds is finite and > 0. -/
theorem positiveF_of_within {lo g hi : Word} (hlo : positiveF lo = true) (hhi : isFinite hi = true) (h : within lo g hi) :
    positiveF g = true := by
  obtain ⟨hfin, hpos⟩ := Bool.and_eq_true_iff.mp hlo
  obtain ⟨hzero, -, hkey⟩ := flt_iff.mp hpos
  obtain ⟨-, hnan, hle⟩ := fle_iff.mp h.1
  exact Bool.and_eq_true_iff.mpr ⟨isFinite_of_within hfin hhi h, flt_iff.mpr ⟨hzero, hnan, hkey.trans_le hle⟩⟩

/-- The next gain before CLAMP is no NaN, on attack and on decay, so CLAMP bounds it; the sample may be anything. -/
theorem dgc_gain_within {lo hi init attack decay g : Word} (hgains : gainsF lo hi init = true)
    (hattack : unitRateF attack = true) (hdecay : unitRateF decay = true) (hg : within lo g hi) (x target : Word) :
    within lo (dgc x g attack decay target lo hi).2 hi := by
  obtain ⟨hlo, hhi, hle, -⟩ := gainsF_iff.mp hgains
  have hpos := positiveF_of_within hlo hhi hg
  have hone : isFinite fOne = true := by decide
  have hneg : isFinite (fneg attack) = true := by
    rw [isFinite, mag_fneg]
    exact isFinite_of_unitRateF hattack
  refine clampF_within ?_ hle
  split
  · exact isNaN_fmul_of_positiveF hpos (isNaN_fadd_finite hone hneg)
  · exact isNaN_fmul_of_positiveF hpos (isNaN_fadd_finite hone (isFinite_of_unitRateF hdecay))

/-! ## One sample -/

section OneSample

variable {e : Env} {k : CorRegs}

/-- Real input runs DGC with the registers of codes 11, 12 and 14; complex input leaves the gain alone (R103, R105). -/
theorem condition_dgcGain_within {c : Conditioner} (hlegal : checkConfig e.par e.cfg k = 0)
    (h : within e.cfg.dgcMinGain c.dgcGain e.cfg.dgcMaxGain) (x : Sample) :
    within e.cfg.dgcMinGain (condition e c x).2.dgcGain e.cfg.dgcMaxGain := by
  cases x with
  | real x =>
    exact dgc_gain_within (configCheck_of_legal hlegal 13 rfl) (configCheck_of_legal hlegal 10 rfl)
      (configCheck_of_legal hlegal 11 rfl) h _ _
  | complex x => exact h

/-- The symbol path runs DGC with the registers of codes 15, 16 and 18 (R114). -/
theorem symbolPath_sdgcGain_within {m : Demod} (hlegal : checkConfig e.par e.cfg k = 0)
    (h : within e.cfg.sdgcMinGain m.sdgcGain e.cfg.sdgcMaxGain) (d : Word) :
    within e.cfg.sdgcMinGain (symbolPath e m d).demod.sdgcGain e.cfg.sdgcMaxGain :=
  dgc_gain_within (configCheck_of_legal hlegal 17 rfl) (configCheck_of_legal hlegal 14 rfl)
    (configCheck_of_legal hlegal 15 rfl) h _ _

/-- C4FM runs the symbol path, behind the discriminator or not; CQPSK leaves the gain alone (R111). -/
theorem demodulate_sdgcGain_within {m : Demod} (hlegal : checkConfig e.par e.cfg k = 0)
    (h : within e.cfg.sdgcMinGain m.sdgcGain e.cfg.sdgcMaxGain) (c : Conditioned) :
    within e.cfg.sdgcMinGain (demodulate e m c).demod.sdgcGain e.cfg.sdgcMaxGain :=
  demodulate_cases (P := fun m' => within e.cfg.sdgcMinGain m'.sdgcGain e.cfg.sdgcMaxGain) c
    (fun d => symbolPath_sdgcGain_within hlegal h d) (fun _ => h)
    fun z d => symbolPath_sdgcGain_within (m := (discriminate m z).2) hlegal h d

end OneSample

/-! ## The invariant -/

/-- A command that leaves both gains alone, and the CFG registers while RUNNING. -/
theorem GainInv.of_same_gains {s t : State} (h : GainInv s) (hconfig : ConfigInv t) (hcond : t.cond = s.cond)
    (hdemod : t.demod = s.demod) (hcfg : t.status.run = .running → s.status.run = .running ∧ t.cfg = s.cfg) :
    GainInv t := by
  constructor
  case config => exact hconfig
  case dgc =>
    intro hrun
    obtain ⟨hsrun, hsame⟩ := hcfg hrun
    rw [hcond, hsame]
    exact h.dgc hsrun
  case sdgc =>
    intro hrun
    obtain ⟨hsrun, hsame⟩ := hcfg hrun
    rw [hdemod, hsame]
    exact h.sdgc hsrun

/-- A cleared pipeline has the initial gains, which codes 14 and 18 keep within the bounds (R59). -/
theorem GainInv.of_cleared {s : State} (hconfig : ConfigInv s) (hcond : s.cond = conditionerCleared s.par s.cfg)
    (hdemod : s.demod = demodCleared s.par s.cfg) : GainInv s := by
  constructor
  case config => exact hconfig
  case dgc =>
    intro hrun
    obtain ⟨-, -, -, hinit⟩ := gainsF_iff.mp (configCheck_of_legal (hconfig.legal hrun) 13 rfl)
    rw [hcond]
    exact hinit
  case sdgc =>
    intro hrun
    obtain ⟨-, -, -, hinit⟩ := gainsF_iff.mp (configCheck_of_legal (hconfig.legal hrun) 17 rfl)
    rw [hdemod]
    exact hinit

theorem sampleStep_gainInv {s : State} (x : Sample) (h : GainInv s) : GainInv (sampleStep s x) where
  config := h.config.of_sameConfig (.sampleStep s x)
  dgc hrun := condition_dgcGain_within (e := s.env) (h.config.legal hrun) (h.dgc hrun) x
  sdgc hrun := demodulate_sdgcGain_within (e := s.env) (h.config.legal hrun) (h.sdgc hrun) _

theorem pushSamples_gainInv (xs : List Sample) {s : State} (h : GainInv s) : GainInv (pushSamples xs s) :=
  pushSamples_induction xs s h fun _ x _ ht => sampleStep_gainInv x ht

theorem Effect.gainInv {s t : State} (h : Effect s t) (hs : GainInv s) : GainInv t := by
  have hconfig := h.configInv hs.config
  cases h with
  | real xs _ _ => exact pushSamples_gainInv _ hs
  | complex xs _ _ => exact pushSamples_gainInv _ hs
  | start _ => exact .of_cleared hconfig rfl rfl
  | stop => exact .of_cleared hconfig rfl rfl
  | cfg r v hidle => exact hs.of_same_gains hconfig rfl rfl fun hrun => absurd hrun hidle
  | _ => exact hs.of_same_gains hconfig rfl rfl fun hrun => ⟨by simpa using hrun, rfl⟩

/-- Settles O29: consuming the command's words leaves both gains alone, and its effect keeps the bounds. -/
theorem gainInvKept : Obligations.GainInvKept := by
  intro s t hs h
  have hconsumed : GainInv (consumeCommand s) :=
    hs.of_same_gains (hs.config.of_sameConfig (.consumeCommand s)) (by simp) (by simp) (by simp)
  exact (step_effect h).gainInv hconsumed

end Sys2Proof.Machine
end

