-- ==== Sys2Proof/Proofs/FeedbackInvariant.lean ====
section
/-! PROOF of O30: while RUNNING the feedback register and the loop frequency stay within MAX_CORRECTION. -/

namespace Sys2Proof.Machine

open Sys2Proof

/-! ## The bounds -/

/-- The interval between minus a value > 0 and that value holds 0. -/
theorem zero_within_of_positiveF {m : Word} (h : positiveF m = true) : within (fneg m) 0 m := by
  obtain ⟨-, hpos⟩ := Bool.and_eq_true_iff.mp h
  obtain ⟨-, hnan, hkey⟩ := flt_iff.mp hpos
  have hzero : fkey 0 = 0 := fkey_zero
  refine ⟨fle_iff.mpr ⟨(isNaN_fneg m).trans hnan, isNaN_zero, ?_⟩, fle_of_flt hpos⟩
  rw [fkey_fneg]
  omega

/-- A legal configuration leaves room for 0, where the loop starts (code 21). -/
theorem zero_within_maxCorrection {p : Params} {c : CfgRegs} {k : CorRegs} (hlegal : checkConfig p c k = 0) :
    within (fneg c.maxCorrection) 0 c.maxCorrection :=
  zero_within_of_positiveF (configCheck_of_legal hlegal 20 rfl)

/-! ## One sample -/

section OneSample

variable {e : Env} {k : CorRegs}

/-- SAT caps the new loop frequency, whatever the old one and the phase error are (R121). -/
theorem loopFreq_within (hlegal : checkConfig e.par e.cfg k = 0) (freq err : Word) :
    within (fneg e.cfg.maxCorrection) (loopFreq e.cfg freq err) e.cfg.maxCorrection := by
  obtain ⟨hlow, hhigh⟩ := zero_within_maxCorrection hlegal
  exact satF_within _ (fle_trans hlow hhigh)

/-- CQPSK computes a new loop frequency; C4FM leaves it alone (R111). -/
theorem demodulate_freq_within {m : Demod} (hlegal : checkConfig e.par e.cfg k = 0)
    (h : within (fneg e.cfg.maxCorrection) m.freq e.cfg.maxCorrection) (c : Conditioned) :
    within (fneg e.cfg.maxCorrection) (demodulate e m c).demod.freq e.cfg.maxCorrection :=
  demodulate_cases (P := fun m' => within (fneg e.cfg.maxCorrection) m'.freq e.cfg.maxCorrection) c (fun _ => h)
    (fun _ => loopFreq_within hlegal m.freq _) fun _ _ => h

/-- The feedback value, where there is one, is the loop frequency (R119). -/
theorem feedback_eq_freq {m : Demod} {c : Conditioned} {w : Word} (h : (demodulate e m c).feedback = some w) :
    w = (demodulate e m c).demod.freq := by
  rw [demodulate_feedback] at h
  cases c with
  | real y => cases h
  | complex z =>
    dsimp only at h
    split at h
    · exact (Option.some.inj h).symm
    · cases h

end OneSample

/-- The register after a sample: the loop frequency in CQPSK mode, the old value in C4FM mode (R42, R119). -/
theorem sampleStep_feedback (s : State) (x : Sample) :
    (sampleStep s x).back.cnt.feedback = (sampleStep s x).demod.freq
      ∨ (sampleStep s x).back.cnt.feedback = s.back.cnt.feedback := by
  obtain ⟨-, hreg, -⟩ := sampleStep_spec s x
  rw [hreg, sampleStep_demod]
  cases hout : (demodulate s.env s.demod (condition s.env s.cond x).1).feedback with
  | some w => exact .inl (feedback_eq_freq hout)
  | none => exact .inr rfl

/-! ## The housekeeping of SWEEP -/

@[simp] theorem sweepPending_feedback (c : CfgRegs) (t : BitVec 64) (b : Backend) :
    (sweepPending c t b).cnt.feedback = b.cnt.feedback := by
  unfold sweepPending
  split
  · split <;> rfl
  · rfl

@[simp] theorem sweepBack_feedback (c : CfgRegs) (t : BitVec 64) (b : Backend) :
    (sweepBack c t b).cnt.feedback = b.cnt.feedback := by
  simp [sweepBack]

/-! ## The invariant -/

/-- A command that leaves the register and the loop alone, and the CFG registers while RUNNING. -/
theorem FeedbackInv.of_same_loop {s t : State} (h : FeedbackInv s) (hconfig : ConfigInv t)
    (hreg : t.back.cnt.feedback = s.back.cnt.feedback) (hdemod : t.demod = s.demod)
    (hcfg : t.status.run = .running → s.status.run = .running ∧ t.cfg = s.cfg) : FeedbackInv t := by
  constructor
  case config => exact hconfig
  case feedback =>
    intro hrun
    obtain ⟨hsrun, hsame⟩ := hcfg hrun
    rw [hreg, hsame]
    exact h.feedback hsrun
  case freq =>
    intro hrun
    obtain ⟨hsrun, hsame⟩ := hcfg hrun
    rw [hdemod, hsame]
    exact h.freq hsrun

/-- START clears the register with the counters and the loop with the pipeline (R59, R60). -/
theorem startRun_feedbackInv (s : State) : FeedbackInv (startRun s) where
  config := startRun_configInv s
  feedback hrun := zero_within_maxCorrection ((startRun_configInv s).legal hrun)
  freq hrun := zero_within_maxCorrection ((startRun_configInv s).legal hrun)

theorem sampleStep_feedbackInv {s : State} (x : Sample) (h : FeedbackInv s) : FeedbackInv (sampleStep s x) := by
  have hfreq (hrun : s.status.run = .running) :
      within (fneg s.cfg.maxCorrection) (sampleStep s x).demod.freq s.cfg.maxCorrection :=
    demodulate_freq_within (e := s.env) (h.config.legal hrun) (h.freq hrun) _
  constructor
  case config => exact h.config.of_sameConfig (.sampleStep s x)
  case freq => exact hfreq
  case feedback =>
    intro hrun
    rcases sampleStep_feedback s x with hnew | hold
    · rw [hnew]; exact hfreq hrun
    · rw [hold]; exact h.feedback hrun

theorem pushSamples_feedbackInv (xs : List Sample) {s : State} (h : FeedbackInv s) : FeedbackInv (pushSamples xs s) :=
  pushSamples_induction xs s h fun _ x _ ht => sampleStep_feedbackInv x ht

theorem Effect.feedbackInv {s t : State} (h : Effect s t) (hs : FeedbackInv s) : FeedbackInv t := by
  have hconfig := h.configInv hs.config
  cases h with
  | real xs _ _ => exact pushSamples_feedbackInv _ hs
  | complex xs _ _ => exact pushSamples_feedbackInv _ hs
  | start _ => exact startRun_feedbackInv s
  | stop => exact ⟨hconfig, fun hrun => (by simp at hrun), fun hrun => (by simp at hrun)⟩
  | cfg r v hidle => exact hs.of_same_loop hconfig rfl rfl fun hrun => absurd hrun hidle
  | sweep t _ => exact hs.of_same_loop hconfig (sweepBack_feedback ..) rfl fun hrun => ⟨hrun, rfl⟩
  | _ => exact hs.of_same_loop hconfig rfl rfl fun hrun => ⟨by simpa using hrun, rfl⟩

/-- Settles O30: consuming the command's words leaves the register and the loop alone, and its effect keeps the cap. -/
theorem feedbackInvKept : Obligations.FeedbackInvKept := by
  intro s t hs h
  have hconsumed : FeedbackInv (consumeCommand s) :=
    hs.of_same_loop (hs.config.of_sameConfig (.consumeCommand s)) (by simp) (by simp) (by simp)
  exact (step_effect h).feedbackInv hconsumed

end Sys2Proof.Machine
end

