-- ==== Sys2Proof/Proofs/ExactRounding.lean ====
section
/-! SUPPORT. A pattern's own value rounds back to the pattern (R12), so subtracting +0.0 changes nothing. -/

namespace Sys2Proof.Machine

open Sys2Proof

/-! ## Values that need no rounding -/

/-- A pattern is its sign and its magnitude. -/
theorem packF_signBit_mag (w : Word) : packF (signBit w) (mag w) = w := by
  apply BitVec.eq_of_toNat_eq
  rw [packF_toNat _ (mag_lt w), signBit, BitVec.msb_eq_decide, mag]
  have hlt := w.isLt
  by_cases hneg : 2 ^ 31 ≤ w.toNat
  · simp only [Nat.add_one_sub_one, hneg, decide_true, if_true]
    omega
  · simp only [Nat.add_one_sub_one, hneg, decide_false, Bool.false_eq_true, if_false]
    omega

/-- A multiple of the spacing needs no rounding. -/
theorem roundHalfEven_mul (q : Nat) {d : Nat} (hd : 0 < d) : roundHalfEven (q * d) d = q := by
  simp [roundHalfEven, Nat.mul_div_cancel q hd, hd.ne]

theorem magUnits_eq_zero_iff {m : Nat} : magUnits m = 0 ↔ m = 0 := by
  unfold magUnits
  split
  · rfl
  · next hm =>
    have hpos : (2 ^ 23 + m % 2 ^ 23) * 2 ^ (m / 2 ^ 23 - 1) ≠ 0 := by positivity
    omega

/-- The shift is the exponent of the pattern. -/
theorem roundShift_magUnits (m : Nat) : roundShift (magUnits m) 1 = m / 2 ^ 23 - 1 := by
  rw [roundShift, Nat.div_one, magUnits]
  split
  · next hsub =>
    by_cases hzero : m = 0
    · simp [hzero]
    · have := (Nat.log2_lt hzero).mpr hsub
      omega
  · have hlog : Nat.log2 ((2 ^ 23 + m % 2 ^ 23) * 2 ^ (m / 2 ^ 23 - 1)) = 23 + (m / 2 ^ 23 - 1) := by
      refine (Nat.log2_eq_iff (by positivity)).mpr ⟨?_, ?_⟩
      · rw [pow_add]
        exact Nat.mul_le_mul_right _ (Nat.le_add_right _ _)
      · rw [show 23 + (m / 2 ^ 23 - 1) + 1 = 24 + (m / 2 ^ 23 - 1) by omega, pow_add]
        exact Nat.mul_lt_mul_of_pos_right (by omega) (by positivity)
    omega

/-- The value of a finite pattern rounds to this pattern. -/
theorem roundMag_magUnits {m : Nat} (h : m < infMag) : roundMag (magUnits m) 1 = m := by
  rw [roundMag_eq, roundSig, roundShift_magUnits, one_mul, magUnits]
  split
  · next hsub =>
    have hround : roundHalfEven m 1 = m := by simpa using roundHalfEven_mul m one_pos
    rw [show m / 2 ^ 23 - 1 = 0 by omega, pow_zero, hround]
    omega
  · rw [roundHalfEven_mul _ (by positivity)]
    omega

/-- The sign of a value other than 0. -/
theorem decide_valueF_neg {w : Word} (h : valueF w ≠ 0) : decide (valueF w < 0) = signBit w := by
  cases hsign : signBit w with
  | false =>
    have hvalue : valueF w = units w := by simp [valueF, hsign]
    exact decide_eq_false (by omega)
  | true =>
    have hvalue : valueF w = -(units w : Int) := by simp [valueF, hsign]
    exact decide_eq_true (by omega)

/-- Subtracting +0.0 adds -0.0: the sum is exact, and a zero keeps its sign. -/
theorem fsub_zero {w : Word} (h : isNaN w = false) : fsub w 0 = w := by
  have hneg : isNaN (fneg 0) = false := by decide
  have hinf : isInf (fneg 0) = false := by decide
  have hsign : signBit (fneg 0) = true := by decide
  have hvalue : valueF (fneg 0) = 0 := by decide
  simp only [fsub, fadd, h, hneg, hinf, hsign, hvalue, Bool.or_self, Bool.false_and, Bool.and_true, add_zero,
    Bool.false_eq_true, if_false]
  split
  · rfl
  · next hw =>
    have hfin : mag w < infMag := by
      rw [isNaN_eq_false] at h
      simp only [isInf, beq_iff_eq] at hw
      omega
    have hpack := packF_signBit_mag w
    split
    · next hzero =>
      have hmag : mag w = 0 := magUnits_eq_zero_iff.mp (by rw [← natAbs_valueF, hzero]; rfl)
      rwa [hmag] at hpack
    · next hne => rwa [natAbs_valueF, roundMag_magUnits hfin, decide_valueF_neg hne]

end Sys2Proof.Machine
end

