-- ==== Sys2Proof/Proofs/Slicers.lean ====
section
/-! PROOF of O42: the decisions of the two slicers. -/

namespace Sys2Proof.Machine

open Sys2Proof

/-! ## The soft value as the slicer sees it -/

theorem fsub_of_nan {v : Word} (h : isNaN v = true) (w : Word) : fsub v w = qNaN := by
  simp [fsub, fadd, h]

/-- SLICER_OFFSET +0.0 shifts nothing that the slicer sees. -/
theorem sane_fsub_zero (v : Word) : sane (fsub v 0) = sane v := by
  cases h : isNaN v with
  | false => rw [fsub_zero h]
  | true => rw [fsub_of_nan h, sane, sane, if_pos h, if_pos (by decide)]

/-- An infinity is not moved by a finite value. -/
theorem fsub_of_inf {v w : Word} (hv : isInf v = true) (hw : isFinite w = true) : fsub v w = v := by
  have hv' : isNaN v = false := by simp [isInf, isNaN] at *; omega
  have hwfin : isFinite (fneg w) = true := by rw [isFinite, mag_fneg]; exact hw
  simp [fsub, fadd, hv, hv', isNaN_of_isFinite hwfin, isInf_of_isFinite hwfin]

/-- -∞ lies below every finite value. -/
theorem fle_negInf_of_finite {w : Word} (h : isFinite w = true) : fle w 0xFF800000 = false := by
  have hbound := isFinite_iff_natAbs_fkey.mp h
  have hinf : fkey 0xFF800000 = -(infMag : Int) := by decide
  rw [Bool.eq_false_iff]
  intro hle
  obtain ⟨-, -, hkey⟩ := fle_iff.mp hle
  omega

/-! ## The four-level decision (R129, R130) -/

section FourLevel

variable {c : CfgRegs} {k : CorRegs} {soft v : Word}

/-- At or above the outer threshold. -/
theorem sliceC4fm_one (hv : sane (fsub soft k.slicerOffset) = v) (hhigh : fle (sliceThreshold c k) v = true) :
    sliceC4fm c k soft = 1 := by
  simp only [sliceC4fm, hv, hhigh, if_true]

/-- From 0 up to the outer threshold. -/
theorem sliceC4fm_zero (hv : sane (fsub soft k.slicerOffset) = v) (hhigh : fle (sliceThreshold c k) v = false)
    (hmid : fle 0 v = true) : sliceC4fm c k soft = 0 := by
  simp only [sliceC4fm, hv, hhigh, hmid, Bool.false_eq_true, if_true, if_false]

/-- From minus the outer threshold up to 0. -/
theorem sliceC4fm_two (hv : sane (fsub soft k.slicerOffset) = v) (hhigh : fle (sliceThreshold c k) v = false)
    (hmid : fle 0 v = false) (hlow : fle (fneg (sliceThreshold c k)) v = true) : sliceC4fm c k soft = 2 := by
  simp only [sliceC4fm, hv, hhigh, hmid, hlow, Bool.false_eq_true, if_true, if_false]

/-- Below minus the outer threshold. -/
theorem sliceC4fm_three (hv : sane (fsub soft k.slicerOffset) = v) (hhigh : fle (sliceThreshold c k) v = false)
    (hmid : fle 0 v = false) (hlow : fle (fneg (sliceThreshold c k)) v = false) : sliceC4fm c k soft = 3 := by
  simp only [sliceC4fm, hv, hhigh, hmid, hlow, Bool.false_eq_true, if_false]

/-- The decision depends on the soft value and OFFSET through their difference alone. -/
theorem sliceC4fm_offset (c : CfgRegs) (k : CorRegs) (soft : Word) :
    sliceC4fm c k soft = sliceC4fm c { k with slicerOffset := 0 } (fsub soft k.slicerOffset) := by
  have hthr : sliceThreshold c { k with slicerOffset := 0 } = sliceThreshold c k := rfl
  simp only [sliceC4fm, sane_fsub_zero, hthr]

variable (hfin : isFinite (sliceThreshold c k) = true) (hpos : flt 0 (sliceThreshold c k) = true)
  (hoffset : isFinite k.slicerOffset = true)

include hpos in
/-- A NaN becomes +0.0, which lies below the threshold. -/
theorem sliceC4fm_nan : sliceC4fm c k qNaN = 0 := by
  have hv : sane (fsub qNaN k.slicerOffset) = 0 := by rw [fsub_of_nan (by decide)]; decide
  obtain ⟨-, -, hkey⟩ := flt_iff.mp hpos
  refine sliceC4fm_zero hv ?_ (by decide)
  rw [Bool.eq_false_iff]
  intro hle
  obtain ⟨-, -, hge⟩ := fle_iff.mp hle
  exact absurd hkey (not_lt.mpr hge)

include hfin hoffset in
/-- +∞ lies above every finite threshold. -/
theorem sliceC4fm_posInf : sliceC4fm c k 0x7F800000 = 1 := by
  have hv : sane (fsub 0x7F800000 k.slicerOffset) = 0x7F800000 := by rw [fsub_of_inf (by decide) hoffset]; decide
  refine sliceC4fm_one hv (fle_iff.mpr ⟨isNaN_of_isFinite hfin, by decide, ?_⟩)
  have hbound := isFinite_iff_natAbs_fkey.mp hfin
  have hinf : fkey 0x7F800000 = infMag := by decide
  omega

include hfin hoffset in
theorem sliceC4fm_negInf : sliceC4fm c k 0xFF800000 = 3 := by
  have hv : sane (fsub 0xFF800000 k.slicerOffset) = 0xFF800000 := by rw [fsub_of_inf (by decide) hoffset]; decide
  have hneg : isFinite (fneg (sliceThreshold c k)) = true := by rw [isFinite, mag_fneg]; exact hfin
  exact sliceC4fm_three hv (fle_negInf_of_finite hfin) (by decide) (fle_negInf_of_finite hneg)

end FourLevel

/-! ## The quadrant decision (R116, R131) -/

/-- QREF and the quadrant slicer make the same comparisons, so each dibit goes with one nominal phase (R127). -/
theorem sliceCqpsk_cases (k : CorRegs) (soft : Word) :
    (sliceCqpsk k soft = 0 ∧ qref (wrapF (fsub soft k.slicerOffset)) = quarterPiF)
      ∨ (sliceCqpsk k soft = 1 ∧ qref (wrapF (fsub soft k.slicerOffset)) = threeQuarterPiF)
      ∨ (sliceCqpsk k soft = 2 ∧ qref (wrapF (fsub soft k.slicerOffset)) = fneg quarterPiF)
      ∨ (sliceCqpsk k soft = 3 ∧ qref (wrapF (fsub soft k.slicerOffset)) = fneg threeQuarterPiF) := by
  simp only [qref, sliceCqpsk]
  split
  · split
    · exact .inl ⟨rfl, rfl⟩
    · exact .inr (.inl ⟨rfl, rfl⟩)
  · split
    · exact .inr (.inr (.inl ⟨rfl, rfl⟩))
    · exact .inr (.inr (.inr ⟨rfl, rfl⟩))

/-! ## The choice of the slicer (R25, R128) -/

theorem sliceSoft_c4fm {c : CfgRegs} (h : c.modulation = 0) (k : CorRegs) (soft : Word) :
    sliceSoft c k soft = sliceC4fm c k soft :=
  if_neg (by rw [h]; decide)

theorem sliceSoft_cqpsk {c : CfgRegs} (h : c.modulation = 1) (k : CorRegs) (soft : Word) :
    sliceSoft c k soft = sliceCqpsk k soft :=
  if_pos (by rw [h]; decide)

/-- Settles O42: the chain of thresholds, the shift by OFFSET and the special values of C4FM, the nominal phases of CQPSK,
the choice by MODULATION. -/
theorem quadrantsAgree : Obligations.QuadrantsAgree := by
  refine ⟨fun c k soft => ?_, fun k soft => ?_, fun c k soft => ?_⟩
  · intro thr v
    have hv : sane (fsub soft k.slicerOffset) = v := rfl
    exact ⟨sliceC4fm_one hv, sliceC4fm_zero hv, sliceC4fm_two hv, sliceC4fm_three hv, sliceC4fm_offset c k soft,
      fun hfin hpos hoffset => ⟨sliceC4fm_nan hpos, sliceC4fm_posInf hfin hoffset, sliceC4fm_negInf hfin hoffset⟩⟩
  · rcases sliceCqpsk_cases k soft with ⟨hdibit, hphase⟩ | ⟨hdibit, hphase⟩ | ⟨hdibit, hphase⟩ | ⟨hdibit, hphase⟩
    · rw [hdibit]; exact hphase
    · rw [hdibit]; exact hphase
    · rw [hdibit]; exact hphase
    · rw [hdibit]; exact hphase
  · exact ⟨fun h => sliceSoft_c4fm h k soft, fun h => sliceSoft_cqpsk h k soft⟩

end Sys2Proof.Machine
end

