-- ==== Sys2Proof/Proofs/SymbolCount.lean ====
section
/-! PROOF of O33: with SPS = 1 every sample is a symbol. -/

namespace Sys2Proof.Machine

open Sys2Proof

/-! ## One sample per symbol -/

/-- A legal TIMING_PHASE is below SPS, so with SPS = 1 both sides of the strobe rule are 0 (R128, code 27). -/
theorem isStrobe_of_sps_one {p : Params} {c : CfgRegs} {k : CorRegs} (hlegal : checkConfig p c k = 0) (hsps : c.sps = 1)
    (n : BitVec 64) : isStrobe c k n = true := by
  have hone : c.sps.toNat = 1 := by rw [hsps]; rfl
  have hphase : k.timingPhase.toNat = 0 := by
    have hlt := timingPhase_lt_of_legal hlegal
    omega
  rw [isStrobe, beq_iff_eq, hone, hphase, Nat.mod_one]

/-- The low half of a 64-bit count advances with it. -/
theorem setWidth_succ (n : BitVec 64) : (n + 1).setWidth 32 = n.setWidth 32 + (1 : Word) :=
  BitVec.setWidth_add n 1 (by decide)

/-! ## The housekeeping of SWEEP -/

/-- SWEEP counts nothing but the sequences that it abandons (R204). -/
theorem sweepPending_cnt (c : CfgRegs) (t : BitVec 64) (b : Backend) :
    (sweepPending c t b).cnt = { b.cnt with pduAbandoned := (sweepPending c t b).cnt.pduAbandoned } := by
  unfold sweepPending
  split
  · split <;> rfl
  · rfl

@[simp] theorem sweepBack_sampleCount (c : CfgRegs) (t : BitVec 64) (b : Backend) :
    (sweepBack c t b).cnt.sampleCount = b.cnt.sampleCount := by
  rw [sweepBack, sweepPending_cnt, closeCalls_cnt]

@[simp] theorem sweepBack_symbolCount (c : CfgRegs) (t : BitVec 64) (b : Backend) :
    (sweepBack c t b).cnt.symbolCount = b.cnt.symbolCount := by
  rw [sweepBack, sweepPending_cnt, closeCalls_cnt]

/-! ## The invariant -/

/-- A command that leaves both counts alone, and the CFG registers while RUNNING. -/
theorem SymbolInv.of_same_counts {s t : State} (h : SymbolInv s) (hconfig : ConfigInv t)
    (hsymbol : t.back.cnt.symbolCount = s.back.cnt.symbolCount) (hsample : t.back.cnt.sampleCount = s.back.cnt.sampleCount)
    (hcfg : t.status.run = .running → s.status.run = .running ∧ t.cfg = s.cfg) : SymbolInv t := by
  refine ⟨hconfig, fun hrun hsps => ?_⟩
  obtain ⟨hsrun, hsame⟩ := hcfg hrun
  rw [hsymbol, hsample]
  exact h.counts hsrun (hsame ▸ hsps)

/-- Each sample advances both counts by one: its strobe is certain (R135). -/
theorem sampleStep_symbolInv {s : State} (x : Sample) (h : SymbolInv s) : SymbolInv (sampleStep s x) := by
  refine ⟨h.config.of_sameConfig (.sampleStep s x), fun hrun hsps => ?_⟩
  obtain ⟨hsample, -, hsymbol, -⟩ := sampleStep_spec s x
  rw [hsymbol, if_pos (isStrobe_of_sps_one (h.config.legal hrun) hsps _), hsample, setWidth_succ, h.counts hrun hsps]

theorem pushSamples_symbolInv (xs : List Sample) {s : State} (h : SymbolInv s) : SymbolInv (pushSamples xs s) :=
  pushSamples_induction xs s h fun _ x _ ht => sampleStep_symbolInv x ht

/-- START sets both counts to 0 (R60). -/
theorem startRun_symbolInv (s : State) : SymbolInv (startRun s) :=
  ⟨startRun_configInv s, fun _ _ => rfl⟩

theorem Effect.symbolInv {s t : State} (h : Effect s t) (hs : SymbolInv s) : SymbolInv t := by
  have hconfig := h.configInv hs.config
  cases h with
  | real xs _ _ => exact pushSamples_symbolInv _ hs
  | complex xs _ _ => exact pushSamples_symbolInv _ hs
  | start _ => exact startRun_symbolInv s
  | stop => exact ⟨hconfig, fun hrun => by simp at hrun⟩
  | cfg r v hidle => exact hs.of_same_counts hconfig rfl rfl fun hrun => absurd hrun hidle
  | sweep t _ =>
    exact hs.of_same_counts hconfig (sweepBack_symbolCount ..) (sweepBack_sampleCount ..) fun hrun => ⟨hrun, rfl⟩
  | _ => exact hs.of_same_counts hconfig rfl rfl fun hrun => ⟨by simpa using hrun, rfl⟩

/-- Settles O33: consuming the command's words leaves the counts alone, and its effect keeps them equal. -/
theorem symbolInvKept : Obligations.SymbolInvKept := by
  intro s t hs h
  have hconsumed : SymbolInv (consumeCommand s) :=
    hs.of_same_counts (hs.config.of_sameConfig (.consumeCommand s)) (by simp) (by simp) (by simp)
  exact (step_effect h).symbolInv hconsumed

end Sys2Proof.Machine
end

