-- ==== Sys2Proof/Proofs/OrphanBlocks.lean ====
section
/-! PROOF of O36: no data block is dropped from its sequence. -/

namespace Sys2Proof.Machine

open Sys2Proof

/-- The header's count is read with its own width, which R178 makes 7. -/
theorem hdrBtf_width {p : Params} (hp : paramsOk p = true) : p.profile.hdrBtf.width = 7 := by
  simp only [paramsOk, fieldsOk, Bool.and_eq_true, decide_eq_true_eq] at hp
  obtain ⟨⟨-, -, -, -, -, hwidth⟩, -⟩ := hp
  exact hwidth

/-! ## The pending sequence while a frame's data blocks are parsed (R181) -/

/-- The pending sequence has room for n more blocks. -/
def RoomFor (n : Nat) (b : Backend) : Prop := n = 0 ∨ ∃ q, b.pending = some q ∧ q.blocks.length + n ≤ q.n

theorem RoomFor.mono {m n : Nat} {b : Backend} (h : RoomFor n b) (hle : m ≤ n) : RoomFor m b := by
  rcases h with rfl | ⟨q, hq, hroom⟩
  · exact .inl (Nat.le_zero.mp hle)
  · exact .inr ⟨q, hq, by omega⟩

theorem RoomFor.of_pending_eq {n : Nat} {b b' : Backend} (h : RoomFor n b) (hpending : b'.pending = b.pending) :
    RoomFor n b' := by
  unfold RoomFor
  rw [hpending]
  exact h

theorem appendBlock_of_room {p : Params} {m : Msg} {b : Backend} {q : Pending} (hq : b.pending = some q)
    (hroom : q.blocks.length < q.n) : appendBlock p m b = storePending p { q with blocks := q.blocks ++ [m] } b := by
  simp only [appendBlock, hq, if_pos hroom]

/-- A data block takes one place of its sequence; the sequence that it completes has no more to come. -/
theorem RoomFor.appendBlock {n : Nat} {b : Backend} (h : RoomFor (n + 1) b) (p : Params) (m : Msg) :
    (appendBlock p m b).cnt.orphanBlock = b.cnt.orphanBlock ∧ RoomFor n (appendBlock p m b) := by
  rcases h with h | ⟨q, hq, hroom⟩
  · cases h
  · rw [appendBlock_of_room hq (by omega)]
    refine ⟨storePending_orphanBlock .., ?_⟩
    unfold RoomFor
    rw [storePending_pending, List.length_append, List.length_singleton]
    split
    next hfull => exact .inl (by dsimp only at hfull; omega)
    next =>
      have hle : (q.blocks ++ [m]).length + n ≤ q.n := by simp; omega
      exact .inr ⟨_, rfl, hle⟩

/-- A header that passes its check opens a sequence with room for the blocks it declares (R178). -/
theorem parseHeader_roomFor {e : Env} {r : BlockResult} (hpass : checkPass e.par.profile.checkHeader r.bits = true)
    {n : Nat} (hn : n ≤ field r.bits e.par.profile.hdrBtf.pos 7) (t : BitVec 4) (ts : BitVec 64) (b : Backend) :
    RoomFor n (parseHeader e r t ts b) := by
  unfold RoomFor
  rw [parseHeader_pending, if_pos hpass]
  split
  next hzero => exact .inl (by omega)
  next => exact .inr ⟨_, rfl, by simpa using hn⟩

section EmitBlocks

variable {e : Env} {t : BitVec 4}

theorem parseBlock_tsbk (ht : isTsbkType (frameType e.par.profile t) = true) (r : BlockResult) (j : Nat) (ts : BitVec 64)
    (b : Backend) : parseBlock e r j t ts b = parseTsbk e r j t ts b := if_pos ht

theorem parseBlock_header (ht : isTsbkType (frameType e.par.profile t) = false) (r : BlockResult) (ts : BitVec 64)
    (b : Backend) : parseBlock e r 0 t ts b = parseHeader e r t ts b := by
  simp only [parseBlock, ht, Bool.false_eq_true, if_false, if_true]

theorem parseBlock_data (ht : isTsbkType (frameType e.par.profile t) = false) (r : BlockResult) (j : Nat) (ts : BitVec 64)
    (b : Backend) : parseBlock e r (j + 1) t ts b = parseDataBlock e r (j + 1) t ts b := by
  simp only [parseBlock, ht, Bool.false_eq_true, if_false, Nat.add_one_ne_zero]

/-- Trunking blocks have nothing to do with sequences (R174). -/
theorem emitBlocks_tsbk_orphanBlock (ht : isTsbkType (frameType e.par.profile t) = true) (ts : BitVec 64)
    (rs : List BlockResult) (j : Nat) (b : Backend) :
    (emitBlocks e t ts j rs b).cnt.orphanBlock = b.cnt.orphanBlock := by
  induction rs generalizing j b with
  | nil => rfl
  | cons r rs ih =>
    rw [emitBlocks, ih]
    split
    · exact countBlock_orphanBlock r b
    · rw [parseBlock_tsbk ht, parseTsbk_orphanBlock, countBlock_orphanBlock]

/-- Data blocks for which the pending sequence has room: each is appended, and a rejected one takes no place. -/
theorem emitBlocks_data_orphanBlock (ht : isTsbkType (frameType e.par.profile t) = false) (ts : BitVec 64)
    (rs : List BlockResult) (j : Nat) (b : Backend) (hroom : RoomFor rs.length b) :
    (emitBlocks e t ts (j + 1) rs b).cnt.orphanBlock = b.cnt.orphanBlock := by
  induction rs generalizing j b with
  | nil => rfl
  | cons r rs ih =>
    have hcounted : RoomFor (rs.length + 1) (countBlock r b) := hroom.of_pending_eq (countBlock_pending r b)
    rw [emitBlocks]
    split
    · rw [ih _ _ (hcounted.mono (Nat.le_succ _)), countBlock_orphanBlock]
    · rw [parseBlock_data ht]
      have hrecorded := hcounted.of_pending_eq (emitMessage_pending e.par (dataBlockMsg r (j + 1) t ts) .none _)
      obtain ⟨horphan, hnext⟩ := hrecorded.appendBlock e.par (dataBlockMsg r (j + 1) t ts)
      refine (ih _ _ hnext).trans ?_
      exact (horphan.trans (emitMessage_orphanBlock ..)).trans (countBlock_orphanBlock r b)

end EmitBlocks

/-! ## The end of a frame (R151) -/

/-- Data blocks were collected only behind a header that was accepted, and no more of them than it declares. -/
def BlocksDeclared (P : Profile) (f : Framer) : Prop :=
  ∀ h rest, f.blocks = h :: rest → rest = [] ∨
    (h.status ≠ .rejected ∧ checkPass P.checkHeader h.bits = true ∧ rest.length ≤ field h.bits P.hdrBtf.pos 7)

theorem emitFrame_cnt (e : Env) (b : Backend) : (emitFrame e b).cnt =
    (emitPayload e { b with framer.fstate := .emit, cnt.frameCount := b.cnt.frameCount + 1 }).cnt := rfl

section EmitFrame

variable {e : Env} {b : Backend}

theorem emitFrame_raw_orphanBlock {len : Nat} {cat : Category}
    (ht : frameType e.par.profile b.framer.ftype = .raw len cat) :
    (emitFrame e b).cnt.orphanBlock = b.cnt.orphanBlock := by
  rw [emitFrame_cnt, emitPayload]
  simp only [ht, parseRaw, emitMessage_orphanBlock]

theorem emitFrame_tsbk_orphanBlock {bl mb ilv : Nat} (ht : frameType e.par.profile b.framer.ftype = .tsbk bl mb ilv) :
    (emitFrame e b).cnt.orphanBlock = b.cnt.orphanBlock := by
  rw [emitFrame_cnt, emitPayload]
  simp only [ht]
  exact emitBlocks_tsbk_orphanBlock (by rw [ht]; rfl) ..

theorem emitFrame_pdu_orphanBlock {bl mb ilv : Nat} (ht : frameType e.par.profile b.framer.ftype = .pdu bl mb ilv)
    (hblocks : BlocksDeclared e.par.profile b.framer) : (emitFrame e b).cnt.orphanBlock = b.cnt.orphanBlock := by
  have htype : isTsbkType (frameType e.par.profile b.framer.ftype) = false := by rw [ht]; rfl
  rw [emitFrame_cnt, emitPayload]
  simp only [ht]
  cases hlist : b.framer.blocks with
  | nil => rfl
  | cons h rest =>
    have hroom (ts : BitVec 64) (b' : Backend) :
        RoomFor rest.length (parseHeader e h b.framer.ftype ts b') := by
      rcases hblocks h rest hlist with rfl | ⟨-, hpass, hle⟩
      · exact .inl rfl
      · exact parseHeader_roomFor hpass hle ..
    have hrejected (hrej : h.status = .rejected) : rest = [] :=
      (hblocks h rest hlist).resolve_right fun ⟨hok, _⟩ => hok hrej
    rw [emitBlocks]
    split
    next hrej =>
      rw [hrejected hrej, emitBlocks]
      exact countBlock_orphanBlock ..
    next =>
      rw [parseBlock_header htype, emitBlocks_data_orphanBlock htype _ _ _ _ (hroom _ _), parseHeader_orphanBlock]
      exact countBlock_orphanBlock ..

end EmitFrame

/-! ## The framer's part: a header that was accepted, and its count (R148) -/

/-- What one dibit must keep: the header rule, and the count of orphans. -/
structure KeepsHeader (P : Profile) (b b' : Backend) : Prop where
  header : HeaderOk P b'.framer
  orphans : b'.cnt.orphanBlock = b.cnt.orphanBlock

theorem headerOk_pdu {P : Profile} {f : Framer} {bl mb ilv : Nat} (ht : frameType P f.ftype = .pdu bl mb ilv) :
    HeaderOk P f ↔ (f.fstate = .framing → ∀ h rest, f.blocks = h :: rest →
      h.status ≠ .rejected ∧ checkPass P.checkHeader h.bits = true ∧ f.expected = 1 + field h.bits P.hdrBtf.pos 7) := by
  simp only [HeaderOk, ht]

/-- The rule in a frame whose header was accepted. -/
theorem headerOk_of_accepted {P : Profile} {f : Framer} {h : BlockResult} {rest : List BlockResult}
    (hcons : f.blocks = h :: rest) (hok : h.status ≠ .rejected) (hpass : checkPass P.checkHeader h.bits = true)
    (hcount : f.expected = 1 + field h.bits P.hdrBtf.pos 7) : HeaderOk P f := by
  unfold HeaderOk
  split
  · intro _ h' rest' hcons'
    obtain ⟨rfl, -⟩ := List.cons_eq_cons.mp (hcons.symm.trans hcons')
    exact ⟨hok, hpass, hcount⟩
  all_goals trivial

theorem headerOk_tsbk {P : Profile} {f : Framer} {bl mb ilv : Nat} (ht : frameType P f.ftype = .tsbk bl mb ilv) :
    HeaderOk P f := by simp only [HeaderOk, ht]

/-- Before the first block there is no header to speak of. -/
theorem headerOk_of_no_blocks {P : Profile} {f : Framer} (h : f.blocks = []) : HeaderOk P f := by
  unfold HeaderOk
  split
  · intro _ hd rest hcons
    rw [h] at hcons
    cases hcons
  all_goals trivial

/-- A step from a backend that differs only outside the rule. -/
theorem KeepsHeader.from_same {P : Profile} {b b' b'' : Backend} (h : KeepsHeader P b' b'')
    (hsame : b'.cnt.orphanBlock = b.cnt.orphanBlock) : KeepsHeader P b b'' := ⟨h.header, h.orphans.trans hsame⟩

theorem toSearching_headerOk (P : Profile) (f : Framer) : HeaderOk P (toSearching f) := headerOk_of_no_blocks rfl

section Progress

variable {e : Env} {b : Backend} {bl mb ilv : Nat}

theorem resync_keepsHeader (P : Profile) (b : Backend) : KeepsHeader P b (resync b) := ⟨toSearching_headerOk .., rfl⟩

theorem emitFrame_keepsHeader (horphans : (emitFrame e b).cnt.orphanBlock = b.cnt.orphanBlock) :
    KeepsHeader e.par.profile b (emitFrame e b) :=
  ⟨by rw [emitFrame_framer]; exact toSearching_headerOk .., horphans⟩

/-- After a block the frame ends without an orphan, or it goes on with its header as it was. -/
theorem endOrContinue_keepsHeader {isEnd : Bool} (horphans : (emitFrame e b).cnt.orphanBlock = b.cnt.orphanBlock)
    (hheader : HeaderOk e.par.profile { b.framer with target := b.framer.target + bl }) :
    KeepsHeader e.par.profile b (endOrContinue e bl isEnd b) := by
  cases isEnd with
  | true => exact emitFrame_keepsHeader horphans
  | false => exact ⟨hheader, rfl⟩

theorem progressTsbk_keepsHeader (ht : frameType e.par.profile b.framer.ftype = .tsbk bl mb ilv) :
    KeepsHeader e.par.profile b (progressTsbk e bl mb ilv b) := by
  exact KeepsHeader.from_same (endOrContinue_keepsHeader (emitFrame_tsbk_orphanBlock ht) (headerOk_tsbk ht)) rfl

/-- The header block, already added: whatever ends the frame here, it has no data block; otherwise its count is kept. -/
theorem progressHeader_keepsHeader (hp : paramsOk e.par = true)
    (ht : frameType e.par.profile b.framer.ftype = .pdu bl mb ilv) {r : BlockResult} (hblocks : b.framer.blocks = [r]) :
    KeepsHeader e.par.profile b (progressHeader e bl mb r b) := by
  have hdeclared : BlocksDeclared e.par.profile b.framer := fun h rest hcons => by
    obtain ⟨-, hrest⟩ := List.cons_eq_cons.mp (hblocks.symm.trans hcons)
    exact .inl hrest.symm
  unfold progressHeader
  dsimp only
  split
  · exact emitFrame_keepsHeader (emitFrame_pdu_orphanBlock ht hdeclared)
  next haccepted =>
    rw [Bool.or_eq_true, not_or, beq_iff_eq, Bool.not_eq_true', Bool.not_eq_false] at haccepted
    obtain ⟨hok, hpass⟩ := haccepted
    split
    · exact resync_keepsHeader ..
    split
    · exact KeepsHeader.from_same (emitFrame_keepsHeader (emitFrame_pdu_orphanBlock ht hdeclared)) rfl
    · refine ⟨headerOk_of_accepted hblocks hok hpass ?_, rfl⟩
      rw [← hdrBtf_width hp]
      rfl

theorem progressPdu_keepsHeader (hp : paramsOk e.par = true) (h : TargetReached e.par b.framer)
    (ht : frameType e.par.profile b.framer.ftype = .pdu bl mb ilv) (hphase : PhaseOk e.par.profile b.framer)
    (hheader : HeaderOk e.par.profile b.framer) : KeepsHeader e.par.profile b (progressPdu e bl mb ilv b) := by
  obtain ⟨htarget, -, hexpected⟩ := (phaseOk_pdu ht).mp hphase
  have haccepted := (headerOk_pdu ht).mp hheader h.framing
  unfold progressPdu
  simp only [blockIndex_eq (pdu_fits hp ht).pos (h.full.trans htarget)]
  generalize decodeBlock e ilv _ _ = r
  have ht' : frameType e.par.profile (addBlock r b).framer.ftype = .pdu bl mb ilv := ht
  split
  next hzero =>
    have hone : (addBlock r b).framer.blocks = [r] := by simp [List.eq_nil_of_length_eq_zero hzero]
    exact (progressHeader_keepsHeader hp ht' hone).from_same rfl
  next hdata =>
    obtain ⟨hd, rest, hcons⟩ := List.exists_cons_of_length_pos (Nat.pos_of_ne_zero hdata)
    obtain ⟨hok, hpass, hcount⟩ := haccepted hd rest hcons
    obtain ⟨hbefore, -⟩ := hexpected (by simp [hcons])
    have hadded : (addBlock r b).framer.blocks = hd :: (rest ++ [r]) := by simp [hcons]
    have hdeclared : BlocksDeclared e.par.profile (addBlock r b).framer := fun h' rest' hcons' => by
      obtain ⟨rfl, rfl⟩ := List.cons_eq_cons.mp (hadded.symm.trans hcons')
      refine .inr ⟨hok, hpass, ?_⟩
      rw [hcons, hcount, List.length_cons] at hbefore
      rw [List.length_append, List.length_singleton]
      omega
    exact (endOrContinue_keepsHeader (emitFrame_pdu_orphanBlock ht' hdeclared)
      (headerOk_of_accepted hadded hok hpass hcount)).from_same rfl

/-- With PREFIX_LEN bits read no block has been collected. -/
theorem progressPrefix_keepsHeader (hblocks : b.framer.blocks = []) :
    KeepsHeader e.par.profile b (progressPrefix e b) := by
  unfold progressPrefix
  dsimp only
  generalize BitVec.ofNat 4 (field b.framer.buf e.par.profile.typePos e.par.profile.typeWidth) = t
  split
  next => exact ⟨toSearching_headerOk .., rfl⟩
  next ht =>
    split
    · exact KeepsHeader.from_same (emitFrame_keepsHeader (emitFrame_raw_orphanBlock ht)) rfl
    · exact ⟨headerOk_of_no_blocks hblocks, rfl⟩
  next => exact ⟨headerOk_of_no_blocks hblocks, rfl⟩
  next => exact ⟨headerOk_of_no_blocks hblocks, rfl⟩

theorem progress_keepsHeader (hp : paramsOk e.par = true) (h : TargetReached e.par b.framer)
    (hphase : (b.framer.target = e.par.profile.prefixLen ∧ b.framer.blocks = []) ∨ PhaseOk e.par.profile b.framer)
    (hheader : HeaderOk e.par.profile b.framer) : KeepsHeader e.par.profile b (progress e b) := by
  have hfull := h.full
  unfold progress
  split
  next hbuf =>
    rcases hphase with ⟨-, hblocks⟩ | hphase
    · exact progressPrefix_keepsHeader hblocks
    · have := hphase.prefixLen_lt hp
      omega
  next hbuf =>
    have hphase' : PhaseOk e.par.profile b.framer := hphase.resolve_left fun ⟨htarget, _⟩ => hbuf (hfull.trans htarget)
    split
    next => exact resync_keepsHeader ..
    next ht => exact emitFrame_keepsHeader (emitFrame_raw_orphanBlock ht)
    next ht => exact progressTsbk_keepsHeader ht
    next ht => exact progressPdu_keepsHeader hp h ht hphase' hheader

end Progress

/-! ## One dibit, one sample, one command -/

theorem frameStep_keepsHeader {e : Env} {b : Backend} (hp : paramsOk e.par = true) (h : FramerOk e.par b.framer)
    (hframing : b.framer.fstate = .framing) (hheader : HeaderOk e.par.profile b.framer) (d : Dibit) :
    KeepsHeader e.par.profile b (frameStep e d b) := by
  have heven : (appendDibit d b.framer).buf.length % 2 = 0 := by
    have := h.even
    rw [appendDibit_buf_length]
    omega
  unfold frameStep
  dsimp only
  split
  · exact ⟨hheader, rfl⟩
  split
  next hfull =>
    exact KeepsHeader.from_same
      (progress_keepsHeader hp ⟨h.fill, h.ring, hframing, heven, hfull⟩ (h.phase hframing) hheader) rfl
  next => exact ⟨hheader, rfl⟩

/-- A frame begins with no block; SEARCHING has no header. -/
theorem searchStep_keepsHeader (e : Env) {b : Backend} (hsearching : b.framer.fstate = .searching) (d : Dibit)
    (n : BitVec 64) : KeepsHeader e.par.profile b (searchStep e d n b) := by
  unfold searchStep
  dsimp only
  split
  · exact ⟨headerOk_of_no_blocks rfl, rfl⟩
  · refine ⟨headerOk_of_not_framing fun hframing => ?_, rfl⟩
    cases hsearching.symm.trans hframing

theorem framerStep_keepsHeader {e : Env} {b : Backend} (hp : paramsOk e.par = true) (h : FramerOk e.par b.framer)
    (hheader : HeaderOk e.par.profile b.framer) (d : Dibit) (n : BitVec 64) :
    KeepsHeader e.par.profile b (framerStep e d n b) := by
  unfold framerStep
  split
  next hs => exact searchStep_keepsHeader e hs d n
  next hf => exact frameStep_keepsHeader hp h hf hheader d
  all_goals exact ⟨hheader, rfl⟩

theorem strobeStep_keepsHeader {e : Env} {b : Backend} (hp : paramsOk e.par = true) (h : FramerOk e.par b.framer)
    (hheader : HeaderOk e.par.profile b.framer) (k : CorRegs) (soft : Word) (n : BitVec 64) :
    KeepsHeader e.par.profile b (strobeStep e k soft n b) := by
  unfold strobeStep
  split
  · exact (framerStep_keepsHeader (b := { b with cnt.symbolCount := b.cnt.symbolCount + 1 }) hp h hheader ..).from_same rfl
  · exact ⟨hheader, rfl⟩

@[simp] theorem sendFeedback_orphanBlock (w : Option Word) (b : Backend) :
    (sendFeedback w b).cnt.orphanBlock = b.cnt.orphanBlock := by
  cases w <;> rfl

theorem sampleStep_orphanInv {s : State} (x : Sample) (h : OrphanInv s) : OrphanInv (sampleStep s x) := by
  have hkeeps (w : Option Word) (soft : Word) (n : BitVec 64) :
      KeepsHeader s.par.profile s.back (strobeStep s.env s.cor soft n (sendFeedback w s.back)) :=
    (strobeStep_keepsHeader (e := s.env) h.framer.params (by rw [sendFeedback_framer]; exact h.framer.framer)
      (by rw [sendFeedback_framer]; exact h.header) s.cor soft n).from_same (sendFeedback_orphanBlock ..)
  exact ⟨sampleStep_framerInv x h.framer, (hkeeps ..).header, (hkeeps ..).orphans.trans h.orphans⟩

theorem pushSamples_orphanInv (xs : List Sample) {s : State} (h : OrphanInv s) : OrphanInv (pushSamples xs s) :=
  pushSamples_induction xs s h fun _ x _ ht => sampleStep_orphanInv x ht

@[simp] theorem sweepBack_orphanBlock (c : CfgRegs) (t : BitVec 64) (b : Backend) :
    (sweepBack c t b).cnt.orphanBlock = b.cnt.orphanBlock := by
  rw [sweepBack, sweepPending_cnt, closeCalls_cnt]

theorem OrphanInv.of_same_framer {s t : State} (h : OrphanInv s) (hpar : t.par = s.par)
    (hframer : t.back.framer = s.back.framer) (horphans : t.back.cnt.orphanBlock = s.back.cnt.orphanBlock) :
    OrphanInv t :=
  ⟨h.framer.of_same_framer hpar hframer, by rw [hpar, hframer]; exact h.header, horphans.trans h.orphans⟩

theorem Effect.orphanInv {s t : State} (h : Effect s t) (hs : OrphanInv s) : OrphanInv t := by
  have hframer := h.framerInv hs.framer
  have hcleared (P : Profile) : HeaderOk P framerCleared := headerOk_of_no_blocks rfl
  cases h with
  | real xs _ _ => exact pushSamples_orphanInv _ hs
  | complex xs _ _ => exact pushSamples_orphanInv _ hs
  | start _ => exact ⟨hframer, hcleared _, rfl⟩
  | stop => exact ⟨hframer, hcleared _, hs.orphans⟩
  | sweep t _ => exact hs.of_same_framer rfl (sweepBack_framer ..) (sweepBack_orphanBlock ..)
  | _ => exact hs.of_same_framer rfl rfl rfl

/-- Settles O36: an emission drops no block of a frame whose header declared them, and every dibit keeps that. -/
theorem orphanInvKept : Obligations.OrphanInvKept := fun _ _ hs h =>
  (step_effect h).orphanInv (hs.of_same_framer (by simp) (by simp) (by simp))

end Sys2Proof.Machine
end

