-- ==== Sys2Proof/Proofs/SyncSearch.lean ====
section
/-! PROOF of O43: the window of a SEARCHING framer, dibit by dibit. -/

namespace Sys2Proof.Machine

open Sys2Proof

/-! ## Windows (R141) -/

theorem windowOf_concat (ds : List Dibit) (d : Dibit) : windowOf (ds ++ [d]) = (windowOf ds <<< 2) ||| d.setWidth 64 := by
  rw [windowOf, List.foldl_append]
  rfl

/-- Bits 2j and 2j + 1 of a window are the dibit j places before the newest; dibits are given newest first. -/
theorem windowOf_reverse_getLsbD (ds : List Dibit) {i : Nat} (hi : i < 64) :
    (windowOf ds.reverse).getLsbD i = (ds.getD (i / 2) 0).getLsbD (i % 2) := by
  induction ds generalizing i with
  | nil => exact (BitVec.getLsbD_zero ..).trans (BitVec.getLsbD_zero ..).symm
  | cons d ds ih =>
    rw [List.reverse_cons, windowOf_concat, BitVec.getLsbD_or, BitVec.getLsbD_shiftLeft, BitVec.getLsbD_setWidth]
    by_cases hnew : i < 2
    · have hdiv : i / 2 = 0 := by omega
      have hmod : i % 2 = i := by omega
      simp [hnew, hi, hdiv, hmod]
    · have hdiv : i / 2 = (i - 2) / 2 + 1 := by omega
      have hmod : i % 2 = (i - 2) % 2 := by omega
      have hpast : d.getLsbD i = false := BitVec.getLsbD_of_ge d i (by omega)
      rw [ih (by omega), hdiv, hmod, List.getD_cons_succ]
      simp [hnew, hi, hpast]

theorem windowMask_getLsbD (P : Profile) (w : BitVec 64) {i : Nat} (hi : i < 64) :
    (windowMask P w).getLsbD i = (w.getLsbD i && decide (i < P.syncLen)) := by
  rw [windowMask, BitVec.getLsbD_and, BitVec.getLsbD_ofNat, Nat.testBit_two_pow_sub_one, decide_eq_true hi, Bool.true_and]

/-- Reduced modulo 2^SYNC_LEN, the window of all dibits is the window of the last SYNC_LEN/2. -/
theorem windowMask_windowOf {P : Profile} (heven : P.syncLen % 2 = 0) (ds : List Dibit) :
    windowMask P (windowOf ds) = windowOf (ds.rtake (P.syncLen / 2)) := by
  apply BitVec.eq_of_getLsbD_eq
  intro i hi
  have hall := windowOf_reverse_getLsbD ds.reverse hi
  rw [List.reverse_reverse] at hall
  rw [windowMask_getLsbD P _ hi, hall, List.rtake_eq_reverse_take_reverse, windowOf_reverse_getLsbD _ hi]
  by_cases hin : i < P.syncLen
  · rw [decide_eq_true hin, Bool.and_true, List.getD_eq_getElem?_getD, List.getD_eq_getElem?_getD,
      List.getElem?_take_of_lt (by omega)]
  · have hout : (ds.reverse.take (P.syncLen / 2)).length ≤ i / 2 := (List.length_take_le ..).trans (by omega)
    rw [decide_eq_false hin, Bool.and_false, List.getD_eq_default _ _ hout]
    exact (BitVec.getLsbD_zero ..).symm

/-! ## The last dibits of a list -/

theorem rtake_of_length_le {α : Type} {l : List α} {n : Nat} (h : l.length ≤ n) : l.rtake n = l := by
  rw [List.rtake, Nat.sub_eq_zero_of_le h, List.drop_zero]

theorem length_rtake_le {α : Type} (l : List α) (n : Nat) : (l.rtake n).length ≤ n := by
  rw [List.rtake, List.length_drop]
  omega

/-- Of the last n with one more, the last n are the last n of all. -/
theorem rtake_concat_rtake {α : Type} (l : List α) (x : α) (n : Nat) : (l.rtake n ++ [x]).rtake n = (l ++ [x]).rtake n := by
  simp only [List.rtake_eq_reverse_take_reverse, List.reverse_append, List.reverse_reverse, List.reverse_singleton,
    List.singleton_append]
  cases n with
  | zero => rfl
  | succ n => rw [List.take_succ_cons, List.take_succ_cons, List.take_take, Nat.min_eq_left (Nat.le_succ n)]

theorem map_rtake {α β : Type} (f : α → β) (l : List α) (n : Nat) : (l.rtake n).map f = (l.map f).rtake n := by
  rw [List.rtake, List.rtake, List.map_drop, List.length_map]

/-! ## The framer while it searches -/

/-- SearchStep's window, kept to the last SYNC_LEN/2 dibits. -/
theorem pushWindow_windowOf {P : Profile} (heven : P.syncLen % 2 = 0) (ds : List Dibit) (d : Dibit) :
    pushWindow P (windowOf (ds.rtake (P.syncLen / 2))) d = windowOf ((ds ++ [d]).rtake (P.syncLen / 2)) := by
  rw [pushWindow, ← windowOf_concat, windowMask_windowOf heven, rtake_concat_rtake]

theorem pushTs_rtake (P : Profile) (ts : List (BitVec 64)) (n : BitVec 64) :
    pushTs P (ts.rtake (P.syncLen / 2)) n = (ts ++ [n]).rtake (P.syncLen / 2) := by
  rw [← rtake_concat_rtake]
  have hle := length_rtake_le ts (P.syncLen / 2)
  generalize ts.rtake (P.syncLen / 2) = ring at hle
  have hlen : (ring ++ [n]).length = ring.length + 1 := List.length_append
  unfold pushTs
  split
  next hfull => rw [List.rtake, show (ring ++ [n]).length - P.syncLen / 2 = 1 by omega, List.drop_one]
  next hroom => rw [rtake_of_length_le (by omega)]

/-- A framer that has read these dibits from an empty window, and found nothing. -/
def searched (P : Profile) (b : Backend) (xs : List (Dibit × BitVec 64)) : Backend :=
  { b with framer := { b.framer with
    window := windowOf ((xs.rtake (P.syncLen / 2)).map Prod.fst)
    fill := min (2 * xs.length) P.syncLen
    tsRing := (xs.rtake (P.syncLen / 2)).map Prod.snd } }

/-- The window of some dibits is within SYNC_TOL of a known pattern (R142). -/
def NearSync (e : Env) (xs : List (Dibit × BitVec 64)) : Prop :=
  ∃ v ∈ e.par.profile.sync, popcount (windowOf (xs.map Prod.fst) ^^^ v) ≤ e.cfg.syncTol.toNat

theorem syncMatches_windowOf (e : Env) (xs : List (Dibit × BitVec 64)) :
    syncMatches e.par.profile e.cfg.syncTol.toNat (windowOf (xs.map Prod.fst)) = true ↔ NearSync e xs := by
  simp only [syncMatches, List.any_eq_true, decide_eq_true_eq, NearSync]

theorem searched_nil {P : Profile} {b : Backend} (hwindow : b.framer.window = 0) (hfill : b.framer.fill = 0)
    (hring : b.framer.tsRing = []) : searched P b [] = b := by
  obtain ⟨cnt, f, pending, agg, trace⟩ := b
  obtain ⟨fstate, window, fill, tsRing, frameTs, k, buf, target, ftype, blocks, expected, hdrFormat⟩ := f
  cases hwindow
  cases hfill
  cases hring
  simp [searched, windowOf]

theorem shiftIn_searched {P : Profile} (heven : P.syncLen % 2 = 0) (b : Backend) (xs : List (Dibit × BitVec 64))
    (x : Dibit × BitVec 64) : shiftIn P (searched P b xs).framer x.1 x.2 = (searched P b (xs ++ [x])).framer := by
  have hfill : min (min (2 * xs.length) P.syncLen + 2) P.syncLen = min (2 * (xs ++ [x]).length) P.syncLen := by
    rw [List.length_append, List.length_singleton]
    omega
  simp only [shiftIn, searched, map_rtake, pushWindow_windowOf heven, pushTs_rtake, hfill, List.map_append,
    List.map_cons, List.map_nil]

/-- The frame that begins at a match (R141, R153). -/
def frameBegun (P : Profile) (b : Backend) (xs : List (Dibit × BitVec 64)) : Backend :=
  { searched P b xs with
    framer := beginFrame P (searched P b xs).framer
    cnt := { b.cnt with syncCount := b.cnt.syncCount + 1 } }

section Search

variable {e : Env} {b : Backend}

theorem searched_full {P : Profile} (heven : P.syncLen % 2 = 0) (xs : List (Dibit × BitVec 64)) :
    (searched P b xs).framer.fill = P.syncLen ↔ P.syncLen / 2 ≤ xs.length := by
  change min (2 * xs.length) P.syncLen = P.syncLen ↔ _
  omega

/-- One more dibit while SEARCHING: a frame begins exactly when the window is full and near a pattern. -/
theorem framerStep_searched_match (heven : e.par.profile.syncLen % 2 = 0) (hsearching : b.framer.fstate = .searching)
    {xs : List (Dibit × BitVec 64)} {x : Dibit × BitVec 64} (hfull : e.par.profile.syncLen / 2 ≤ (xs ++ [x]).length)
    (hnear : NearSync e ((xs ++ [x]).rtake (e.par.profile.syncLen / 2))) :
    framerStep e x.1 x.2 (searched e.par.profile b xs) = frameBegun e.par.profile b (xs ++ [x]) := by
  have hstate : (searched e.par.profile b xs).framer.fstate = .searching := hsearching
  have hmatch := (syncMatches_windowOf e _).mpr hnear
  have hfill := (searched_full (b := b) heven (xs ++ [x])).mpr hfull
  simp only [framerStep, hstate, searchStep, shiftIn_searched heven]
  rw [if_pos (by rw [Bool.and_eq_true, decide_eq_true_eq]; exact ⟨hfill, hmatch⟩)]
  rfl

theorem framerStep_searched_no_match (heven : e.par.profile.syncLen % 2 = 0) (hsearching : b.framer.fstate = .searching)
    {xs : List (Dibit × BitVec 64)} {x : Dibit × BitVec 64}
    (hfar : e.par.profile.syncLen / 2 ≤ (xs ++ [x]).length → ¬ NearSync e ((xs ++ [x]).rtake (e.par.profile.syncLen / 2))) :
    framerStep e x.1 x.2 (searched e.par.profile b xs) = searched e.par.profile b (xs ++ [x]) := by
  have hstate : (searched e.par.profile b xs).framer.fstate = .searching := hsearching
  simp only [framerStep, hstate, searchStep, shiftIn_searched heven]
  rw [if_neg fun h => ?_]
  · rfl
  · rw [Bool.and_eq_true, decide_eq_true_eq, searched_full heven] at h
    obtain ⟨hfull, hmatch⟩ := h
    exact hfar hfull ((syncMatches_windowOf e _).mp hmatch)

theorem feedDibits_concat (e : Env) (b : Backend) (xs : List (Dibit × BitVec 64)) (x : Dibit × BitVec 64) :
    feedDibits e b (xs ++ [x]) = framerStep e x.1 x.2 (feedDibits e b xs) := by
  rw [feedDibits, List.foldl_append]
  rfl

/-- While no full window matches, the framer only shifts. -/
theorem feedDibits_eq_searched (heven : e.par.profile.syncLen % 2 = 0) (hsearching : b.framer.fstate = .searching)
    (hwindow : b.framer.window = 0) (hfill : b.framer.fill = 0) (hring : b.framer.tsRing = [])
    (xs : List (Dibit × BitVec 64))
    (hfar : ∀ n, e.par.profile.syncLen / 2 ≤ n → n ≤ xs.length → ¬ NearSync e ((xs.take n).rtake (e.par.profile.syncLen / 2))) :
    feedDibits e b xs = searched e.par.profile b xs := by
  induction xs using List.reverseRecOn with
  | nil => exact (searched_nil hwindow hfill hring).symm
  | append_singleton xs x ih =>
    have hbefore := ih fun n hmin hmax => by
      have h := hfar n hmin (by rw [List.length_append]; omega)
      rwa [List.take_append_of_le_length hmax] at h
    rw [feedDibits_concat, hbefore]
    refine framerStep_searched_no_match heven hsearching fun hfull => ?_
    have h := hfar _ hfull le_rfl
    rwa [List.take_length] at h

end Search

theorem syncLen_of_paramsOk {p : Params} (hp : paramsOk p = true) : p.profile.syncLen % 2 = 0 ∧ 2 ≤ p.profile.syncLen := by
  simp only [paramsOk, syncOk, Bool.and_eq_true, and_assoc, decide_eq_true_eq] at hp
  obtain ⟨-, -, heven, hmin, -⟩ := hp
  exact ⟨heven, hmin⟩

/-- Settles O43: the search up to the last dibit finds nothing, and that dibit decides. -/
theorem syncFoundWithinTolerance : Obligations.SyncFoundWithinTolerance := by
  intro e b xs hp hsearching hwindow hfill hring m near last
  obtain ⟨heven, hmin⟩ := syncLen_of_paramsOk hp
  have hm : e.par.profile.syncLen = 2 * m := by omega
  have hsearched := feedDibits_eq_searched heven hsearching hwindow hfill hring
  refine ⟨fun hshort => ?_, fun hlong hfar => ⟨fun hnear => ?_, fun hnot => ?_⟩⟩
  · rw [hsearched xs fun n hn hle => by omega]
    simp only [searched]
    rw [rtake_of_length_le hshort.le, Nat.min_eq_left (by omega)]
  · obtain ⟨ys, y, rfl⟩ : ∃ ys y, xs = ys ++ [y] :=
      ⟨_, _, (List.dropLast_append_getLast (List.ne_nil_of_length_pos (by omega))).symm⟩
    have hbefore := hsearched ys fun n hn hle => by
      have h := hfar n hn (by rw [List.length_append, List.length_singleton]; omega)
      rw [List.take_append_of_le_length hle] at h
      rwa [List.rtake, List.length_take, Nat.min_eq_left hle]
    rw [feedDibits_concat, hbefore, framerStep_searched_match heven hsearching hlong hnear]
    simp only [frameBegun, searched, beginFrame]
    rw [Nat.min_eq_right (by omega)]
    rfl
  · have hnowhere := hsearched xs fun n hn hle => by
      rw [List.rtake, List.length_take, Nat.min_eq_left hle]
      rcases hle.lt_or_eq with hlt | rfl
      · exact hfar n hn hlt
      · rw [List.take_length]; exact hnot
    rw [hnowhere]
    simp only [searched]
    rw [Nat.min_eq_right (by omega)]
    rfl

end Sys2Proof.Machine
end

