-- ==== Sys2Proof/Proofs/FramerBlind.lean ====
section
/-! SUPPORT. Emitting and folding a message neither read nor write the framer (R186, R190). -/

namespace Sys2Proof.Machine

open Sys2Proof

/-- An operation that gives the same result for every framer, and leaves the framer as it is. -/
def FramerBlind (g : Backend → Backend) : Prop :=
  ∀ (b : Backend) (f : Framer), g { b with framer := f } = { g b with framer := f }

theorem FramerBlind.comp {g h : Backend → Backend} (hg : FramerBlind g) (hh : FramerBlind h) :
    FramerBlind (fun b => g (h b)) := fun b f =>
  (congrArg g (hh b f)).trans (hg (h b) f)

theorem framerBlind_ite {c : Prop} [Decidable c] {g h : Backend → Backend} (hg : FramerBlind g) (hh : FramerBlind h) :
    FramerBlind (fun b => if c then g b else h b) := fun b f => by
  split
  · exact hg b f
  · exact hh b f

theorem framerBlind_id : FramerBlind (fun b => b) := fun _ _ => rfl

theorem notifyBack_framerBlind (c : NCat) (n : Nat) (x y : Word) : FramerBlind (notifyBack c n x y) := fun _ _ => rfl
theorem notifyCall_framerBlind (c : NCat) (i : Nat) (call : Call) : FramerBlind (notifyCall c i call) := fun _ _ => rfl
theorem setCall_framerBlind (i : Nat) (c : Option Call) : FramerBlind (setCall i c) := fun _ _ => rfl
theorem openCall_framerBlind (i : Nat) (c : Call) : FramerBlind (openCall i c) := fun _ _ => rfl
theorem evictCall_framerBlind (i : Nat) (c : Call) : FramerBlind (evictCall i c) := fun _ _ => rfl
theorem closeCalls_framerBlind (q : Call → Bool) : FramerBlind (closeCalls q) := fun _ _ => rfl
theorem recorded_framerBlind (m : Msg) : FramerBlind (recorded m) := fun _ _ => rfl

theorem foldBroadcast_framerBlind (c : NCat) (m : Msg) (old : Option Broadcast) : FramerBlind (foldBroadcast c m old) :=
  framerBlind_ite framerBlind_id (notifyBack_framerBlind _ _ _ _)

theorem regrant_framerBlind (i : Nat) (old new : Call) : FramerBlind (regrant i old new) :=
  framerBlind_ite
    (framerBlind_ite ((notifyCall_framerBlind .callUpdate i new).comp (setCall_framerBlind i _)) (setCall_framerBlind i _))
    ((openCall_framerBlind i new).comp (notifyCall_framerBlind .callClose i old))

theorem grantNew_framerBlind (c : Call) : FramerBlind (grantNew c) := fun b f => by
  unfold grantNew
  dsimp only
  cases freeSlot b.agg.calls with
  | some i => exact openCall_framerBlind i c b f
  | none =>
    cases oldestCall b.agg.calls with
    | some x => exact (openCall_framerBlind x.1 c).comp (evictCall_framerBlind x.1 x.2) b f
    | none => rfl

theorem foldGrantCall_framerBlind (c : Call) : FramerBlind (foldGrantCall c) := fun b f => by
  unfold foldGrantCall
  dsimp only
  cases findCall c.channel b.agg.calls with
  | some x => exact regrant_framerBlind x.1 x.2 c b f
  | none => exact grantNew_framerBlind c b f

theorem foldGrant_framerBlind (m : Msg) : FramerBlind (foldGrant m) := fun b f => by
  unfold foldGrant
  split
  · exact foldGrantCall_framerBlind _ b f
  · rfl

theorem foldNeighborEntry_framerBlind (p : Params) (e : Neighbor) : FramerBlind (foldNeighborEntry p e) := fun b f => by
  unfold foldNeighborEntry
  dsimp only
  cases findNeighbor e.key b.agg.neighbors with
  | some old =>
    dsimp only
    split
    · rfl
    · rfl
  | none =>
    dsimp only
    split
    · rfl
    · rfl

theorem foldNeighbor_framerBlind (p : Params) (m : Msg) : FramerBlind (foldNeighbor p m) := fun b f => by
  unfold foldNeighbor
  split
  · exact foldNeighborEntry_framerBlind p _ b f
  · rfl

theorem foldSccPair_framerBlind (p : Params) (x : BitVec 16 × BitVec 8) : FramerBlind (foldSccPair p x) := fun b f => by
  unfold foldSccPair
  dsimp only
  split
  · rfl
  · split
    · rfl
    · rfl

theorem foldSccRoles_framerBlind (p : Params) (m : Msg) (r q : Role) : FramerBlind (foldSccRoles p m r q) := fun b f => by
  unfold foldSccRoles
  split
  · exact foldSccPair_framerBlind p _ b f
  · rfl

theorem foldMsg_framerBlind (p : Params) (m : Msg) (cat : Category) : FramerBlind (foldMsg p m cat) := by
  cases cat with
  | none => exact framerBlind_id
  | siteStatus => exact fun b f => foldBroadcast_framerBlind .site m b.agg.site { b with agg.site := _ } f
  | networkStatus => exact fun b f => foldBroadcast_framerBlind .network m b.agg.network { b with agg.network := _ } f
  | neighbor => exact foldNeighbor_framerBlind p m
  | scc => exact (foldSccRoles_framerBlind p m _ _).comp (foldSccRoles_framerBlind p m _ _)
  | grant => exact foldGrant_framerBlind m
  | terminate => exact closeCalls_framerBlind _
  | idle => exact closeCalls_framerBlind _

theorem emitMessage_framerBlind (p : Params) (m : Msg) (cat : Category) : FramerBlind (emitMessage p m cat) := fun b f => by
  rw [emitMessage_eq, emitMessage_eq]
  exact framerBlind_ite ((foldMsg_framerBlind p m cat).comp (recorded_framerBlind m)) (recorded_framerBlind m) b f

end Sys2Proof.Machine
end

