-- ==== Sys2Proof/Proofs/BlockRecords.lean ====
section
/-! SUPPORT. The record of a block, and what parsing a block counts and puts on the trace (R171 to R182). -/

namespace Sys2Proof.Machine

open Sys2Proof

/-! ## Fields and keys -/

theorem natOfBits_lt (b : Bits) : natOfBits b < 2 ^ b.length := by
  induction b using List.reverseRecOn with
  | nil => decide
  | append_singleton b x ih =>
    have hbit : x.toNat ≤ 1 := Bool.toNat_le x
    rw [natOfBits_append_singleton, List.length_append, List.length_singleton, Nat.pow_succ]
    omega

theorem field_lt (b : Bits) (p w : Nat) : field b p w < 2 ^ w :=
  (natOfBits_lt _).trans_le (Nat.pow_le_pow_right (by decide) (slice_length_le b p w))

/-- A number put above the low k bits of a word. -/
theorem ofNat_shiftLeft_or {w k lo : Nat} (hi : Nat) (hlo : lo < 2 ^ k) :
    (BitVec.ofNat w hi <<< k) ||| BitVec.ofNat w lo = BitVec.ofNat w (hi * 2 ^ k + lo) := by
  have hshift : BitVec.ofNat w hi <<< k = BitVec.ofNat w (hi <<< k) := by
    apply BitVec.eq_of_toNat_eq
    simp [Nat.shiftLeft_eq]
  rw [hshift, ← BitVec.ofNat_or, ← Nat.shiftLeft_add_eq_or_of_lt hlo, Nat.shiftLeft_eq]

/-! ## The record of a block (R171, R174, R178, R181) -/

section Records

variable {e : Env} {f : Framer}

theorem tsbkMsg_eq_blockRecord (ht : isTsbkType (frameType e.par.profile f.ftype) = true) (r : BlockResult) (j : Nat) :
    tsbkMsg e r j f.ftype f.frameTs = blockRecord e f r j := by
  have hopcode : field r.bits e.par.profile.tsbkOpcodePos 6 < 2 ^ 8 := (field_lt ..).trans (by decide)
  have hkey := ofNat_shiftLeft_or (w := 32) (field r.bits e.par.profile.tsbkMfidPos 8) hopcode
  simp only [tsbkMsg, blockRecord, ht, if_true, tsbkEntry, tsbkKey, BitVec.or_assoc, hkey]
  cases lookupOpcode e.par.profile e.cfg.direction _ _ with
  | some entry => rfl
  | none => rfl

theorem headerMsg_eq_blockRecord (ht : isTsbkType (frameType e.par.profile f.ftype) = false) (r : BlockResult) :
    headerMsg e r f.ftype f.frameTs = blockRecord e f r 0 := by
  have hformat : field r.bits e.par.profile.hdrFormat.pos 5 < 2 ^ 8 := (field_lt ..).trans (by decide)
  have hmfid : field r.bits e.par.profile.hdrMfidPos 8 < 2 ^ 8 := field_lt ..
  have hlow := ofNat_shiftLeft_or (w := 32) (field r.bits e.par.profile.hdrMfidPos 8) hformat
  have hkey := ofNat_shiftLeft_or (w := 32) (k := 16) (field r.bits e.par.profile.hdrSap.pos 6)
    (show field r.bits e.par.profile.hdrMfidPos 8 * 2 ^ 8 + field r.bits e.par.profile.hdrFormat.pos 5 < 2 ^ 16 by omega)
  simp only [headerMsg, blockRecord, ht, Bool.false_eq_true, if_false, if_true, BitVec.or_assoc, hlow, hkey, Nat.add_assoc]
  rfl

theorem dataBlockMsg_eq_blockRecord (ht : isTsbkType (frameType e.par.profile f.ftype) = false) (r : BlockResult)
    (j : Nat) : dataBlockMsg r (j + 1) f.ftype f.frameTs = blockRecord e f r (j + 1) := by
  simp only [dataBlockMsg, blockRecord, ht, Bool.false_eq_true, if_false, Nat.add_one_ne_zero]

end Records

/-! ## Which events are block records (R89) -/

theorem isBlockRecord_message (m : Msg) :
    (Event.message (msgWords m)).isBlockRecord = decide (classNumber m.cls ≠ 3 ∧ classNumber m.cls ≠ 4) := by
  have hclass : (msgW0 m).toNat / 2 ^ 28 = classNumber m.cls := by
    have h8 := (BitVec.ofNat 8 m.blockIndex).isLt
    have h4 := (BitVec.ofNat 4 m.ids.length).isLt
    have hu := (BitVec.ofBool m.undecoded).isLt
    have hc := (checkCode m.check).isLt
    have hv := (BitVec.ofBool (msgValid m)).isLt
    have ht := m.ftype.isLt
    have hm := m.msgType.isLt
    simp only [msgW0, toNat_append_add, classCode_toNat]
    omega
  simp only [Event.isBlockRecord, msgWords, List.cons_append, List.headD_cons, hclass]

theorem isBlockRecord_blockRecord (e : Env) (f : Framer) (r : BlockResult) (j : Nat) :
    (Event.message (msgWords (blockRecord e f r j))).isBlockRecord = true := by
  rw [isBlockRecord_message]
  unfold blockRecord
  dsimp only
  split
  · rfl
  · split
    · rfl
    · rfl

theorem isBlockRecord_sequenceMsg (q : Pending) : (Event.message (msgWords (sequenceMsg q))).isBlockRecord = false := by
  rw [isBlockRecord_message]
  unfold sequenceMsg
  dsimp only
  split
  · rfl
  · rfl

theorem isBlockRecord_of_isNotify {x : Event} (h : x.isNotify = true) : x.isBlockRecord = false := by
  cases x with
  | notify => rfl
  | _ => cases h

/-! ## What goes on the trace -/

/-- Events were appended whose block records are the given ones, in order; no NOTIFY event where silence is asked for. -/
def RecordsAdded (silent : Prop) (ms : List Msg) (b b' : Backend) : Prop :=
  ∃ es, b'.trace = b.trace ++ es ∧ es.filter Event.isBlockRecord = ms.map (fun m => .message (msgWords m))
    ∧ (silent → ∀ x ∈ es, x.isNotify = false)

section RecordsAdded

variable {silent : Prop} {a b c : Backend} {ms ns : List Msg}

theorem RecordsAdded.of_trace_eq (h : b.trace = a.trace) : RecordsAdded silent [] a b :=
  ⟨[], by rw [h, List.append_nil], rfl, by simp⟩

theorem RecordsAdded.trans (h : RecordsAdded silent ms a b) (g : RecordsAdded silent ns b c) :
    RecordsAdded silent (ms ++ ns) a c := by
  obtain ⟨es, hes, hms, hsilent⟩ := h
  obtain ⟨fs, hfs, hns, hsilent'⟩ := g
  refine ⟨es ++ fs, by rw [hfs, hes, List.append_assoc], by rw [List.filter_append, hms, hns, List.map_append],
    fun hs x hx => ?_⟩
  rcases List.mem_append.mp hx with hx | hx
  · exact hsilent hs x hx
  · exact hsilent' hs x hx

/-- An emitted block record, and the NOTIFY events of its fold. -/
theorem emitMessage_recordsAdded {m : Msg} (hm : (Event.message (msgWords m)).isBlockRecord = true) (p : Params)
    (cat : Category) (b : Backend) : RecordsAdded False [m] b (emitMessage p m cat b) := by
  obtain ⟨es, htrace, hes⟩ := emitMessage_trace p m cat b
  have hnone : es.filter Event.isBlockRecord = [] :=
    List.filter_eq_nil_iff.mpr fun x hx => by simp [isBlockRecord_of_isNotify (hes x hx)]
  exact ⟨_, htrace, by rw [List.filter_cons_of_pos hm, hnone]; rfl, False.elim⟩

/-- An emitted block record without a category. -/
theorem recorded_recordsAdded {m : Msg} (hm : (Event.message (msgWords m)).isBlockRecord = true) (b : Backend) :
    RecordsAdded silent [m] b (recorded m b) :=
  ⟨_, recorded_trace m b, by rw [List.filter_cons_of_pos hm]; rfl, fun _ x hx => by rw [List.mem_singleton.mp hx]; rfl⟩

theorem recorded_sequence_recordsAdded (q : Pending) (b : Backend) :
    RecordsAdded silent [] b (recorded (sequenceMsg q) b) :=
  ⟨_, recorded_trace _ b, by simp [isBlockRecord_sequenceMsg], fun _ x hx => by rw [List.mem_singleton.mp hx]; rfl⟩

/-- Storing a sequence adds at most its own record, when it is complete. -/
theorem storePending_recordsAdded (p : Params) (q : Pending) (b : Backend) :
    RecordsAdded silent [] b (storePending p q b) := by
  unfold storePending
  split
  · rw [completeSequence, emitMessage_none]
    exact recorded_sequence_recordsAdded q b
  · exact .of_trace_eq rfl

theorem abandonPending_trace (b : Backend) : (abandonPending b).trace = b.trace := by
  unfold abandonPending
  split
  · rfl
  · rfl

theorem appendBlock_recordsAdded (p : Params) (m : Msg) (b : Backend) :
    RecordsAdded silent [] b (appendBlock p m b) := by
  unfold appendBlock
  split
  · split
    · exact storePending_recordsAdded ..
    · exact .of_trace_eq rfl
  · exact .of_trace_eq rfl

end RecordsAdded

/-- A parsed block gives its one record; outside a TSBK frame it notifies nothing (R171). -/
theorem parseBlock_recordsAdded (e : Env) (f : Framer) (r : BlockResult) (j : Nat) (b : Backend) :
    RecordsAdded (isTsbkType (frameType e.par.profile f.ftype) = false) [blockRecord e f r j] b
      (parseBlock e r j f.ftype f.frameTs b) := by
  have hrecord := isBlockRecord_blockRecord e f r j
  cases ht : isTsbkType (frameType e.par.profile f.ftype) with
  | true =>
    rw [parseBlock_tsbk ht, parseTsbk, tsbkMsg_eq_blockRecord ht]
    obtain ⟨es, htrace, hes, -⟩ := emitMessage_recordsAdded hrecord e.par (tsbkCategory e r.bits) b
    exact ⟨es, htrace, hes, fun h => by cases h⟩
  | false =>
    cases j with
    | zero =>
      rw [parseBlock_header ht, parseHeader, headerMsg_eq_blockRecord ht, emitMessage_none]
      split
      · exact ((recorded_recordsAdded hrecord b).trans (.of_trace_eq (abandonPending_trace _))).trans
          (storePending_recordsAdded ..)
      · exact recorded_recordsAdded hrecord b
    | succ j =>
      rw [parseBlock_data ht, parseDataBlock, dataBlockMsg_eq_blockRecord ht, emitMessage_none]
      exact (recorded_recordsAdded hrecord b).trans (appendBlock_recordsAdded ..)

/-! ## What the parser counts -/

/-- The parser and the aggregator count messages, sequences and table events, and no frame or block (R43). -/
def ParserCounts (c c' : Counters) : Prop :=
  c' = { c with
    msgCount := c'.msgCount, msgInvalid := c'.msgInvalid, pduComplete := c'.pduComplete
    pduAbandoned := c'.pduAbandoned, orphanBlock := c'.orphanBlock, neighborOverflow := c'.neighborOverflow
    sccOverflow := c'.sccOverflow, callEvict := c'.callEvict }

theorem ParserCounts.refl (c : Counters) : ParserCounts c c := rfl

theorem ParserCounts.trans {a b c : Counters} (h : ParserCounts a b) (g : ParserCounts b c) : ParserCounts a c := by
  unfold ParserCounts at *
  rw [h] at g
  rw [g]

theorem FoldFrame.parserCounts {b b' : Backend} (h : FoldFrame b b') : ParserCounts b.cnt b'.cnt := by
  unfold ParserCounts
  rw [h.cnt]

theorem recorded_parserCounts (m : Msg) (b : Backend) : ParserCounts b.cnt (recorded m b).cnt := rfl

theorem emitMessage_parserCounts (p : Params) (m : Msg) (cat : Category) (b : Backend) :
    ParserCounts b.cnt (emitMessage p m cat b).cnt := by
  rw [emitMessage_eq]
  split
  · exact (recorded_parserCounts m b).trans (foldMsg_frame ..).parserCounts
  · exact recorded_parserCounts m b

theorem storePending_parserCounts (p : Params) (q : Pending) (b : Backend) :
    ParserCounts b.cnt (storePending p q b).cnt := by
  unfold storePending
  split
  · exact (emitMessage_parserCounts p (sequenceMsg q) .none { b with pending := some q }).trans rfl
  · exact .refl _

theorem abandonPending_parserCounts (b : Backend) : ParserCounts b.cnt (abandonPending b).cnt := by
  unfold abandonPending
  split
  · rfl
  · rfl

theorem appendBlock_parserCounts (p : Params) (m : Msg) (b : Backend) : ParserCounts b.cnt (appendBlock p m b).cnt := by
  unfold appendBlock
  split
  · split
    · exact storePending_parserCounts ..
    · rfl
  · rfl

theorem parseHeader_parserCounts (e : Env) (r : BlockResult) (t : BitVec 4) (ts : BitVec 64) (b : Backend) :
    ParserCounts b.cnt (parseHeader e r t ts b).cnt := by
  unfold parseHeader
  dsimp only
  split
  · exact ((emitMessage_parserCounts ..).trans (abandonPending_parserCounts _)).trans (storePending_parserCounts ..)
  · exact emitMessage_parserCounts ..

theorem parseBlock_parserCounts (e : Env) (r : BlockResult) (j : Nat) (t : BitVec 4) (ts : BitVec 64) (b : Backend) :
    ParserCounts b.cnt (parseBlock e r j t ts b).cnt := by
  unfold parseBlock
  split
  · exact emitMessage_parserCounts ..
  · split
    · exact parseHeader_parserCounts ..
    · exact (emitMessage_parserCounts ..).trans (appendBlock_parserCounts ..)

@[simp] theorem emitMessage_msgCount (p : Params) (m : Msg) (cat : Category) (b : Backend) :
    (emitMessage p m cat b).cnt.msgCount = b.cnt.msgCount + 1 := by
  rw [emitMessage_eq]
  split
  · rw [(foldMsg_frame ..).cnt]; rfl
  · rfl

end Sys2Proof.Machine
end

