-- ==== Sys2Proof/Proofs/FrameEnd.lean ====
section
/-! PROOF of O44: EMIT with its counts and records, and the two causes of a resync. -/

namespace Sys2Proof.Machine

open Sys2Proof

/-! ## Counting blocks by their status (R166) -/

/-- The number of blocks with a status, as a counter holds it. -/
def statusCount (st : BlockStatus) (rs : List BlockResult) : Word := BitVec.ofNat 32 (rs.countP fun r => r.status == st)

/-- The corrected bits of the corrected blocks, as a counter holds them. -/
def correctedSum (rs : List BlockResult) : Word :=
  BitVec.ofNat 32 ((rs.filter fun r => r.status == .corrected).map BlockResult.corrected).sum

theorem statusCount_append (st : BlockStatus) (rs ss : List BlockResult) :
    statusCount st (rs ++ ss) = statusCount st rs + statusCount st ss := by
  rw [statusCount, List.countP_append, BitVec.ofNat_add]
  rfl

theorem correctedSum_append (rs ss : List BlockResult) : correctedSum (rs ++ ss) = correctedSum rs + correctedSum ss := by
  rw [correctedSum, List.filter_append, List.map_append, List.sum_append, BitVec.ofNat_add]
  rfl

/-- The block counters advanced by the blocks' statuses; frames and resyncs not counted. -/
structure BlocksCounted (rs : List BlockResult) (c c' : Counters) : Prop where
  ok : c'.blockOk = c.blockOk + statusCount .ok rs
  corrected : c'.blockCorrected = c.blockCorrected + statusCount .corrected rs
  rejected : c'.blockRejected = c.blockRejected + statusCount .rejected rs
  bits : c'.correctedBits = c.correctedBits + correctedSum rs
  frames : c'.frameCount = c.frameCount
  resyncs : c'.resyncCount = c.resyncCount

theorem BlocksCounted.trans {rs ss : List BlockResult} {a b c : Counters} (h : BlocksCounted rs a b)
    (g : BlocksCounted ss b c) : BlocksCounted (rs ++ ss) a c where
  ok := by rw [g.ok, h.ok, statusCount_append, BitVec.add_assoc]
  corrected := by rw [g.corrected, h.corrected, statusCount_append, BitVec.add_assoc]
  rejected := by rw [g.rejected, h.rejected, statusCount_append, BitVec.add_assoc]
  bits := by rw [g.bits, h.bits, correctedSum_append, BitVec.add_assoc]
  frames := g.frames.trans h.frames
  resyncs := g.resyncs.trans h.resyncs

/-- Parsing counts no block. -/
theorem ParserCounts.blocksCounted {c c' : Counters} (h : ParserCounts c c') : BlocksCounted [] c c' := by
  have hnone (x : Word) : x = x + 0 := (BitVec.add_zero x).symm
  rw [h]
  exact ⟨hnone _, hnone _, hnone _, hnone _, rfl, rfl⟩

theorem countBlock_blocksCounted (r : BlockResult) (b : Backend) : BlocksCounted [r] b.cnt (countBlock r b).cnt := by
  obtain ⟨status, bits, errors, corrected⟩ := r
  cases status
  all_goals
    constructor
    all_goals simp [countBlock, statusCount, correctedSum]

@[simp] theorem countBlock_msgCount (r : BlockResult) (b : Backend) : (countBlock r b).cnt.msgCount = b.cnt.msgCount := by
  unfold countBlock
  split
  all_goals rfl

/-! ## The blocks of a frame (R151) -/

theorem emitBlocks_blocksCounted (e : Env) (t : BitVec 4) (ts : BitVec 64) (rs : List BlockResult) (j : Nat) (b : Backend) :
    BlocksCounted rs b.cnt (emitBlocks e t ts j rs b).cnt := by
  induction rs generalizing j b with
  | nil => exact (ParserCounts.refl _).blocksCounted
  | cons r rs ih =>
    rw [emitBlocks]
    split
    · exact (countBlock_blocksCounted r b).trans (ih ..)
    · exact ((countBlock_blocksCounted r b).trans (parseBlock_parserCounts ..).blocksCounted).trans (ih ..)

/-- The records of a frame's blocks from block j on: one for each block that is not rejected. -/
def blockRecords (e : Env) (f : Framer) (j : Nat) (rs : List BlockResult) : List Msg :=
  ((rs.zipIdx j).filter fun x => x.1.status != .rejected).map fun x => blockRecord e f x.1 x.2

theorem emitBlocks_recordsAdded (e : Env) (f : Framer) (rs : List BlockResult) (j : Nat) (b : Backend) :
    RecordsAdded (isTsbkType (frameType e.par.profile f.ftype) = false) (blockRecords e f j rs) b
      (emitBlocks e f.ftype f.frameTs j rs b) := by
  induction rs generalizing j b with
  | nil => exact .of_trace_eq rfl
  | cons r rs ih =>
    have hcounted := RecordsAdded.of_trace_eq (silent := isTsbkType (frameType e.par.profile f.ftype) = false)
      (countBlock_trace r b)
    rw [emitBlocks]
    split
    next hrejected =>
      have hskip : blockRecords e f j (r :: rs) = blockRecords e f (j + 1) rs := by
        simp [blockRecords, List.zipIdx_cons, hrejected]
      rw [hskip]
      exact hcounted.trans (ih ..)
    next hok =>
      have hrecord : blockRecords e f j (r :: rs) = [blockRecord e f r j] ++ blockRecords e f (j + 1) rs := by
        simp [blockRecords, List.zipIdx_cons, hok]
      rw [hrecord]
      exact (hcounted.trans (parseBlock_recordsAdded ..)).trans (ih ..)

/-- Every trunking block that is not rejected is one message. -/
theorem emitBlocks_tsbk_msgCount {e : Env} {t : BitVec 4} (ht : isTsbkType (frameType e.par.profile t) = true)
    (ts : BitVec 64) (rs : List BlockResult) (j : Nat) (b : Backend) :
    (emitBlocks e t ts j rs b).cnt.msgCount
      = b.cnt.msgCount + BitVec.ofNat 32 (rs.countP fun r => r.status != .rejected) := by
  induction rs generalizing j b with
  | nil => exact (BitVec.add_zero _).symm
  | cons r rs ih =>
    rw [emitBlocks, ih]
    split
    next hrejected => simp [hrejected]
    next hok =>
      rw [parseBlock_tsbk ht, parseTsbk, emitMessage_msgCount, countBlock_msgCount, List.countP_cons_of_pos (by simpa using hok),
        Nat.add_comm, BitVec.ofNat_add, BitVec.add_assoc]
      rfl

/-! ## EMIT (R151, R184) -/

section Emit

variable {e : Env} {b : Backend}

theorem emitPayload_raw {len : Nat} {cat : Category} (ht : frameType e.par.profile b.framer.ftype = .raw len cat) :
    emitPayload e b = emitMessage e.par (rawRecord b.framer) cat b := by
  simp only [emitPayload, ht]
  rfl

theorem emitPayload_blocks (ht : ∀ len cat, frameType e.par.profile b.framer.ftype ≠ .raw len cat) :
    emitPayload e b = emitBlocks e b.framer.ftype b.framer.frameTs 0 b.framer.blocks b := by
  unfold emitPayload
  split
  next hraw => exact absurd hraw (ht _ _)
  all_goals rfl

/-- The backend with which EMIT parses: the frame counted. -/
def emitting (b : Backend) : Backend := { b with framer.fstate := .emit, cnt.frameCount := b.cnt.frameCount + 1 }

theorem emitFrame_eq (e : Env) (b : Backend) :
    emitFrame e b = { emitPayload e (emitting b) with framer := searchingAgain b.framer } := by
  have hframer : toSearching (emitPayload e (emitting b)).framer = searchingAgain b.framer := by
    rw [emitPayload_framer]
    rfl
  rw [← hframer]
  rfl

theorem emitFrame_raw {len : Nat} {cat : Category} (ht : frameType e.par.profile b.framer.ftype = .raw len cat) :
    emitFrame e b = { emitMessage e.par (rawRecord b.framer) cat
        { b with cnt := { b.cnt with frameCount := b.cnt.frameCount + 1 } } with framer := searchingAgain b.framer } := by
  have hblind := emitMessage_framerBlind e.par (rawRecord b.framer) cat
    { b with cnt := { b.cnt with frameCount := b.cnt.frameCount + 1 } } (emitting b).framer
  have hpayload : emitPayload e (emitting b) = emitMessage e.par (rawRecord b.framer) cat (emitting b) :=
    emitPayload_raw ht
  rw [emitFrame_eq, hpayload]
  exact congrArg (fun x : Backend => { x with framer := searchingAgain b.framer }) hblind

theorem emitFrame_blocks (ht : ∀ len cat, frameType e.par.profile b.framer.ftype ≠ .raw len cat) :
    emitFrame e b = { emitBlocks e b.framer.ftype b.framer.frameTs 0 b.framer.blocks (emitting b) with
      framer := searchingAgain b.framer } := by
  have hpayload : emitPayload e (emitting b) = emitBlocks e b.framer.ftype b.framer.frameTs 0 b.framer.blocks (emitting b) :=
    emitPayload_blocks ht
  rw [emitFrame_eq, hpayload]

/-- EMIT counts its frame, its blocks where it has them, and no resync. -/
theorem emitFrame_counts (e : Env) (b : Backend) : (emitFrame e b).cnt.frameCount = b.cnt.frameCount + 1
    ∧ (emitFrame e b).cnt.resyncCount = b.cnt.resyncCount := by
  rw [emitFrame_eq]
  by_cases ht : ∃ len cat, frameType e.par.profile (emitting b).framer.ftype = .raw len cat
  · obtain ⟨len, cat, ht⟩ := ht
    have h := (emitMessage_parserCounts e.par (rawRecord (emitting b).framer) cat (emitting b)).blocksCounted
    rw [emitPayload_raw ht]
    exact ⟨h.frames, h.resyncs⟩
  · have h := emitBlocks_blocksCounted e (emitting b).framer.ftype (emitting b).framer.frameTs (emitting b).framer.blocks 0
      (emitting b)
    rw [emitPayload_blocks fun len cat hraw => ht ⟨len, cat, hraw⟩]
    exact ⟨h.frames, h.resyncs⟩

@[simp] theorem emitFrame_resyncCount (e : Env) (b : Backend) : (emitFrame e b).cnt.resyncCount = b.cnt.resyncCount :=
  (emitFrame_counts e b).2

end Emit

/-! ## Resync (R148, R150) -/

section Resync

variable {e : Env} {b : Backend} {bl mb ilv : Nat}

theorem endOrContinue_resyncCount (isEnd : Bool) :
    (endOrContinue e bl isEnd b).cnt.resyncCount = b.cnt.resyncCount := by
  cases isEnd with
  | true => exact emitFrame_resyncCount e b
  | false => rfl

/-- With PREFIX_LEN bits read, only an invalid type is a resync. -/
theorem progressPrefix_resyncCount
    (ht : frameType e.par.profile (BitVec.ofNat 4 (field b.framer.buf e.par.profile.typePos e.par.profile.typeWidth)) ≠ .invalid) :
    (progressPrefix e b).cnt.resyncCount = b.cnt.resyncCount := by
  unfold progressPrefix
  dsimp only
  split
  next hinvalid => exact absurd hinvalid ht
  next =>
    split
    · exact emitFrame_resyncCount ..
    · rfl
  all_goals rfl

/-- A header that passes its check and declares too many blocks. -/
def TooManyDeclared (P : Profile) (mb : Nat) (r : BlockResult) : Prop :=
  r.status ≠ .rejected ∧ checkPass P.checkHeader r.bits = true ∧ mb - 1 < field r.bits P.hdrBtf.pos P.hdrBtf.width

theorem progressHeader_tooMany {r : BlockResult} (h : TooManyDeclared e.par.profile mb r) :
    progressHeader e bl mb r b = resync b := by
  obtain ⟨hok, hpass, hmany⟩ := h
  have haccepted : ¬ (r.status == .rejected || !checkPass e.par.profile.checkHeader r.bits) = true := by
    simp [hok, hpass]
  unfold progressHeader
  dsimp only
  rw [if_neg haccepted, if_pos hmany]

theorem progressHeader_resyncCount {r : BlockResult} (h : ¬ TooManyDeclared e.par.profile mb r) :
    (progressHeader e bl mb r b).cnt.resyncCount = b.cnt.resyncCount := by
  unfold progressHeader
  dsimp only
  split
  · exact emitFrame_resyncCount ..
  next haccepted =>
    rw [Bool.or_eq_true, not_or, beq_iff_eq, Bool.not_eq_true', Bool.not_eq_false] at haccepted
    obtain ⟨hok, hpass⟩ := haccepted
    rw [if_neg fun hmany => h ⟨hok, hpass, hmany⟩]
    split
    · exact emitFrame_resyncCount ..
    · rfl

/-- The first block of a PDU frame is always decoded, and taken for its header. -/
theorem progressPdu_header (hzero : blockIndex e.par.profile bl b.framer = 0) :
    progressPdu e bl mb ilv b =
      progressHeader e bl mb (decodeBlock e ilv false (slice b.framer.buf e.par.profile.prefixLen bl))
        (addBlock (decodeBlock e ilv false (slice b.framer.buf e.par.profile.prefixLen bl)) b) := by
  have hblock : blockBits e.par.profile bl 0 b.framer = slice b.framer.buf e.par.profile.prefixLen bl := by
    rw [blockBits, Nat.zero_mul, Nat.add_zero]
  have hdecoded : (decide (1 ≤ 0) && e.par.profile.confirmedFormats.contains b.framer.hdrFormat) = false := rfl
  unfold progressPdu
  simp only [hzero, if_true, hblock, hdecoded]

theorem progressPdu_data_resyncCount (hdata : blockIndex e.par.profile bl b.framer ≠ 0) :
    (progressPdu e bl mb ilv b).cnt.resyncCount = b.cnt.resyncCount := by
  unfold progressPdu
  dsimp only
  rw [if_neg hdata]
  exact endOrContinue_resyncCount ..

theorem progress_prefix (hbuf : b.framer.buf.length = e.par.profile.prefixLen) : progress e b = progressPrefix e b :=
  if_pos hbuf

theorem progress_pdu (hbuf : b.framer.buf.length ≠ e.par.profile.prefixLen)
    (ht : frameType e.par.profile b.framer.ftype = .pdu bl mb ilv) : progress e b = progressPdu e bl mb ilv b := by
  rw [progress, if_neg hbuf]
  simp only [ht]

/-- After a block, only a header that declares too many is a resync. -/
theorem progress_block_resyncCount (hbuf : b.framer.buf.length ≠ e.par.profile.prefixLen)
    (ht : frameType e.par.profile b.framer.ftype ≠ .invalid)
    (hfew : ∀ bl mb ilv, frameType e.par.profile b.framer.ftype = .pdu bl mb ilv → blockIndex e.par.profile bl b.framer = 0 →
      ¬ TooManyDeclared e.par.profile mb (decodeBlock e ilv false (slice b.framer.buf e.par.profile.prefixLen bl))) :
    (progress e b).cnt.resyncCount = b.cnt.resyncCount := by
  cases htype : frameType e.par.profile b.framer.ftype with
  | invalid => exact absurd htype ht
  | raw len cat =>
    rw [progress, if_neg hbuf]
    simp only [htype, emitFrame_resyncCount]
  | tsbk bl mb ilv =>
    rw [progress, if_neg hbuf]
    simp only [htype]
    exact endOrContinue_resyncCount ..
  | pdu bl mb ilv =>
    rw [progress_pdu hbuf htype]
    by_cases hzero : blockIndex e.par.profile bl b.framer = 0
    · rw [progressPdu_header hzero]
      exact progressHeader_resyncCount (hfew bl mb ilv htype hzero)
    · exact progressPdu_data_resyncCount hzero

end Resync

/-- Settles O44: EMIT by the frame's type, resync by its two causes. -/
theorem emitCountsBlocks : Obligations.EmitCountsBlocks := by
  refine ⟨fun e b => ?_, fun e b => ?_⟩
  · obtain ⟨hframes, hresyncs⟩ := emitFrame_counts e b
    refine ⟨emitFrame_framer e b, hframes, hresyncs, fun len cat ht => emitFrame_raw ht, fun ht => ?_, fun ht => ?_⟩
    · have hcounted := emitBlocks_blocksCounted e b.framer.ftype b.framer.frameTs b.framer.blocks 0 (emitting b)
      obtain ⟨es, htrace, hrecords, hsilent⟩ := emitBlocks_recordsAdded e b.framer b.framer.blocks 0 (emitting b)
      rw [emitFrame_blocks ht]
      refine ⟨hcounted.ok, hcounted.corrected, hcounted.rejected, hcounted.bits, es, htrace, ?_, fun bl mb ilv hpdu => ?_⟩
      · rw [hrecords, blockRecords, List.map_map]
        rfl
      · exact hsilent (by rw [hpdu]; rfl)
    · have hnot : ∀ len cat, frameType e.par.profile b.framer.ftype ≠ .raw len cat := fun len cat hraw => by
        rw [hraw] at ht
        cases ht
      rw [emitFrame_blocks hnot]
      exact emitBlocks_tsbk_msgCount ht b.framer.frameTs b.framer.blocks 0 (emitting b)
  · intro P t unknownType tooMany
    refine ⟨fun ⟨hbuf, ht⟩ => ?_, fun ⟨hbuf, bl, mb, ilv, ht, hzero, hmany⟩ => ?_, fun hknown hfew hreached => ?_⟩
    · rw [progress_prefix hbuf, progressPrefix]
      simp only [P, t] at ht
      simp only [ht]
      rfl
    · rw [progress_pdu hbuf ht, progressPdu_header hzero, progressHeader_tooMany hmany]
      rfl
    · by_cases hbuf : b.framer.buf.length = P.prefixLen
      · rw [progress_prefix hbuf]
        exact progressPrefix_resyncCount fun ht => hknown ⟨hbuf, ht⟩
      · exact progress_block_resyncCount hbuf (hreached.resolve_left hbuf) fun bl mb ilv ht hzero hmany =>
          hfew ⟨hbuf, bl, mb, ilv, ht, hzero, hmany⟩

end Sys2Proof.Machine
end

