-- ==== Sys2Proof/Proofs/TrellisChain.lean ====
section
/-! PROOF of O45 and O48: the decoder by its link errors, and the chains that encode a list of dibits. -/

namespace Sys2Proof.Machine

open Sys2Proof

/-! ## The three outcomes of the decoder (R160) -/

section Outcomes

variable {P : Profile} {limit : Nat} {coded : Bits}

/-- The link errors E of a coded block (R159). -/
def blockErrors (P : Profile) (coded : Bits) : Nat := linkErrors ((nibblesOf coded).map (constOf P))

theorem trellisDecode_of_noErrors (h : blockErrors P coded = 0) :
    trellisDecode P limit coded =
      { status := .ok, bits := outBits (((nibblesOf coded).map (constOf P)).map Prod.snd), errors := 0, corrected := 0 } :=
  if_pos h

theorem trellisDecode_of_fewErrors (hsome : blockErrors P coded ≠ 0) (hfew : blockErrors P coded ≤ limit) :
    trellisDecode P limit coded =
      { status := .corrected, bits := outBits (correctChain P (nibblesOf coded)).1, errors := blockErrors P coded,
        corrected := (correctChain P (nibblesOf coded)).2 } :=
  (if_neg hsome).trans (if_pos hfew)

theorem trellisDecode_of_manyErrors (hmany : limit < blockErrors P coded) :
    trellisDecode P limit coded =
      { status := .rejected, bits := [], errors := blockErrors P coded, corrected := 0 } :=
  (if_neg (Nat.ne_zero_of_lt hmany)).trans (if_neg (Nat.not_le.mpr hmany))

end Outcomes

/-- Settles O45: each range of E has its one outcome. -/
theorem trellisThreshold : Obligations.TrellisThreshold := by
  refine ⟨fun P limit coded => ⟨fun hnone => ?_, fun hsome hfew => ?_, fun hmany => ?_⟩, rfl⟩
  · rw [trellisDecode_of_noErrors hnone]
  · rw [trellisDecode_of_fewErrors (Nat.ne_zero_of_lt hsome) hfew]
  · rw [trellisDecode_of_manyErrors hmany]
    exact ⟨rfl, rfl⟩

/-! ## The raw bits of a chain (R156) -/

@[simp] theorem nibbleOf_bits (v : Nibble) :
    nibbleOf (v.getLsbD 3) (v.getLsbD 2) (v.getLsbD 1) (v.getLsbD 0) = v := by
  revert v
  decide

@[simp] theorem nibblesOf_flatMap_bitsOfNibble (ns : List Nibble) : nibblesOf (ns.flatMap bitsOfNibble) = ns := by
  induction ns with
  | nil => rfl
  | cons v ns ih =>
    calc nibblesOf ((v :: ns).flatMap bitsOfNibble)
        = nibbleOf (v.getLsbD 3) (v.getLsbD 2) (v.getLsbD 1) (v.getLsbD 0) :: nibblesOf (ns.flatMap bitsOfNibble) := rfl
      _ = v :: ns := by rw [nibbleOf_bits, ih]

/-! ## The chain of a list of dibits (R157, R159, R165) -/

section Chain

variable {P : Profile}

@[simp] theorem mem_dibits4 (d : Dibit) : d ∈ dibits4 := by
  revert d
  decide

/-- NEXT is a right inverse of CONST in a checked profile. -/
theorem constOf_nextOf (hP : constOk P = true) (s d : Dibit) : constOf P (nextOf P s d) = (s, d) := by
  obtain ⟨-, hpairs⟩ := (Bool.and_eq_true _ _).mp hP
  exact eq_of_beq (List.all_eq_true.mp (List.all_eq_true.mp hpairs s (mem_dibits4 s)) d (mem_dibits4 d))

@[simp] theorem chainNodes_length (P : Profile) (s : Dibit) (ds : List Dibit) : (chainNodes P s ds).length = ds.length := by
  induction ds generalizing s with
  | nil => rfl
  | cons d ds ih => exact congrArg (· + 1) (ih d)

/-- The inputs of a chain are the dibits that it encodes. -/
theorem chainNodes_inputs (hP : constOk P = true) (s : Dibit) (ds : List Dibit) :
    ((chainNodes P s ds).map (constOf P)).map Prod.snd = ds := by
  induction ds generalizing s with
  | nil => rfl
  | cons d ds ih => rw [chainNodes, List.map_cons, List.map_cons, constOf_nextOf hP, ih]

/-- Every input is the next node's state. -/
theorem chainNodes_linkErrors (hP : constOk P = true) (s : Dibit) (ds : List Dibit) :
    linkErrors ((chainNodes P s ds).map (constOf P)) = 0 := by
  induction ds generalizing s with
  | nil => rfl
  | cons d ds ih =>
    cases ds with
    | nil => rfl
    | cons d' ds =>
      have htail := ih d
      simp only [chainNodes, List.map_cons, constOf_nextOf hP] at htail ⊢
      rw [linkErrors, htail, if_neg (not_not.mpr rfl)]

end Chain

/-- Settles O48: the encoded block reads back as its chain, whose links are all consistent. -/
theorem validChainDecodes : Obligations.ValidChainDecodes := by
  intro P limit s ds hP
  have hnone : blockErrors P ((chainNodes P s ds).flatMap bitsOfNibble) = 0 := by
    rw [blockErrors, nibblesOf_flatMap_bitsOfNibble, chainNodes_linkErrors hP]
  rw [trellisDecode_of_noErrors hnone, nibblesOf_flatMap_bitsOfNibble, chainNodes_inputs hP]

end Sys2Proof.Machine
end

