-- ==== Sys2Proof/Proofs/TrellisCorrection.lean ====
section
/-! PROOF of O46 and O47: the correction pass as a shortest path, with its ties and its count of changed bits. -/

namespace Sys2Proof.Machine

open Sys2Proof

/-! ## The choice at one node (R162) -/

section Choice

variable (P : Profile) (tx : Nibble) (m : Costs) (s : Dibit)

theorem dibit_cases (d : Dibit) : d = 0 ∨ d = 1 ∨ d = 2 ∨ d = 3 := by
  simpa [dibits4] using mem_dibits4 d

theorem Costs.at_mk (f : Dibit → Nat) (d : Dibit) : (Costs.mk (f 0) (f 1) (f 2) (f 3)).at d = f d := by
  obtain rfl | rfl | rfl | rfl := dibit_cases d <;> rfl

theorem bestCost_le_pathCost (d : Dibit) : bestCost P tx m s ≤ pathCost P tx m s d := by
  unfold bestCost
  obtain rfl | rfl | rfl | rfl := dibit_cases d <;> omega

/-- The best cost is the cost of one of the four inputs. -/
theorem exists_pathCost_eq_bestCost : ∃ d, pathCost P tx m s d = bestCost P tx m s := by
  unfold bestCost
  rcases min_choice (min (pathCost P tx m s 0) (pathCost P tx m s 1)) (min (pathCost P tx m s 2) (pathCost P tx m s 3)) with h | h
  · rw [h]
    rcases min_choice (pathCost P tx m s 0) (pathCost P tx m s 1) with h | h
    · exact ⟨0, h.symm⟩
    · exact ⟨1, h.symm⟩
  · rw [h]
    rcases min_choice (pathCost P tx m s 2) (pathCost P tx m s 3) with h | h
    · exact ⟨2, h.symm⟩
    · exact ⟨3, h.symm⟩

/-- The chosen input costs the least. -/
theorem pathCost_bestInput : pathCost P tx m s (bestInput P tx m s) = bestCost P tx m s := by
  unfold bestInput
  split
  next h0 => exact h0
  next h0 =>
    split
    next h1 => exact h1
    next h1 =>
      split
      next h2 => exact h2
      next h2 =>
        obtain ⟨d, hd⟩ := exists_pathCost_eq_bestCost P tx m s
        obtain rfl | rfl | rfl | rfl := dibit_cases d
        · exact absurd hd h0
        · exact absurd hd h1
        · exact absurd hd h2
        · exact hd

/-- The chosen input is the smallest of those that cost the least. -/
theorem bestInput_le {d : Dibit} (hd : pathCost P tx m s d = bestCost P tx m s) : bestInput P tx m s ≤ d := by
  unfold bestInput
  split
  next => exact Nat.zero_le _
  next h0 =>
    obtain rfl | rfl | rfl | rfl := dibit_cases d
    · exact absurd hd h0
    · rw [if_pos hd]
      exact BitVec.le_refl _
    · split
      · decide
      · exact BitVec.le_refl _
    · split
      · decide
      · split <;> decide

end Choice

/-! ## The tables and the forward pass, node by node (R162) -/

section Pass

variable (P : Profile)

/-- The table M of the costs of the nodes `txs`, by the state that they start from: what the node before `txs` uses. -/
def remainingCosts (txs : List Nibble) : Costs := (costTables P txs).headD ⟨0, 0, 0, 0⟩

/-- The forward pass over `txs` from a state, with the tables of `txs`. -/
def correctNodes (s : Dibit) (txs : List Nibble) : List Dibit × Nat := correctFrom P s txs (costTables P txs).tail

theorem correctChain_eq (txs : List Nibble) : correctChain P txs = correctNodes P (constOf P (txs.headD 0)).1 txs := rfl

theorem costTables_cons (tx : Nibble) (txs : List Nibble) (hne : costTables P txs ≠ []) :
    ∃ c, costTables P (tx :: txs) = c :: costTables P txs ∧
      ∀ s, c.at s = bestCost P tx (remainingCosts P txs) s := by
  unfold remainingCosts
  rw [costTables]
  cases h : costTables P txs with
  | nil => exact absurd h hne
  | cons m ms => exact ⟨_, rfl, Costs.at_mk (bestCost P tx m)⟩

theorem costTables_ne_nil (txs : List Nibble) : costTables P txs ≠ [] := by
  induction txs with
  | nil => exact List.cons_ne_nil _ _
  | cons tx txs ih =>
    obtain ⟨c, hc, -⟩ := costTables_cons P tx txs ih
    rw [hc]
    exact List.cons_ne_nil _ _

theorem costTables_eq_cons (txs : List Nibble) : costTables P txs = remainingCosts P txs :: (costTables P txs).tail := by
  unfold remainingCosts
  cases h : costTables P txs with
  | nil => exact absurd h (costTables_ne_nil P txs)
  | cons m ms => rfl

@[simp] theorem remainingCosts_nil (s : Dibit) : (remainingCosts P []).at s = 0 :=
  Costs.at_mk (fun _ => 0) s

@[simp] theorem remainingCosts_cons (tx : Nibble) (txs : List Nibble) (s : Dibit) :
    (remainingCosts P (tx :: txs)).at s = bestCost P tx (remainingCosts P txs) s := by
  obtain ⟨c, hc, hbest⟩ := costTables_cons P tx txs (costTables_ne_nil P txs)
  rw [← hbest s, remainingCosts, hc, List.headD_cons]

@[simp] theorem correctNodes_nil (s : Dibit) : correctNodes P s [] = ([], 0) := rfl

/-- The input that the forward pass takes at the first of the nodes `tx :: txs`. -/
def firstInput (s : Dibit) (tx : Nibble) (txs : List Nibble) : Dibit := bestInput P tx (remainingCosts P txs) s

theorem correctNodes_cons (s : Dibit) (tx : Nibble) (txs : List Nibble) :
    correctNodes P s (tx :: txs) =
      (firstInput P s tx txs :: (correctNodes P (firstInput P s tx txs) txs).1,
        popcount (tx ^^^ nextOf P s (firstInput P s tx txs)) + (correctNodes P (firstInput P s tx txs) txs).2) := by
  obtain ⟨c, hc, -⟩ := costTables_cons P tx txs (costTables_ne_nil P txs)
  have htail : (costTables P (tx :: txs)).tail = remainingCosts P txs :: (costTables P txs).tail := by
    rw [hc, List.tail_cons]
    exact costTables_eq_cons P txs
  rw [correctNodes, htail]
  rfl

end Pass

/-! ## The corrected path against every other (R162, R163) -/

section Path

variable (P : Profile)

theorem correctNodes_length (s : Dibit) (txs : List Nibble) : (correctNodes P s txs).1.length = txs.length := by
  induction txs generalizing s with
  | nil => rfl
  | cons tx txs ih =>
    rw [correctNodes_cons, List.length_cons, ih, List.length_cons]

/-- The corrected path costs what the table of its first node says. -/
theorem chainCost_correctNodes (s : Dibit) (txs : List Nibble) :
    chainCost P s txs (correctNodes P s txs).1 = (remainingCosts P txs).at s := by
  induction txs generalizing s with
  | nil => rw [remainingCosts_nil, correctNodes_nil, chainCost]
  | cons tx txs ih =>
    rw [correctNodes_cons, chainCost, ih, remainingCosts_cons, ← pathCost_bestInput]
    rfl

/-- No path costs less than the table of its first node says. -/
theorem remainingCosts_le_chainCost (s : Dibit) {txs : List Nibble} {ds : List Dibit} (hlen : ds.length = txs.length) :
    (remainingCosts P txs).at s ≤ chainCost P s txs ds := by
  induction txs generalizing s ds with
  | nil => rw [remainingCosts_nil]; exact Nat.zero_le _
  | cons tx txs ih =>
    cases ds with
    | nil => cases hlen
    | cons d ds =>
      calc (remainingCosts P (tx :: txs)).at s
          = bestCost P tx (remainingCosts P txs) s := remainingCosts_cons ..
        _ ≤ costOf P tx (nextOf P s d) + (remainingCosts P txs).at d := bestCost_le_pathCost ..
        _ ≤ costOf P tx (nextOf P s d) + chainCost P d txs ds := Nat.add_le_add_left (ih d (Nat.succ.inj hlen)) _

/-- A path of least cost takes inputs of least cost at its first node, and goes on with least cost. -/
theorem chainCost_cons_least {s d : Dibit} {tx : Nibble} {txs : List Nibble} {ds : List Dibit}
    (hlen : ds.length = txs.length)
    (hleast : chainCost P s (tx :: txs) (d :: ds) = (remainingCosts P (tx :: txs)).at s) :
    pathCost P tx (remainingCosts P txs) s d = bestCost P tx (remainingCosts P txs) s
      ∧ chainCost P d txs ds = (remainingCosts P txs).at d := by
  have hfirst := bestCost_le_pathCost P tx (remainingCosts P txs) s d
  have hrest := remainingCosts_le_chainCost P d hlen
  rw [remainingCosts_cons, chainCost] at hleast
  unfold pathCost at hfirst ⊢
  omega

/-- Among the paths of least cost, the corrected one comes first in the order of its inputs. -/
theorem correctNodes_le (s : Dibit) {txs : List Nibble} {ds : List Dibit} (hlen : ds.length = txs.length)
    (hleast : chainCost P s txs ds = (remainingCosts P txs).at s) : (correctNodes P s txs).1 ≤ ds := by
  induction txs generalizing s ds with
  | nil => exact List.nil_le ds
  | cons tx txs ih =>
    cases ds with
    | nil => cases hlen
    | cons d ds =>
      have hlen' : ds.length = txs.length := Nat.succ.inj hlen
      obtain ⟨hd, hds⟩ := chainCost_cons_least P hlen' hleast
      have hle : firstInput P s tx txs ≤ d := bestInput_le P tx (remainingCosts P txs) s hd
      rw [correctNodes_cons, List.cons_le_cons_iff]
      by_cases heq : firstInput P s tx txs = d
      · exact .inr ⟨heq, by rw [heq]; exact ih d hlen' hds⟩
      · exact .inl (BitVec.lt_of_le_ne hle heq)

/-- The count of the pass is the number of raw bits that the corrected path changes. -/
theorem correctNodes_count (s : Dibit) (txs : List Nibble) :
    (correctNodes P s txs).2 = chainDiff txs (chainNodes P s (correctNodes P s txs).1) := by
  induction txs generalizing s with
  | nil => rfl
  | cons tx txs ih => rw [correctNodes_cons, chainNodes, chainDiff, ← ih]

end Path

/-- Settles O46: the tables hold the exact minima, and the forward pass takes the smallest input that reaches them. -/
theorem trellisOptimal : Obligations.TrellisOptimal := by
  intro P txs ds hlen s0 best
  have hcost : chainCost P s0 txs best = (remainingCosts P txs).at s0 := chainCost_correctNodes P s0 txs
  refine ⟨correctNodes_length P s0 txs, ?_, correctNodes_count P s0 txs⟩
  rcases Nat.lt_or_eq_of_le (remainingCosts_le_chainCost P s0 hlen) with hless | htie
  · exact .inl (hcost ▸ hless)
  · exact .inr ⟨hcost.trans htie, correctNodes_le P s0 hlen htie.symm⟩

/-! ## A corrected block changed a bit (R163) -/

theorem popcount_eq_zero {n : Nat} {x : BitVec n} (h : popcount x = 0) : x = 0 := by
  refine BitVec.eq_of_getLsbD_eq fun i hi => ?_
  have hbit := List.countP_eq_zero.mp h i (List.mem_range.mpr hi)
  rw [Bool.not_eq_true] at hbit
  rw [hbit]
  exact BitVec.getLsbD_zero.symm

/-- Two chains of one length that differ in no raw bit are the same. -/
theorem eq_of_chainDiff_eq_zero {as bs : List Nibble} (hlen : as.length = bs.length) (h : chainDiff as bs = 0) : as = bs := by
  induction as generalizing bs with
  | nil => exact (List.length_eq_zero_iff.mp hlen.symm).symm
  | cons a as ih =>
    cases bs with
    | nil => cases hlen
    | cons b bs =>
      obtain ⟨hab, hrest⟩ := Nat.add_eq_zero_iff.mp h
      rw [BitVec.xor_eq_zero_iff.mp (popcount_eq_zero hab), ih (Nat.succ.inj hlen) hrest]

/-- A chain with link errors is no chain that encodes dibits, so that the correction changes a bit of it. -/
theorem correctChain_count_pos {P : Profile} {txs : List Nibble} (hP : constOk P = true)
    (herr : linkErrors (txs.map (constOf P)) ≠ 0) : 1 ≤ (correctChain P txs).2 := by
  rw [Nat.one_le_iff_ne_zero, correctChain_eq, correctNodes_count]
  intro hzero
  have hsame := eq_of_chainDiff_eq_zero (by rw [chainNodes_length, correctNodes_length]) hzero
  rw [hsame] at herr
  exact herr (chainNodes_linkErrors hP _ _)

/-- Settles O47: by the three outcomes of the decoder. -/
theorem correctedChain : Obligations.CorrectedChain := by
  intro P limit coded hP tx s0 r
  by_cases hnone : blockErrors P coded = 0
  · have hr : r = _ := trellisDecode_of_noErrors hnone
    rw [hr]
    exact ⟨nofun, fun _ => rfl⟩
  by_cases hfew : blockErrors P coded ≤ limit
  · have hr : r = _ := trellisDecode_of_fewErrors hnone hfew
    rw [hr]
    exact ⟨fun _ => ⟨(correctChain P tx).1, rfl, chainNodes_linkErrors hP s0 _, correctNodes_count P s0 tx,
      correctChain_count_pos hP hnone⟩, fun hstatus => absurd rfl hstatus⟩
  · have hr : r = _ := trellisDecode_of_manyErrors (Nat.not_le.mp hfew)
    rw [hr]
    exact ⟨nofun, fun _ => rfl⟩

end Sys2Proof.Machine
end

