-- ==== Sys2Proof/Proofs/AggregatorTables.lean ====
section
/-! SUPPORT. The aggregator's tables under every fold: call slots with distinct channels, the sorted neighbor table and the
sorted SCC set (R195, R197, R198). -/

namespace Sys2Proof.Machine

open Sys2Proof

/-! ## Calls (R193 to R196) -/

section Calls

variable {calls calls' : List (Option Call)}

/-- Every open slot of the new table is open in the old one on the same channel. -/
def SlotsWithin (calls calls' : List (Option Call)) : Prop :=
  ∀ (i : Nat) (c : Call), calls'[i]? = some (some c) → ∃ old, calls[i]? = some (some old) ∧ old.channel = c.channel

theorem ChannelsDistinct.of_slotsWithin (h : ChannelsDistinct calls) (hw : SlotsWithin calls calls') :
    ChannelsDistinct calls' := by
  intro i j ci cj hi hj hsame
  obtain ⟨oi, hoi, hci⟩ := hw i ci hi
  obtain ⟨oj, hoj, hcj⟩ := hw j cj hj
  exact h i j oi oj hoi hoj (by rw [hci, hcj, hsame])

theorem getElem?_set_open {i j : Nat} {x : Option Call} {c : Call} (h : (calls.set i x)[j]? = some (some c)) :
    (j = i ∧ x = some c) ∨ (j ≠ i ∧ calls[j]? = some (some c)) := by
  rw [List.getElem?_set] at h
  split at h
  next hij =>
    split at h
    · exact .inl ⟨hij.symm, Option.some.inj h⟩
    · cases h
  next hij => exact .inr ⟨Ne.symm hij, h⟩

/-- A call rewritten on the channel that its slot carries. -/
theorem slotsWithin_set {i : Nat} {old new : Call} (hold : calls[i]? = some (some old)) (hch : old.channel = new.channel) :
    SlotsWithin calls (calls.set i (some new)) := by
  intro j c hj
  rcases getElem?_set_open hj with ⟨rfl, hc⟩ | ⟨-, hj⟩
  · exact ⟨old, hold, by rw [hch, Option.some.inj hc]⟩
  · exact ⟨c, hj, rfl⟩

theorem slotsWithin_closedCalls (q : Call → Bool) (calls : List (Option Call)) :
    SlotsWithin calls (closedCalls q calls) := by
  intro i c hi
  rw [closedCalls, List.getElem?_map, Option.map_eq_some_iff] at hi
  obtain ⟨x, hx, hclosed⟩ := hi
  cases x with
  | none => cases hclosed
  | some old =>
    dsimp only at hclosed
    split at hclosed
    · cases hclosed
    · exact ⟨old, hx, by rw [Option.some.inj hclosed]⟩

/-- A call written on a channel that no open slot carries. -/
theorem ChannelsDistinct.set_new (h : ChannelsDistinct calls) {new : Call} (hnew : findCall new.channel calls = none)
    (i : Nat) : ChannelsDistinct (calls.set i (some new)) := by
  have hfree := findCall_none.mp hnew
  intro j k cj ck hj hk hsame
  rcases getElem?_set_open hj with ⟨hji, hcj⟩ | ⟨-, hjold⟩
  · rcases getElem?_set_open hk with ⟨hki, -⟩ | ⟨-, hkold⟩
    · rw [hji, hki]
    · exact absurd (by rw [← hsame, Option.some.inj hcj]) (hfree k ck hkold)
  · rcases getElem?_set_open hk with ⟨-, hck⟩ | ⟨-, hkold⟩
    · exact absurd (by rw [hsame, Option.some.inj hck]) (hfree j cj hjold)
    · exact h j k cj ck hjold hkold hsame

end Calls

@[simp] theorem closedCalls_length (q : Call → Bool) (calls : List (Option Call)) :
    (closedCalls q calls).length = calls.length := List.length_map _

/-- A grant on the channel that a slot carries writes that slot, on the same channel. -/
theorem regrant_agg (i : Nat) {old new : Call} (hch : old.channel = new.channel) (b : Backend) :
    ∃ c : Call, old.channel = c.channel
      ∧ (regrant i old new b).agg = { b.agg with calls := b.agg.calls.set i (some c) } := by
  unfold regrant
  split
  · split
    · exact ⟨{ old with source := new.source, lastTs := new.lastTs }, rfl, rfl⟩
    · exact ⟨{ old with lastTs := new.lastTs }, rfl, rfl⟩
  · exact ⟨new, hch, rfl⟩

/-- A grant on a new channel writes its call to one slot: a free one, or that of the call it evicts. -/
theorem grantNew_agg (c : Call) (b : Backend) :
    (grantNew c b).agg = b.agg ∨ ∃ i, (grantNew c b).agg = { b.agg with calls := b.agg.calls.set i (some c) } := by
  unfold grantNew
  split
  next i _ => exact .inr ⟨i, rfl⟩
  next =>
    split
    next x _ => exact .inr ⟨x.1, by simp [List.set_set]⟩
    next => exact .inl rfl

/-! ## The neighbor table (R197) -/

section Neighbors

/-- The order of the neighbor table. -/
def KeysAscend (ns : List Neighbor) : Prop := ns.Pairwise fun x y => x.key.toNat < y.key.toNat

theorem mem_of_mem_putNeighbor {e n : Neighbor} {ns : List Neighbor} (h : n ∈ putNeighbor e ns) : n = e ∨ n ∈ ns := by
  induction ns with
  | nil => exact .inl (List.mem_singleton.mp h)
  | cons m rest ih =>
    rw [putNeighbor] at h
    split at h
    · exact (List.mem_cons.mp h).imp_right (List.mem_cons_of_mem m)
    · split at h
      · exact List.mem_cons.mp h
      · rcases List.mem_cons.mp h with rfl | h
        · exact .inr List.mem_cons_self
        · exact (ih h).imp_right (List.mem_cons_of_mem m)

theorem putNeighbor_ascends (e : Neighbor) {ns : List Neighbor} (h : KeysAscend ns) : KeysAscend (putNeighbor e ns) := by
  induction ns with
  | nil => exact List.pairwise_singleton ..
  | cons n rest ih =>
    obtain ⟨hfirst, hrest⟩ := List.pairwise_cons.mp h
    rw [putNeighbor]
    split
    next hsame => exact List.pairwise_cons.mpr ⟨fun m hm => hsame ▸ hfirst m hm, hrest⟩
    next hne =>
      split
      next hlt =>
        refine List.pairwise_cons.mpr ⟨fun m hm => ?_, h⟩
        rcases List.mem_cons.mp hm with rfl | hm
        · exact hlt
        · exact hlt.trans (hfirst m hm)
      next hge =>
        refine List.pairwise_cons.mpr ⟨fun m hm => ?_, ih hrest⟩
        rcases mem_of_mem_putNeighbor hm with rfl | hm
        · exact Nat.lt_of_le_of_ne (Nat.not_lt.mp hge) fun heq => hne (BitVec.eq_of_toNat_eq heq.symm)
        · exact hfirst m hm

theorem putNeighbor_length_le (e : Neighbor) (ns : List Neighbor) : (putNeighbor e ns).length ≤ ns.length + 1 := by
  induction ns with
  | nil => exact Nat.le_refl _
  | cons n rest ih =>
    rw [putNeighbor]
    split
    · simp
    · split
      · simp
      · simpa using ih

/-- An entry written over the one of its key takes no new place. -/
theorem putNeighbor_length_of_mem {e old : Neighbor} {ns : List Neighbor} (h : KeysAscend ns) (hold : old ∈ ns)
    (hkey : old.key = e.key) : (putNeighbor e ns).length = ns.length := by
  induction ns with
  | nil => cases hold
  | cons n rest ih =>
    obtain ⟨hfirst, hrest⟩ := List.pairwise_cons.mp h
    rw [putNeighbor]
    split
    · rfl
    next hne =>
      have hmem : old ∈ rest := (List.mem_cons.mp hold).resolve_left fun heq => hne (by rw [← hkey, heq])
      have hlt : n.key.toNat < e.key.toNat := hkey ▸ hfirst old hmem
      rw [if_neg (Nat.lt_asymm hlt), List.length_cons, List.length_cons, ih hrest hmem]

theorem findNeighbor_some {key : BitVec 28} {ns : List Neighbor} {n : Neighbor} (h : findNeighbor key ns = some n) :
    n ∈ ns ∧ n.key = key :=
  ⟨List.mem_of_find?_eq_some h, by simpa using List.find?_some h⟩

end Neighbors

/-! ## The SCC set (R198) -/

section Scc

/-- The place of a pair in the order of R198, as one number. -/
def sccRank (x : BitVec 16 × BitVec 8) : Nat := x.1.toNat * 2 ^ 8 + x.2.toNat

theorem sccBefore_iff (x y : BitVec 16 × BitVec 8) : sccBefore x y = true ↔ sccRank x < sccRank y := by
  have hx := x.2.isLt
  have hy := y.2.isLt
  simp only [sccBefore, sccRank, Bool.or_eq_true, Bool.and_eq_true, decide_eq_true_eq, beq_iff_eq, ← BitVec.toNat_inj]
  omega

theorem sccRank_injective {x y : BitVec 16 × BitVec 8} (h : sccRank x = sccRank y) : x = y := by
  have hx := x.2.isLt
  have hy := y.2.isLt
  unfold sccRank at h
  exact Prod.ext (BitVec.eq_of_toNat_eq (by omega)) (BitVec.eq_of_toNat_eq (by omega))

theorem sccBefore_trans {x y z : BitVec 16 × BitVec 8} (hxy : sccBefore x y = true) (hyz : sccBefore y z = true) :
    sccBefore x z = true := by
  rw [sccBefore_iff] at *
  exact hxy.trans hyz

theorem sccBefore_of_not {x y : BitVec 16 × BitVec 8} (hne : x ≠ y) (h : ¬ sccBefore x y = true) :
    sccBefore y x = true := by
  rw [sccBefore_iff] at *
  exact Nat.lt_of_le_of_ne (Nat.not_lt.mp h) fun heq => hne (sccRank_injective heq.symm)

/-- The order of the SCC set. -/
def SccAscends (xs : List (BitVec 16 × BitVec 8)) : Prop := xs.Pairwise fun x y => sccBefore x y = true

theorem mem_of_mem_insertScc {x y : BitVec 16 × BitVec 8} {xs : List (BitVec 16 × BitVec 8)} (h : y ∈ insertScc x xs) :
    y = x ∨ y ∈ xs := by
  induction xs with
  | nil => exact .inl (List.mem_singleton.mp h)
  | cons z rest ih =>
    rw [insertScc] at h
    split at h
    · exact List.mem_cons.mp h
    · rcases List.mem_cons.mp h with rfl | h
      · exact .inr List.mem_cons_self
      · exact (ih h).imp_right (List.mem_cons_of_mem z)

@[simp] theorem insertScc_length (x : BitVec 16 × BitVec 8) (xs : List (BitVec 16 × BitVec 8)) :
    (insertScc x xs).length = xs.length + 1 := by
  induction xs with
  | nil => rfl
  | cons z rest ih =>
    rw [insertScc]
    split
    · rfl
    · rw [List.length_cons, ih, List.length_cons]

theorem insertScc_ascends {x : BitVec 16 × BitVec 8} {xs : List (BitVec 16 × BitVec 8)} (h : SccAscends xs)
    (hnew : x ∉ xs) : SccAscends (insertScc x xs) := by
  induction xs with
  | nil => exact List.pairwise_singleton ..
  | cons z rest ih =>
    obtain ⟨hfirst, hrest⟩ := List.pairwise_cons.mp h
    have hne : x ≠ z := fun heq => hnew (heq ▸ List.mem_cons_self)
    have hnewRest : x ∉ rest := fun hmem => hnew (List.mem_cons_of_mem z hmem)
    rw [insertScc]
    split
    next hlt =>
      refine List.pairwise_cons.mpr ⟨fun y hy => ?_, h⟩
      rcases List.mem_cons.mp hy with rfl | hy
      · exact hlt
      · exact sccBefore_trans hlt (hfirst y hy)
    next hge =>
      refine List.pairwise_cons.mpr ⟨fun y hy => ?_, ih hrest hnewRest⟩
      rcases mem_of_mem_insertScc hy with rfl | hy
      · exact sccBefore_of_not hne hge
      · exact hfirst y hy

end Scc

/-! ## The folds (R191) -/

section Folds

variable {p : Params} {a : Agg} {b : Backend}

theorem AggOk.with_calls (h : AggOk p a) {calls : List (Option Call)} (hlen : calls.length = a.calls.length)
    (hdistinct : ChannelsDistinct calls) : AggOk p { a with calls := calls } :=
  ⟨hlen.trans h.slots, hdistinct, h.neighborsFit, h.neighborsSorted, h.sccFit, h.sccSorted⟩

theorem AggOk.with_neighbors (h : AggOk p a) {ns : List Neighbor} (hfit : ns.length ≤ p.maxNeighbors)
    (hsorted : KeysAscend ns) : AggOk p { a with neighbors := ns } :=
  ⟨h.slots, h.channels, hfit, hsorted, h.sccFit, h.sccSorted⟩

theorem AggOk.with_scc (h : AggOk p a) {xs : List (BitVec 16 × BitVec 8)} (hfit : xs.length ≤ p.maxScc)
    (hsorted : SccAscends xs) : AggOk p { a with scc := xs } :=
  ⟨h.slots, h.channels, h.neighborsFit, h.neighborsSorted, hfit, hsorted⟩

@[simp] theorem foldBroadcast_agg (c : NCat) (m : Msg) (old : Option Broadcast) (b : Backend) :
    (foldBroadcast c m old b).agg = b.agg := by
  unfold foldBroadcast
  split
  · split
    · rfl
    · rfl
  · rfl

theorem foldSite_aggOk (m : Msg) (h : AggOk p b.agg) : AggOk p (foldSite m b).agg := by
  rw [foldSite, foldBroadcast_agg]
  exact ⟨h.slots, h.channels, h.neighborsFit, h.neighborsSorted, h.sccFit, h.sccSorted⟩

theorem foldNetwork_aggOk (m : Msg) (h : AggOk p b.agg) : AggOk p (foldNetwork m b).agg := by
  rw [foldNetwork, foldBroadcast_agg]
  exact ⟨h.slots, h.channels, h.neighborsFit, h.neighborsSorted, h.sccFit, h.sccSorted⟩

theorem foldGrantCall_aggOk (c : Call) (h : AggOk p b.agg) : AggOk p (foldGrantCall c b).agg := by
  unfold foldGrantCall
  split
  next x hfound =>
    obtain ⟨hslot, hch, -⟩ := findCall_some hfound
    obtain ⟨new, hnew, hagg⟩ := regrant_agg x.1 hch b
    rw [hagg]
    exact h.with_calls List.length_set (h.channels.of_slotsWithin (slotsWithin_set hslot hnew))
  next hnone =>
    rcases grantNew_agg c b with hagg | ⟨i, hagg⟩
    · rw [hagg]
      exact h
    · rw [hagg]
      exact h.with_calls List.length_set (h.channels.set_new hnone i)

theorem foldGrant_aggOk (m : Msg) (h : AggOk p b.agg) : AggOk p (foldGrant m b).agg := by
  unfold foldGrant
  split
  · exact foldGrantCall_aggOk _ h
  · exact h

theorem closeCalls_aggOk (q : Call → Bool) (h : AggOk p b.agg) : AggOk p (closeCalls q b).agg := by
  rw [closeCalls_agg]
  exact h.with_calls (closedCalls_length ..) (h.channels.of_slotsWithin (slotsWithin_closedCalls q _))

theorem foldNeighborEntry_aggOk (e : Neighbor) (h : AggOk p b.agg) : AggOk p (foldNeighborEntry p e b).agg := by
  have hsorted := putNeighbor_ascends e h.neighborsSorted
  unfold foldNeighborEntry
  split
  next old hfound =>
    obtain ⟨hmem, hkey⟩ := findNeighbor_some hfound
    have hput := h.with_neighbors ((putNeighbor_length_of_mem h.neighborsSorted hmem hkey).le.trans h.neighborsFit) hsorted
    split
    · exact hput
    · exact hput
  next =>
    split
    next hroom => exact h.with_neighbors ((putNeighbor_length_le ..).trans hroom) hsorted
    next => exact h

theorem foldNeighbor_aggOk (m : Msg) (h : AggOk p b.agg) : AggOk p (foldNeighbor p m b).agg := by
  unfold foldNeighbor
  split
  · exact foldNeighborEntry_aggOk _ h
  · exact h

theorem foldSccPair_aggOk (x : BitVec 16 × BitVec 8) (h : AggOk p b.agg) : AggOk p (foldSccPair p x b).agg := by
  unfold foldSccPair
  split
  next => exact h
  next hnew =>
    split
    next => exact h
    next hroom =>
      have hfit : (insertScc x b.agg.scc).length ≤ p.maxScc := by rw [insertScc_length]; omega
      exact h.with_scc hfit (insertScc_ascends h.sccSorted (by simpa using hnew))

theorem foldSccRoles_aggOk (m : Msg) (r q : Role) (h : AggOk p b.agg) : AggOk p (foldSccRoles p m r q b).agg := by
  unfold foldSccRoles
  split
  · exact foldSccPair_aggOk _ h
  · exact h

/-- No fold breaks a table of the aggregator. -/
theorem foldMsg_aggOk (m : Msg) (cat : Category) (h : AggOk p b.agg) : AggOk p (foldMsg p m cat b).agg := by
  cases cat with
  | none => exact h
  | siteStatus => exact foldSite_aggOk m h
  | networkStatus => exact foldNetwork_aggOk m h
  | neighbor => exact foldNeighbor_aggOk m h
  | scc => exact foldSccRoles_aggOk m _ _ (foldSccRoles_aggOk m _ _ h)
  | grant => exact foldGrant_aggOk m h
  | terminate => exact closeCalls_aggOk _ h
  | idle => exact closeCalls_aggOk _ h

theorem emitMessage_aggOk (m : Msg) (cat : Category) (h : AggOk p b.agg) : AggOk p (emitMessage p m cat b).agg := by
  rw [emitMessage_eq]
  split
  · exact foldMsg_aggOk m cat h
  · exact h

end Folds

end Sys2Proof.Machine
end

