-- ==== Sys2Proof/Proofs/TableInvariant.lean ====
section
/-! PROOF of O35: the pending sequence has room and the aggregator's tables stay well formed. -/

namespace Sys2Proof.Machine

open Sys2Proof

/-- What `TableInv` asks of a state's back end under its parameters. -/
structure TablesOk (p : Params) (b : Backend) : Prop where
  pending : PendingOk b
  agg : AggOk p b.agg

theorem tableInv_iff {s : State} : TableInv s ↔ TablesOk s.par s.back :=
  ⟨fun h => ⟨h.pending, h.agg⟩, fun h => ⟨h.pending, h.agg⟩⟩

section Backend

variable {p : Params} {b b' : Backend}

/-- The tables know of the back end only its pending sequence and its aggregator. -/
theorem TablesOk.of_same (h : TablesOk p b) (hpending : b'.pending = b.pending) (hagg : b'.agg = b.agg) :
    TablesOk p b' :=
  ⟨fun q hq => h.pending q (hpending ▸ hq), hagg ▸ h.agg⟩

theorem pendingOk_of_none (h : b.pending = none) : PendingOk b := by
  intro q hq
  rw [h] at hq
  cases hq

/-! ## The parser (R174 to R184) -/

theorem emitMessage_tablesOk (m : Msg) (cat : Category) (h : TablesOk p b) : TablesOk p (emitMessage p m cat b) :=
  ⟨fun q hq => h.pending q (emitMessage_pending p m cat b ▸ hq), emitMessage_aggOk m cat h.agg⟩

@[simp] theorem storePending_agg (p : Params) (q : Pending) (b : Backend) : (storePending p q b).agg = b.agg := by
  unfold storePending
  split
  · rw [completeSequence, emitMessage_none]
    rfl
  · rfl

/-- A sequence that fits its count is stored with room left, or completed. -/
theorem storePending_tablesOk {q : Pending} (hfits : q.blocks.length ≤ q.n) (h : TablesOk p b) :
    TablesOk p (storePending p q b) := by
  refine ⟨fun q' hq' => ?_, by rw [storePending_agg]; exact h.agg⟩
  rw [storePending_pending] at hq'
  split at hq'
  · cases hq'
  next hopen => exact Option.some.inj hq' ▸ Nat.lt_of_le_of_ne hfits hopen

@[simp] theorem abandonPending_pending (b : Backend) : (abandonPending b).pending = b.pending := by
  unfold abandonPending
  split
  · rfl
  · rfl

@[simp] theorem abandonPending_agg (b : Backend) : (abandonPending b).agg = b.agg := by
  unfold abandonPending
  split
  · rfl
  · rfl

theorem appendBlock_tablesOk (m : Msg) (h : TablesOk p b) : TablesOk p (appendBlock p m b) := by
  unfold appendBlock
  split
  · split
    next hroom => exact storePending_tablesOk (by simpa using hroom) h
    next => exact h.of_same rfl rfl
  · exact h.of_same rfl rfl

end Backend

section Frames

variable {e : Env} {b : Backend}

theorem parseHeader_tablesOk (r : BlockResult) (t : BitVec 4) (ts : BitVec 64) (h : TablesOk e.par b) :
    TablesOk e.par (parseHeader e r t ts b) := by
  have hsent := emitMessage_tablesOk (headerMsg e r t ts) .none h
  unfold parseHeader
  dsimp only
  split
  · exact storePending_tablesOk (Nat.zero_le _) (hsent.of_same (abandonPending_pending _) (abandonPending_agg _))
  · exact hsent

theorem parseBlock_tablesOk (r : BlockResult) (j : Nat) (t : BitVec 4) (ts : BitVec 64) (h : TablesOk e.par b) :
    TablesOk e.par (parseBlock e r j t ts b) := by
  unfold parseBlock
  split
  · exact emitMessage_tablesOk _ _ h
  · split
    · exact parseHeader_tablesOk r t ts h
    · exact appendBlock_tablesOk _ (emitMessage_tablesOk _ _ h)

/-! ## The framer (R141 to R151) -/

theorem emitBlocks_tablesOk (t : BitVec 4) (ts : BitVec 64) (rs : List BlockResult) (j : Nat) (h : TablesOk e.par b) :
    TablesOk e.par (emitBlocks e t ts j rs b) := by
  induction rs generalizing j b with
  | nil => exact h
  | cons r rs ih =>
    have hcounted := h.of_same (countBlock_pending r b) (countBlock_agg r b)
    rw [emitBlocks]
    split
    · exact ih _ hcounted
    · exact ih _ (parseBlock_tablesOk r j t ts hcounted)

theorem emitPayload_tablesOk (h : TablesOk e.par b) : TablesOk e.par (emitPayload e b) := by
  unfold emitPayload
  split
  · exact emitMessage_tablesOk _ _ h
  all_goals exact emitBlocks_tablesOk _ _ _ _ h

theorem emitFrame_tablesOk (h : TablesOk e.par b) : TablesOk e.par (emitFrame e b) :=
  (emitPayload_tablesOk (h.of_same (b' := emitting b) rfl rfl)).of_same rfl rfl

theorem resync_tablesOk {p : Params} (h : TablesOk p b) : TablesOk p (resync b) := h.of_same rfl rfl

theorem endOrContinue_tablesOk (bl : Nat) (isEnd : Bool) (h : TablesOk e.par b) :
    TablesOk e.par (endOrContinue e bl isEnd b) := by
  unfold endOrContinue
  split
  · exact emitFrame_tablesOk h
  · exact h.of_same rfl rfl

theorem progressHeader_tablesOk (bl mb : Nat) (r : BlockResult) (h : TablesOk e.par b) :
    TablesOk e.par (progressHeader e bl mb r b) := by
  unfold progressHeader
  dsimp only
  split
  · exact emitFrame_tablesOk h
  · split
    · exact resync_tablesOk h
    · split
      · exact emitFrame_tablesOk (h.of_same rfl rfl)
      · exact endOrContinue_tablesOk bl _ (h.of_same rfl rfl)

theorem progressPdu_tablesOk (bl mb ilv : Nat) (h : TablesOk e.par b) : TablesOk e.par (progressPdu e bl mb ilv b) := by
  unfold progressPdu
  dsimp only
  split
  · exact progressHeader_tablesOk bl mb _ (h.of_same rfl rfl)
  · exact endOrContinue_tablesOk bl _ (h.of_same rfl rfl)

theorem progressPrefix_tablesOk (h : TablesOk e.par b) : TablesOk e.par (progressPrefix e b) := by
  unfold progressPrefix
  dsimp only
  split
  · exact resync_tablesOk (h.of_same rfl rfl)
  · split
    · exact emitFrame_tablesOk (h.of_same rfl rfl)
    · exact h.of_same rfl rfl
  · exact h.of_same rfl rfl
  · exact h.of_same rfl rfl

theorem progress_tablesOk (h : TablesOk e.par b) : TablesOk e.par (progress e b) := by
  unfold progress
  split
  · exact progressPrefix_tablesOk h
  · split
    · exact resync_tablesOk h
    · exact emitFrame_tablesOk h
    · exact endOrContinue_tablesOk _ _ (h.of_same rfl rfl)
    · exact progressPdu_tablesOk _ _ _ h

theorem frameStep_tablesOk (d : Dibit) (h : TablesOk e.par b) : TablesOk e.par (frameStep e d b) := by
  unfold frameStep
  dsimp only
  split
  · exact h.of_same rfl rfl
  · split
    · exact progress_tablesOk (h.of_same rfl rfl)
    · exact h.of_same rfl rfl

theorem searchStep_tablesOk (d : Dibit) (n : BitVec 64) (h : TablesOk e.par b) :
    TablesOk e.par (searchStep e d n b) := by
  unfold searchStep
  dsimp only
  split
  · exact h.of_same rfl rfl
  · exact h.of_same rfl rfl

theorem framerStep_tablesOk (d : Dibit) (n : BitVec 64) (h : TablesOk e.par b) :
    TablesOk e.par (framerStep e d n b) := by
  unfold framerStep
  split
  · exact searchStep_tablesOk d n h
  · exact frameStep_tablesOk d h
  · exact h
  · exact h

/-! ## Samples and commands -/

theorem strobeStep_tablesOk (k : CorRegs) (soft : Word) (n : BitVec 64) (h : TablesOk e.par b) :
    TablesOk e.par (strobeStep e k soft n b) := by
  unfold strobeStep
  split
  · exact framerStep_tablesOk _ n (h.of_same rfl rfl)
  · exact h

end Frames

theorem sendFeedback_tablesOk {p : Params} {b : Backend} (w : Option Word) (h : TablesOk p b) :
    TablesOk p (sendFeedback w b) := by
  cases w with
  | none => exact h
  | some w => exact h.of_same rfl rfl

theorem sampleStep_tableInv {s : State} (x : Sample) (h : TableInv s) : TableInv (sampleStep s x) :=
  tableInv_iff.mpr
    ((strobeStep_tablesOk (e := s.env) _ _ _ (sendFeedback_tablesOk _ (tableInv_iff.mp h))).of_same rfl rfl)

theorem pushSamples_tableInv (xs : List Sample) {s : State} (h : TableInv s) : TableInv (pushSamples xs s) :=
  pushSamples_induction xs s h fun _ x _ ht => sampleStep_tableInv x ht

theorem sweepBack_tablesOk {p : Params} {b : Backend} (c : CfgRegs) (t : BitVec 64) (h : TablesOk p b) :
    TablesOk p (sweepBack c t b) := by
  have hclosed : TablesOk p (closeCalls (fun call => expired t call.lastTs (callTimeout c)) b) :=
    ⟨h.pending, closeCalls_aggOk _ h.agg⟩
  unfold sweepBack sweepPending
  split
  · split
    · exact ⟨pendingOk_of_none rfl, hclosed.agg⟩
    · exact hclosed
  · exact hclosed

theorem TableInv.of_same_tables {s t : State} (h : TableInv s) (hpar : t.par = s.par)
    (hpending : t.back.pending = s.back.pending) (hagg : t.back.agg = s.back.agg) : TableInv t :=
  tableInv_iff.mpr (hpar ▸ (tableInv_iff.mp h).of_same hpending hagg)

theorem Effect.tableInv {s t : State} (h : Effect s t) (hs : TableInv s) : TableInv t := by
  cases h with
  | real xs _ _ => exact pushSamples_tableInv _ hs
  | complex xs _ _ => exact pushSamples_tableInv _ hs
  | start _ => exact ⟨pendingOk_of_none rfl, aggCleared_ok _⟩
  | stop => exact ⟨pendingOk_of_none rfl, aggCleared_ok _⟩
  | sweep t _ => exact tableInv_iff.mpr (sweepBack_tablesOk s.cfg t (tableInv_iff.mp hs))
  | _ => exact hs.of_same_tables rfl rfl rfl

/-- Settles O35: every fold keeps the tables and every block keeps the pending sequence's room, so every dibit, every
sample and every command does. -/
theorem tableInvKept : Obligations.TableInvKept := fun _ _ hs h =>
  (step_effect h).tableInv (hs.of_same_tables (by simp) (by simp) (by simp))

end Sys2Proof.Machine
end

