-- ==== Sys2Proof/Proofs/CrcOneBit.lean ====
section
/-! PROOF of O49: the CRC register by its bits, and the check against one wrong bit (R170). -/

namespace Sys2Proof.Machine

open Sys2Proof

section Register

variable {c : CheckSpec}

theorem crcStep_lt (hpoly : c.poly < 2 ^ c.width) (reg : Nat) (bit : Bool) : crcStep c reg bit < 2 ^ c.width := by
  have hshifted : (reg <<< 1) % 2 ^ c.width < 2 ^ c.width := Nat.mod_lt _ (Nat.two_pow_pos _)
  unfold crcStep
  dsimp only
  split
  · exact Nat.xor_lt_two_pow hshifted hpoly
  · exact hshifted

/-- The bits of the next register: those of the old one, moved up by one place, and the polynomial on them when the bit
that left differs from the input. -/
theorem crcStep_testBit (c : CheckSpec) (reg : Nat) (bit : Bool) {i : Nat} (hi : i < c.width) :
    (crcStep c reg bit).testBit i
      = ((decide (1 ≤ i) && reg.testBit (i - 1)) ^^ ((reg.testBit (c.width - 1) ^^ bit) && c.poly.testBit i)) := by
  have htop : ((reg >>> (c.width - 1)) % 2 == 1) = reg.testBit (c.width - 1) := by
    rw [Nat.testBit_eq_decide_div_mod_eq, Nat.shiftRight_eq_div_pow, beq_eq_decide]
  have hshifted : ((reg <<< 1) % 2 ^ c.width).testBit i = (decide (1 ≤ i) && reg.testBit (i - 1)) := by
    simp [Nat.testBit_mod_two_pow, Nat.testBit_shiftLeft, hi]
  unfold crcStep
  dsimp only
  rw [htop]
  split
  next hdiffers =>
    have htrue : (reg.testBit (c.width - 1) ^^ bit) = true := hdiffers
    rw [Nat.testBit_xor, hshifted, htrue, Bool.true_and]
  next hagrees =>
    have hfalse : (reg.testBit (c.width - 1) ^^ bit) = false := Bool.eq_false_iff.mpr hagrees
    rw [hshifted, hfalse, Bool.false_and, Bool.xor_false]

/-- The low bit of the next register says whether the bit that left differs from the input: the polynomial is odd. -/
theorem crcStep_testBit_zero (hwidth : 1 ≤ c.width) (hodd : c.poly % 2 = 1) (reg : Nat) (bit : Bool) :
    (crcStep c reg bit).testBit 0 = (reg.testBit (c.width - 1) ^^ bit) := by
  have hpoly : c.poly.testBit 0 = true := by simp [hodd]
  rw [crcStep_testBit c reg bit (by omega), hpoly]
  simp

theorem crcStep_bit_ne (hwidth : 1 ≤ c.width) (hodd : c.poly % 2 = 1) (reg : Nat) {x y : Bool} (hne : x ≠ y) :
    crcStep c reg x ≠ crcStep c reg y := by
  intro h
  have hlow := congrArg (Nat.testBit · 0) h
  simp only [crcStep_testBit_zero hwidth hodd] at hlow
  exact hne (Bool.xor_right_inj.mp hlow)

/-- Different registers stay different under one input bit. -/
theorem crcStep_injective (hwidth : 1 ≤ c.width) (hodd : c.poly % 2 = 1) {r s : Nat} (hr : r < 2 ^ c.width)
    (hs : s < 2 ^ c.width) {bit : Bool} (h : crcStep c r bit = crcStep c s bit) : r = s := by
  have htop : r.testBit (c.width - 1) = s.testBit (c.width - 1) := by
    have hlow := congrArg (Nat.testBit · 0) h
    simp only [crcStep_testBit_zero hwidth hodd] at hlow
    exact Bool.xor_left_inj.mp hlow
  refine Nat.eq_of_testBit_eq fun i => ?_
  rcases Nat.lt_trichotomy (i + 1) c.width with hi | hi | hi
  · have hbit := congrArg (Nat.testBit · (i + 1)) h
    simp only [crcStep_testBit c _ bit hi, htop] at hbit
    simpa using hbit
  · rwa [show i = c.width - 1 by omega]
  · rw [Nat.testBit_lt_two_pow (hr.trans_le (Nat.pow_le_pow_right (by decide) (by omega))),
      Nat.testBit_lt_two_pow (hs.trans_le (Nat.pow_le_pow_right (by decide) (by omega)))]

theorem foldl_crcStep_ne (hwidth : 1 ≤ c.width) (hodd : c.poly % 2 = 1) (hpoly : c.poly < 2 ^ c.width) {r s : Nat}
    (hr : r < 2 ^ c.width) (hs : s < 2 ^ c.width) (hne : r ≠ s) (b : Bits) :
    b.foldl (crcStep c) r ≠ b.foldl (crcStep c) s := by
  induction b generalizing r s with
  | nil => exact hne
  | cons x b ih =>
    exact ih (crcStep_lt hpoly r x) (crcStep_lt hpoly s x) fun h => hne (crcStep_injective hwidth hodd hr hs h)

/-- Two covered bit strings that differ in one place drive the register apart there, and it stays apart. -/
theorem foldl_crcStep_ne_of_one_bit (hwidth : 1 ≤ c.width) (hodd : c.poly % 2 = 1) (hpoly : c.poly < 2 ^ c.width)
    (reg : Nat) (before after : Bits) {x y : Bool} (hne : x ≠ y) :
    (before ++ x :: after).foldl (crcStep c) reg ≠ (before ++ y :: after).foldl (crcStep c) reg := by
  rw [List.foldl_append, List.foldl_append, List.foldl_cons, List.foldl_cons]
  exact foldl_crcStep_ne hwidth hodd hpoly (crcStep_lt hpoly ..) (crcStep_lt hpoly ..)
    (crcStep_bit_ne hwidth hodd _ hne) after

end Register

/-! ## Blocks that differ in one bit -/

section OneBit

variable {b b' : Bits} {i : Nat}

theorem field_eq_of_one_bit (hsame : ∀ j, j ≠ i → b[j]? = b'[j]?) {p : Nat} (hi : i < p) (w : Nat) :
    field b p w = field b' p w := by
  have hdrop : b.drop p = b'.drop p := by
    refine List.ext_getElem? fun j => ?_
    rw [List.getElem?_drop, List.getElem?_drop, hsame (p + j) (by omega)]
  rw [field, field, slice, slice, hdrop]

theorem take_split_of_one_bit (hsame : ∀ j, j ≠ i → b[j]? = b'[j]?) (hb : i < b.length) (hb' : i < b'.length) {n : Nat}
    (hi : i < n) : ∃ before after : Bits, b.take n = before ++ b[i] :: after ∧ b'.take n = before ++ b'[i] :: after := by
  have hbefore : b.take i = b'.take i := by
    refine List.ext_getElem? fun j => ?_
    rw [List.getElem?_take, List.getElem?_take]
    split
    next hj => exact hsame j (by omega)
    next => rfl
  have hafter : b.drop (i + 1) = b'.drop (i + 1) := by
    refine List.ext_getElem? fun j => ?_
    rw [List.getElem?_drop, List.getElem?_drop, hsame (i + 1 + j) (by omega)]
  have hsplit (l : Bits) (hl : i < l.length) : l.take n = l.take i ++ l[i] :: (l.drop (i + 1)).take (n - i - 1) := by
    obtain ⟨k, rfl⟩ : ∃ k, n = i + 1 + k := ⟨n - (i + 1), by omega⟩
    rw [List.take_add, List.take_succ_eq_append_getElem hl, List.append_assoc, List.singleton_append,
      show i + 1 + k - i - 1 = k by omega]
  exact ⟨b.take i, (b.drop (i + 1)).take (n - i - 1), hsplit b hb, by rw [hbefore, hafter]; exact hsplit b' hb'⟩

end OneBit

/-- Settles O49: the wrong covered bit changes the CRC, and the check field behind the covered bits is the same. -/
theorem crcDetectsOneBit : Obligations.CrcDetectsOneBit := by
  intro c b b' i hwidth hpoly _ hodd hcov hlen hi hb hsame hdiff hpass
  have hb' : i < b'.length := hlen ▸ hb
  have hne : b[i] ≠ b'[i] := by
    rwa [List.getElem?_eq_getElem hb, List.getElem?_eq_getElem hb', Ne, Option.some.injEq] at hdiff
  obtain ⟨before, after, htake, htake'⟩ := take_split_of_one_bit hsame hb hb' hi
  have hcrc : crcOf c b' ≠ crcOf c b := by
    rw [crcOf, crcOf, htake, htake']
    exact fun h => foldl_crcStep_ne_of_one_bit hwidth hodd hpoly c.init before after hne.symm (Nat.xor_left_inj.mp h)
  have hfield : crcOf c b = field b' c.pos c.width :=
    (beq_iff_eq.mp hpass).trans (field_eq_of_one_bit hsame (hi.trans_le hcov) c.width)
  exact beq_eq_false_iff_ne.mpr (hfield ▸ hcrc)

end Sys2Proof.Machine
end

