-- ==== Sys2Proof/Proofs/OpcodeLookup.lean ====
section
/-! PROOF of O50 and O51: the look-up in the opcode table, and the record of a block that no entry names (R173 to R175). -/

namespace Sys2Proof.Machine

open Sys2Proof

/-! ## The look-up (R173) -/

/-- When the VSEL of an entry asks for an MFID. -/
def VendorFits (P : Profile) (mfid : BitVec 8) : VendorSel → Prop
  | .std => mfid ∈ P.standardMfids
  | .exact m => m = mfid

theorem vendorMatches_iff (P : Profile) (v : VendorSel) (mfid : BitVec 8) :
    vendorMatches P v mfid = true ↔ VendorFits P mfid v := by
  cases v with
  | std => exact List.contains_iff_mem
  | exact m => exact beq_iff_eq

/-- When an entry of the opcode table fits a block: its direction, its opcode and its vendor. -/
def EntryFits (P : Profile) (dir : Word) (op : BitVec 6) (mfid : BitVec 8) (e : OpcodeEntry) : Prop :=
  directionCode e.dir = dir ∧ e.opcode = op ∧ VendorFits P mfid e.vsel

section Lookup

variable {P : Profile} {dir : Word} {op : BitVec 6} {mfid : BitVec 8}

/-- The condition that the look-up tests. -/
theorem entryFits_iff {e : OpcodeEntry} :
    (directionCode e.dir == dir && e.opcode == op && vendorMatches P e.vsel mfid) = true ↔ EntryFits P dir op mfid e := by
  rw [EntryFits, Bool.and_eq_true, Bool.and_eq_true, beq_iff_eq, beq_iff_eq, vendorMatches_iff, and_assoc]

theorem lookupOpcode_some {e : OpcodeEntry} (h : lookupOpcode P dir op mfid = some e) :
    ∃ k : Nat, P.opcodeTable[k]? = some e ∧ EntryFits P dir op mfid e
      ∧ ∀ (j : Nat) (f : OpcodeEntry), j < k → P.opcodeTable[j]? = some f → ¬ EntryFits P dir op mfid f := by
  obtain ⟨hfits, k, hk, hentry, hearlier⟩ := List.find?_eq_some_iff_getElem.mp h
  refine ⟨k, by rw [List.getElem?_eq_getElem hk, hentry], entryFits_iff.mp hfits, fun j f hj hf hfit => ?_⟩
  obtain ⟨hlt, rfl⟩ := List.getElem?_eq_some_iff.mp hf
  have hno := hearlier j hj
  rw [entryFits_iff.mpr hfit] at hno
  cases hno

theorem lookupOpcode_eq_none_iff :
    lookupOpcode P dir op mfid = none ↔ ∀ f ∈ P.opcodeTable, ¬ EntryFits P dir op mfid f := by
  rw [lookupOpcode, List.find?_eq_none]
  exact forall₂_congr fun f _ => not_congr entryFits_iff

end Lookup

/-- Settles O50: the look-up is a search for the first fitting entry. -/
theorem lookupIsFirstMatch : Obligations.LookupIsFirstMatch := fun _ _ _ _ =>
  ⟨fun _ h => lookupOpcode_some h, lookupOpcode_eq_none_iff.mp⟩

/-! ## Vendor blocks (R174, R175) -/

/-- No entry fits a vendor MFID that no EXACT entry names. -/
theorem not_entryFits_of_vendor {P : Profile} {mfid : BitVec 8} (hvendor : mfid ∉ P.standardMfids) {x : OpcodeEntry}
    (hexact : x.vsel ≠ .exact mfid) (dir : Word) (op : BitVec 6) : ¬ EntryFits P dir op mfid x := by
  rintro ⟨-, -, hfits⟩
  cases hsel : x.vsel with
  | std =>
    rw [hsel] at hfits
    exact hvendor hfits
  | exact m =>
    rw [hsel] at hfits
    exact hexact (hsel.trans (congrArg VendorSel.exact hfits))

/-- The record of a trunking block that has no entry (R174). -/
theorem tsbkMsg_of_no_entry {e : Env} {r : BlockResult} (h : tsbkEntry e.par.profile e.cfg.direction r.bits = none) (j : Nat)
    (t : BitVec 4) (ts : BitVec 64) : (tsbkMsg e r j t ts).msgType = 0xFF ∧ (tsbkMsg e r j t ts).ids = [] := by
  simp only [tsbkMsg, h, and_self]

theorem tsbkCategory_of_no_entry {e : Env} {bits : Bits} (h : tsbkEntry e.par.profile e.cfg.direction bits = none) :
    tsbkCategory e bits = .none := by
  simp only [tsbkCategory, h]

/-- Settles O51: no entry fits such a block, so its record is the one without an entry. -/
theorem vendorBlocksNotCrossDecoded : Obligations.VendorBlocksNotCrossDecoded := by
  intro e r j t ts hvendor hexact
  have hnone : tsbkEntry e.par.profile e.cfg.direction r.bits = none :=
    lookupOpcode_eq_none_iff.mpr fun x hx => not_entryFits_of_vendor hvendor (hexact x hx) _ _
  obtain ⟨htype, hids⟩ := tsbkMsg_of_no_entry hnone j t ts
  exact ⟨htype, hids, tsbkCategory_of_no_entry hnone⟩

end Sys2Proof.Machine
end

