-- ==== Sys2Proof/Proofs/PduSequence.lean ====
section
/-! PROOF of O53 and O54: what opens, fills and completes a PDU sequence (R178 to R183). -/

namespace Sys2Proof.Machine

open Sys2Proof

/-! ## Counters of sequences -/

/-- Completing a sequence: its record, counted, and nothing pending (R182). -/
theorem completeSequence_eq (p : Params) (q : Pending) (b : Backend) :
    completeSequence p q b = { recorded (sequenceMsg q) b with
      cnt := { (recorded (sequenceMsg q) b).cnt with pduComplete := b.cnt.pduComplete + 1 }
      pending := none } := by
  rw [completeSequence, emitMessage_none]
  rfl

@[simp] theorem storePending_pduAbandoned (p : Params) (q : Pending) (b : Backend) :
    (storePending p q b).cnt.pduAbandoned = b.cnt.pduAbandoned := by
  unfold storePending
  split
  · rw [completeSequence_eq]
    rfl
  · rfl

theorem storePending_pduComplete (p : Params) (q : Pending) (b : Backend) :
    (storePending p q b).cnt.pduComplete =
      if q.blocks.length = q.n then b.cnt.pduComplete + 1 else b.cnt.pduComplete := by
  unfold storePending
  split
  · rw [completeSequence_eq]
  · rfl

theorem abandonPending_pduAbandoned (b : Backend) : (abandonPending b).cnt.pduAbandoned =
    if b.pending = none then b.cnt.pduAbandoned else b.cnt.pduAbandoned + 1 := by
  unfold abandonPending
  split
  next q hq => rw [if_neg (by simp [hq])]
  next hnone => rw [if_pos hnone]

@[simp] theorem abandonPending_pduComplete (b : Backend) : (abandonPending b).cnt.pduComplete = b.cnt.pduComplete := by
  unfold abandonPending
  split
  · rfl
  · rfl

/-! ## Headers (R178, R180) -/

section Header

variable {e : Env} {r : BlockResult}

/-- A header that passes its check: recorded, what is pending abandoned, its own sequence stored. -/
theorem parseHeader_of_pass (h : checkPass e.par.profile.checkHeader r.bits = true) (t : BitVec 4) (ts : BitVec 64)
    (b : Backend) : parseHeader e r t ts b =
      storePending e.par
        { header := headerMsg e r t ts, blocks := [], n := field r.bits e.par.profile.hdrBtf.pos 7, ts := ts }
        (abandonPending (recorded (headerMsg e r t ts) b)) := by
  rw [parseHeader, if_pos h, emitMessage_none]

/-- A header that fails its check is recorded and nothing else. -/
theorem parseHeader_of_fail (h : checkPass e.par.profile.checkHeader r.bits = false) (t : BitVec 4) (ts : BitVec 64)
    (b : Backend) : parseHeader e r t ts b = recorded (headerMsg e r t ts) b := by
  rw [parseHeader, if_neg (by simp [h]), emitMessage_none]

theorem msgValid_headerMsg (e : Env) (r : BlockResult) (t : BitVec 4) (ts : BitVec 64) :
    msgValid (headerMsg e r t ts) = checkPass e.par.profile.checkHeader r.bits := by
  simp only [msgValid, headerMsg]
  cases checkPass e.par.profile.checkHeader r.bits with
  | true => rfl
  | false => rfl

end Header

/-- Settles O53: by the two outcomes of the header's check. -/
theorem headerOpensSequence : Obligations.HeaderOpensSequence := by
  intro e r t ts b n u
  refine ⟨fun hpass => ⟨?_, ?_, ?_⟩, fun hfail => ?_⟩
  · rw [show u.pending = _ from parseHeader_pending e r t ts b, if_pos hpass]
    exact if_congr eq_comm rfl rfl
  · rw [show u = _ from parseHeader_of_pass hpass t ts b, storePending_pduAbandoned, abandonPending_pduAbandoned]
    rfl
  · rw [show u = _ from parseHeader_of_pass hpass t ts b, storePending_pduComplete, abandonPending_pduComplete]
    exact if_congr eq_comm rfl rfl
  · rw [show u = _ from parseHeader_of_fail hfail t ts b, recorded_cnt, msgValid_headerMsg, hfail]
    exact ⟨rfl, rfl, rfl, rfl⟩

/-! ## Data blocks (R181 to R183) -/

section Blocks

variable {p : Params} {b : Backend}

/-- A block that leaves its sequence incomplete is stored. -/
theorem appendBlock_of_incomplete {q : Pending} {m : Msg} (hq : b.pending = some q) (hroom : q.blocks.length + 1 < q.n) :
    appendBlock p m b = { b with pending := some { q with blocks := q.blocks ++ [m] } } := by
  rw [appendBlock_of_room hq (by omega), storePending, if_neg (by simp; omega)]

/-- The block that a sequence still lacks completes it. -/
theorem appendBlock_of_last {q : Pending} {m : Msg} (hq : b.pending = some q) (hlast : q.blocks.length + 1 = q.n) :
    appendBlock p m b = completeSequence p { q with blocks := q.blocks ++ [m] }
      { b with pending := some { q with blocks := q.blocks ++ [m] } } := by
  rw [appendBlock_of_room hq (by omega), storePending, if_pos (by simpa using hlast)]

/-- The data blocks of a list, appended in order. -/
def appendBlocks (p : Params) (ms : List Msg) (b : Backend) : Backend := ms.foldl (fun b m => appendBlock p m b) b

@[simp] theorem appendBlocks_append (ms ns : List Msg) :
    appendBlocks p (ms ++ ns) b = appendBlocks p ns (appendBlocks p ms b) :=
  List.foldl_append

@[simp] theorem appendBlocks_singleton (m : Msg) : appendBlocks p [m] b = appendBlock p m b := rfl

/-- Fewer blocks than declared are only stored. -/
theorem appendBlocks_of_incomplete {q : Pending} (hempty : q.blocks = []) (hq : b.pending = some q) {ms : List Msg}
    (hfew : ms.length < q.n) : appendBlocks p ms b = { b with pending := some { q with blocks := ms } } := by
  induction ms using List.reverseRecOn with
  | nil =>
    have hsame : ({ q with blocks := [] } : Pending) = q := by rw [← hempty]
    rw [hsame, ← hq]
    rfl
  | append_singleton ms m ih =>
    rw [List.length_append, List.length_singleton] at hfew
    rw [appendBlocks_append, ih (by omega), appendBlocks_singleton, appendBlock_of_incomplete rfl hfew]

/-- As many blocks as declared complete the sequence. -/
theorem appendBlocks_of_complete {q : Pending} (hempty : q.blocks = []) (hq : b.pending = some q) {ms : List Msg}
    (hpos : 1 ≤ q.n) (hall : ms.length = q.n) :
    appendBlocks p ms b = completeSequence p { q with blocks := ms } { b with pending := some { q with blocks := ms } } := by
  rcases List.eq_nil_or_concat' ms with rfl | ⟨init, m, rfl⟩
  · exact absurd hall (by simp; omega)
  · rw [List.length_append, List.length_singleton] at hall
    rw [appendBlocks_append, appendBlocks_of_incomplete hempty hq (by omega), appendBlocks_singleton,
      appendBlock_of_last rfl hall]

/-- Without a pending sequence every block is an orphan. -/
theorem appendBlocks_of_none (hnone : b.pending = none) (ms : List Msg) :
    appendBlocks p ms b = { b with cnt.orphanBlock := b.cnt.orphanBlock + BitVec.ofNat 32 ms.length } := by
  induction ms using List.reverseRecOn with
  | nil => simp [appendBlocks]
  | append_singleton ms m ih =>
    rw [appendBlocks_append, ih, appendBlocks_singleton, appendBlock]
    simp [hnone, BitVec.ofNat_add, BitVec.add_assoc]

end Blocks

/-- Settles O54: the declared blocks complete the sequence, and the ones behind them find nothing pending. -/
theorem sequenceCompletesAtItsCount : Obligations.SequenceCompletesAtItsCount := by
  intro p q ms b hempty hq
  refine ⟨appendBlocks_of_incomplete hempty hq, fun hpos hmany => ?_⟩
  have hrun : appendBlocks p ms b = appendBlocks p (ms.drop q.n) (appendBlocks p (ms.take q.n) b) := by
    rw [← appendBlocks_append, List.take_append_drop]
  change (appendBlocks p ms b).pending = none ∧ (appendBlocks p ms b).cnt.pduComplete = _
    ∧ (appendBlocks p ms b).cnt.orphanBlock = _ ∧ (appendBlocks p ms b).trace = _
  rw [hrun, appendBlocks_of_complete hempty hq hpos (List.length_take_of_le hmany),
    appendBlocks_of_none (completeSequence_pending ..), completeSequence_eq, List.length_drop]
  exact ⟨rfl, rfl, rfl, rfl⟩

end Sys2Proof.Machine
end

