-- ==== Sys2Proof/Proofs/BroadcastFold.lean ====
section
/-! PROOF of O57: a broadcast replaces the stored one, and is notified when it is new or its payload changed (R192). -/

namespace Sys2Proof.Machine

open Sys2Proof

/-- A stored broadcast of the same payload: nothing to notify. -/
theorem foldBroadcast_of_same {m : Msg} {old : Option Broadcast} (h : old.map Broadcast.payload = some m.payload)
    (c : NCat) (b : Backend) : foldBroadcast c m old b = b := by
  cases old with
  | none => cases h
  | some o => exact if_pos (beq_iff_eq.mpr (Option.some.inj h))

theorem foldBroadcast_of_changed {m : Msg} {old : Option Broadcast} (h : old.map Broadcast.payload ≠ some m.payload)
    (c : NCat) (b : Backend) : foldBroadcast c m old b =
      notifyBack c 0 (BitVec.ofNat 32 (field m.payload 16 32)) (BitVec.ofNat 32 (field m.payload 48 32)) b := by
  cases old with
  | none => rfl
  | some o => exact if_neg fun hsame => h (congrArg some (beq_iff_eq.mp hsame))

/-- A broadcast's fold writes no more than the trace, and that exactly when the payload is not the stored one. -/
theorem foldBroadcast_effect (c : NCat) (m : Msg) (old : Option Broadcast) (b : Backend) :
    foldBroadcast c m old b = { b with trace := (foldBroadcast c m old b).trace }
      ∧ (old.map Broadcast.payload = some m.payload → (foldBroadcast c m old b).trace = b.trace)
      ∧ (old.map Broadcast.payload ≠ some m.payload → (foldBroadcast c m old b).trace = b.trace ++
          [notifyEvent c 0 (BitVec.ofNat 32 (field m.payload 16 32)) (BitVec.ofNat 32 (field m.payload 48 32))]) := by
  by_cases h : old.map Broadcast.payload = some m.payload
  · rw [foldBroadcast_of_same h]
    exact ⟨rfl, fun _ => rfl, fun hne => absurd h hne⟩
  · rw [foldBroadcast_of_changed h]
    exact ⟨rfl, fun hsame => absurd hsame h, fun _ => rfl⟩

/-- Settles O57: the store is written first, and both folds compare the payload with the one stored before. -/
theorem broadcastFold : Obligations.BroadcastFold := fun _ m b =>
  ⟨foldBroadcast_effect .site m b.agg.site { b with agg.site := some { payload := m.payload, ts := m.ts } },
    foldBroadcast_effect .network m b.agg.network { b with agg.network := some { payload := m.payload, ts := m.ts } }⟩

end Sys2Proof.Machine
end

