-- ==== Sys2Proof/Proofs/CallFolds.lean ====
section
/-! PROOF of O55 and O56: what a grant does to the call slots (R193, R194), and what a termination or idle indicator does
(R196). -/

namespace Sys2Proof.Machine

open Sys2Proof

/-! ## Look-ups answered by what they find -/

section Lookups

variable {calls : List (Option Call)} {i : Nat} {c : Call}

theorem findCall_eq_some {ch : BitVec 28} (hslot : calls[i]? = some (some c)) (hch : c.channel = ch)
    (hfirst : ∀ (j : Nat) (d : Call), j < i → calls[j]? = some (some d) → d.channel ≠ ch) :
    findCall ch calls = some (i, c) := by
  cases hfound : findCall ch calls with
  | none => exact absurd hch (findCall_none.mp hfound i c hslot)
  | some x =>
    obtain ⟨hx, hxch, hxfirst⟩ := findCall_some hfound
    have hxi : x.1 = i := Nat.le_antisymm (Nat.not_lt.mp fun hlt => hxfirst i c hlt hslot hch)
      (Nat.not_lt.mp fun hlt => hfirst x.1 x.2 hlt hx hxch)
    have hxc : x.2 = c := by simpa [hxi, hslot] using hx.symm
    rw [← hxi, ← hxc]

theorem freeSlot_eq_some (hfree : calls[i]? = some none) (hfirst : ∀ j : Nat, j < i → calls[j]? ≠ some none) :
    freeSlot calls = some i := by
  cases hfound : freeSlot calls with
  | none => exact absurd rfl (freeSlot_none hfound none (List.mem_of_getElem? hfree))
  | some k =>
    obtain ⟨hk, hkfirst⟩ := freeSlot_some hfound
    have hle : k ≤ i := Nat.not_lt.mp fun hlt => by
      obtain ⟨d, hd⟩ := hkfirst i hlt
      cases hfree.symm.trans hd
    rw [Nat.le_antisymm hle (Nat.not_lt.mp fun hlt => hfirst k hlt hk)]

theorem freeSlot_eq_none (hfull : ∀ j : Nat, calls[j]? ≠ some none) : freeSlot calls = none :=
  Option.eq_none_iff_forall_ne_some.mpr fun j hj => hfull j (freeSlot_some hj).1

/-- The oldest call is one slot only: of two slots with the smallest last_ts the lower one is meant. -/
theorem oldestCall_eq_some (hslot : calls[i]? = some (some c))
    (holdest : ∀ (j : Nat) (d : Call), calls[j]? = some (some d) →
      c.lastTs.toNat ≤ d.lastTs.toNat ∧ (j < i → c.lastTs.toNat < d.lastTs.toNat)) :
    oldestCall calls = some (i, c) := by
  cases hfound : oldestCall calls with
  | none => exact absurd hslot (oldestCall_some.oldestCall_none_elim hfound i c)
  | some x =>
    obtain ⟨hx, hxoldest⟩ := oldestCall_some hfound
    obtain ⟨hle, hlt⟩ := holdest x.1 x.2 hx
    obtain ⟨hxle, hxlt⟩ := hxoldest i c hslot
    have hxi : x.1 = i := by omega
    have hxc : x.2 = c := by simpa [hxi, hslot] using hx.symm
    rw [← hxi, ← hxc]

end Lookups

/-! ## Grants (R193, R194) -/

section Grants

variable {b : Backend} {i : Nat} {old new : Call}

theorem regrant_of_same (htarget : old.target = new.target) (hsource : old.source = new.source) :
    regrant i old new b = setCall i (some { old with lastTs := new.lastTs }) b := by
  rw [regrant, if_pos htarget, if_neg (not_not_intro hsource)]

theorem regrant_of_source_ne (htarget : old.target = new.target) (hsource : old.source ≠ new.source) :
    regrant i old new b =
      notifyCall .callUpdate i new (setCall i (some { old with source := new.source, lastTs := new.lastTs }) b) := by
  rw [regrant, if_pos htarget, if_pos hsource]

theorem regrant_of_target_ne (htarget : old.target ≠ new.target) :
    regrant i old new b = openCall i new (notifyCall .callClose i old b) := if_neg htarget

theorem foldGrantCall_of_carried (h : findCall new.channel b.agg.calls = some (i, old)) :
    foldGrantCall new b = regrant i old new b := by
  rw [foldGrantCall, h]

theorem foldGrantCall_of_new (h : findCall new.channel b.agg.calls = none) : foldGrantCall new b = grantNew new b := by
  rw [foldGrantCall, h]

theorem grantNew_of_free (h : freeSlot b.agg.calls = some i) : grantNew new b = openCall i new b := by
  rw [grantNew, h]

theorem grantNew_of_full (hfull : freeSlot b.agg.calls = none) (h : oldestCall b.agg.calls = some (i, old)) :
    grantNew new b = openCall i new (evictCall i old b) := by
  rw [grantNew, hfull]
  dsimp only
  rw [h]

/-- An eviction closes the slot that the new call then takes: the slot is written once (R194). -/
theorem openCall_evictCall : openCall i new (evictCall i old b) = { b with
    cnt := { b.cnt with callEvict := b.cnt.callEvict + 1 }
    agg := { b.agg with calls := b.agg.calls.set i (some new) }
    trace := b.trace ++ [notifyEvent .callClose i (idWord old.target) (idWord old.channel),
      notifyEvent .callOpen i (idWord new.target) (idWord new.channel)] } := by
  simp [openCall, evictCall, notifyCall, notifyBack, emitBack, emitEvents, setCall, List.set_set]

theorem openCall_notifyClose : openCall i new (notifyCall .callClose i old b) = { b with
    agg := { b.agg with calls := b.agg.calls.set i (some new) }
    trace := b.trace ++ [notifyEvent .callClose i (idWord old.target) (idWord old.channel),
      notifyEvent .callOpen i (idWord new.target) (idWord new.channel)] } := by
  simp [openCall, notifyCall, notifyBack, emitBack, emitEvents, setCall]

theorem foldMsg_grant {m : Msg} {ch tg src : BitVec 28} (p : Params) (hch : idOf m .channel = some ch)
    (htg : idOf m .target = some tg) (hsrc : idOf m .source = some src) (b : Backend) : foldMsg p m .grant b =
      foldGrantCall { source := src, target := tg, channel := ch, grantTs := m.ts, lastTs := m.ts } b := by
  simp only [foldMsg, foldGrant, hch, htg, hsrc]

end Grants

/-- Settles O55: by the slot that carries the channel, the lowest free slot, or the oldest call. -/
theorem grantEffect : Obligations.GrantEffect := by
  intro p m b ch tg src hch htg hsrc fresh opened
  rw [foldMsg_grant p hch htg hsrc]
  refine ⟨fun i old hslot hsame hfirst => ?_, fun hnew => ?_⟩
  · rw [foldGrantCall_of_carried (findCall_eq_some hslot hsame hfirst)]
    exact ⟨fun htarget hsource => regrant_of_same htarget hsource,
      fun htarget hsource => regrant_of_source_ne htarget hsource,
      fun htarget => (regrant_of_target_ne htarget).trans openCall_notifyClose⟩
  · rw [foldGrantCall_of_new (findCall_none.mpr hnew)]
    exact ⟨fun i hfree hlowest => grantNew_of_free (freeSlot_eq_some hfree hlowest),
      fun i old hfull hslot holdest =>
        (grantNew_of_full (freeSlot_eq_none hfull) (oldestCall_eq_some hslot holdest)).trans openCall_evictCall⟩

/-! ## Closing calls (R196) -/

theorem closeCalls_eq (q : Call → Bool) (b : Backend) : closeCalls q b = { b with
    agg := { b.agg with calls := closedCalls q b.agg.calls }
    trace := b.trace ++ closingNotes q b.agg.calls } := by
  rw [← closeEvents_closingNotes]
  rfl

theorem closedCalls_true (calls : List (Option Call)) :
    closedCalls (fun _ => true) calls = List.replicate calls.length none := by
  refine List.eq_replicate_iff.mpr ⟨closedCalls_length .., fun x hx => ?_⟩
  obtain ⟨y, -, rfl⟩ := List.mem_map.mp hx
  cases y <;> rfl

/-- Settles O56: both categories close the calls that meet the condition which every call meets. -/
theorem terminateClosesAll : Obligations.TerminateClosesAll := by
  intro p m cat b hcat
  have hfold : foldMsg p m cat b = closeCalls (fun _ => true) b := by
    rcases hcat with rfl | rfl
    · rfl
    · rfl
  rw [hfold, closeCalls_eq, closedCalls_true]

end Sys2Proof.Machine
end

