-- ==== Sys2Proof/Proofs/TableFolds.lean ====
section
/-! PROOF of O58 and O59: the neighbor table is last-write-wins per key (R197), and the SCC set is deduplicated, ordered and
bounded (R198). -/

namespace Sys2Proof.Machine

open Sys2Proof

/-! ## The neighbor table (R197) -/

section Neighbors

variable {key : BitVec 28} {e old : Neighbor} {ns : List Neighbor}

theorem KeysAscend.eq_of_key_eq (h : KeysAscend ns) {x y : Neighbor} (hx : x ∈ ns) (hy : y ∈ ns) (hkey : x.key = y.key) :
    x = y := by
  induction ns with
  | nil => cases hx
  | cons n rest ih =>
    obtain ⟨hfirst, hrest⟩ := List.pairwise_cons.mp h
    have hnum : x.key.toNat = y.key.toNat := congrArg BitVec.toNat hkey
    rcases List.mem_cons.mp hx with hxn | hxrest
    · rcases List.mem_cons.mp hy with hyn | hyrest
      · rw [hxn, hyn]
      · exact absurd (hxn ▸ hnum) (hfirst y hyrest).ne
    · rcases List.mem_cons.mp hy with hyn | hyrest
      · exact absurd (hyn ▸ hnum) (hfirst x hxrest).ne'
      · exact ih hrest hxrest hyrest

theorem findNeighbor_eq_some (h : KeysAscend ns) (hold : old ∈ ns) (hkey : old.key = key) :
    findNeighbor key ns = some old := by
  cases hfound : findNeighbor key ns with
  | none => exact absurd (by simpa using hkey) (List.find?_eq_none.mp hfound old hold)
  | some n =>
    obtain ⟨hn, hnkey⟩ := findNeighbor_some hfound
    rw [h.eq_of_key_eq hn hold (hnkey.trans hkey.symm)]

theorem findNeighbor_eq_none_iff : findNeighbor key ns = none ↔ ∀ n ∈ ns, n.key ≠ key := by
  simp [findNeighbor, List.find?_eq_none]

/-- Last write wins: the entry written, and the entries of every other key. -/
theorem mem_putNeighbor (h : KeysAscend ns) {n : Neighbor} :
    n ∈ putNeighbor e ns ↔ n = e ∨ (n ∈ ns ∧ n.key ≠ e.key) := by
  induction ns with
  | nil => simp [putNeighbor]
  | cons m rest ih =>
    obtain ⟨hfirst, hrest⟩ := List.pairwise_cons.mp h
    rw [putNeighbor]
    split
    next hsame =>
      have hother : ∀ x ∈ rest, x.key ≠ e.key := fun x hx heq =>
        (hfirst x hx).ne (congrArg BitVec.toNat (heq.trans hsame)).symm
      grind
    next hne =>
      split
      next hlt =>
        have hother : ∀ x ∈ rest, x.key ≠ e.key := fun x hx heq =>
          (hlt.trans (hfirst x hx)).ne (congrArg BitVec.toNat heq).symm
        grind
      next =>
        rw [List.mem_cons, ih hrest]
        grind

theorem putNeighbor_length_of_new (hnew : ∀ n ∈ ns, n.key ≠ e.key) : (putNeighbor e ns).length = ns.length + 1 := by
  induction ns with
  | nil => rfl
  | cons n rest ih =>
    obtain ⟨hne, hrest⟩ := List.forall_mem_cons.mp hnew
    rw [putNeighbor, if_neg (Ne.symm hne)]
    split
    · rfl
    · rw [List.length_cons, ih hrest, List.length_cons]

variable {p : Params} {b : Backend}

theorem foldNeighborEntry_of_known (h : KeysAscend b.agg.neighbors) (hold : old ∈ b.agg.neighbors)
    (hkey : old.key = e.key) : foldNeighborEntry p e b = { b with
      agg := { b.agg with neighbors := putNeighbor e b.agg.neighbors }
      trace := b.trace ++ if old.payload = e.payload then [] else [notifyEvent .neighbor 0 (idWord e.key) 0] } := by
  rw [foldNeighborEntry, findNeighbor_eq_some h hold hkey]
  by_cases hsame : old.payload = e.payload
  · simp [hsame]
  · simp [hsame, notifyBack, emitBack, emitEvents]

theorem foldNeighborEntry_of_room (hnew : ∀ n ∈ b.agg.neighbors, n.key ≠ e.key)
    (hroom : b.agg.neighbors.length < p.maxNeighbors) : foldNeighborEntry p e b = { b with
      agg := { b.agg with neighbors := putNeighbor e b.agg.neighbors }
      trace := b.trace ++ [notifyEvent .neighbor 0 (idWord e.key) 0] } := by
  rw [foldNeighborEntry, findNeighbor_eq_none_iff.mpr hnew]
  exact if_pos hroom

theorem foldNeighborEntry_of_full (hnew : ∀ n ∈ b.agg.neighbors, n.key ≠ e.key)
    (hfull : p.maxNeighbors ≤ b.agg.neighbors.length) :
    foldNeighborEntry p e b = { b with cnt := { b.cnt with neighborOverflow := b.cnt.neighborOverflow + 1 } } := by
  rw [foldNeighborEntry, findNeighbor_eq_none_iff.mpr hnew]
  exact if_neg (Nat.not_lt.mpr hfull)

theorem foldMsg_neighbor {m : Msg} (hkey : idOf m .key = some key) (b : Backend) :
    foldMsg p m .neighbor b = foldNeighborEntry p { key := key, payload := m.payload, ts := m.ts } b := by
  simp only [foldMsg, foldNeighbor, hkey]

end Neighbors

/-- Settles O58: by whether the key is known, and whether the table has room. -/
theorem neighborLastWriteWins : Obligations.NeighborLastWriteWins := by
  intro p m b key hkey hsorted
  rw [foldMsg_neighbor hkey]
  refine ⟨fun old hold hsame => ?_, fun hnew hroom => ?_, fun hnew hfull => foldNeighborEntry_of_full hnew hfull⟩
  · rw [foldNeighborEntry_of_known hsorted hold hsame]
    exact ⟨⟨fun _ => mem_putNeighbor hsorted, putNeighbor_ascends _ hsorted, rfl⟩,
      putNeighbor_length_of_mem hsorted hold hsame, rfl⟩
  · rw [foldNeighborEntry_of_room hnew hroom]
    exact ⟨⟨fun _ => mem_putNeighbor hsorted, putNeighbor_ascends _ hsorted, rfl⟩, putNeighbor_length_of_new hnew, rfl⟩

/-! ## The SCC set (R198) -/

section Scc

variable {x y : BitVec 16 × BitVec 8} {xs : List (BitVec 16 × BitVec 8)}

theorem mem_insertScc : y ∈ insertScc x xs ↔ y = x ∨ y ∈ xs := by
  induction xs with
  | nil => simp [insertScc]
  | cons z rest ih =>
    rw [insertScc]
    split
    · exact List.mem_cons
    · rw [List.mem_cons, ih, List.mem_cons, or_left_comm]

theorem sccBefore_asymm (h : sccBefore x y = true) : sccBefore y x = false := by
  rw [Bool.eq_false_iff]
  rw [sccBefore_iff] at h
  exact fun hyx => Nat.lt_asymm h ((sccBefore_iff y x).mp hyx)

/-- A pair is inserted at the position that counts the pairs before it. -/
theorem insertScc_getElem? (h : SccAscends xs) (hnew : x ∉ xs) :
    (insertScc x xs)[xs.countP fun y => sccBefore y x]? = some x := by
  induction xs with
  | nil => rfl
  | cons z rest ih =>
    obtain ⟨hfirst, hrest⟩ := List.pairwise_cons.mp h
    obtain ⟨hne, hnewRest⟩ := not_or.mp (mt List.mem_cons.mpr hnew)
    rw [insertScc]
    split
    next hlt =>
      have hnone : (z :: rest).countP (fun y => sccBefore y x) = 0 := by
        refine List.countP_eq_zero.mpr fun y hy => ?_
        have hxy : sccBefore x y = true := by
          rcases List.mem_cons.mp hy with rfl | hy
          · exact hlt
          · exact sccBefore_trans hlt (hfirst y hy)
        simp [sccBefore_asymm hxy]
      rw [hnone]
      rfl
    next hge =>
      rw [List.countP_cons_of_pos (p := fun y => sccBefore y x) (sccBefore_of_not hne hge), List.getElem?_cons_succ]
      exact ih hrest hnewRest

variable {p : Params} {b : Backend}

theorem foldSccPair_of_mem (h : x ∈ b.agg.scc) : foldSccPair p x b = b := if_pos (List.contains_iff_mem.mpr h)

theorem foldSccPair_of_full (hnew : x ∉ b.agg.scc) (hfull : p.maxScc ≤ b.agg.scc.length) :
    foldSccPair p x b = { b with cnt := { b.cnt with sccOverflow := b.cnt.sccOverflow + 1 } } := by
  rw [foldSccPair, if_neg (mt List.contains_iff_mem.mp hnew), if_pos hfull]

theorem foldSccPair_of_room (hnew : x ∉ b.agg.scc) (hroom : b.agg.scc.length < p.maxScc) :
    foldSccPair p x b = notifyBack .scc (b.agg.scc.countP fun y => sccBefore y x) (x.1.setWidth 32) (x.2.setWidth 32)
      { b with agg.scc := insertScc x b.agg.scc } := by
  rw [foldSccPair, if_neg (mt List.contains_iff_mem.mp hnew), if_neg (Nat.not_le.mpr hroom)]

theorem foldSccRoles_of_absent {m : Msg} {r : Role} (h : idOf m r = none) (q : Role) : foldSccRoles p m r q b = b := by
  rw [foldSccRoles, h]

theorem foldSccRoles_of_declared {m : Msg} {r q : Role} {a c : BitVec 28} (ha : idOf m r = some a) (hc : idOf m q = some c) :
    foldSccRoles p m r q b = foldSccPair p (a.setWidth 16, c.setWidth 8) b := by
  simp only [foldSccRoles, ha, hc]

end Scc

/-- Settles O59: by whether the pair is known, and whether the set has room. -/
theorem sccDeduplicates : Obligations.SccDeduplicates := by
  refine ⟨fun p a c b hsorted => ⟨foldSccPair_of_mem, foldSccPair_of_full, fun hnew hroom => ?_⟩, fun p m b =>
    ⟨rfl, fun r q => ⟨fun habsent => foldSccRoles_of_absent habsent q, fun a c => foldSccRoles_of_declared⟩⟩⟩
  rw [foldSccPair_of_room hnew hroom]
  exact ⟨_, insertScc_getElem? hsorted hnew, rfl, insertScc_length .., fun _ => mem_insertScc,
    insertScc_ascends hsorted hnew⟩

end Sys2Proof.Machine
end

