-- ==== Sys2Proof/Proofs/VisibleChanges.lean ====
section
/-! PROOF of O60: a fold notifies exactly when it changes a visible value (R200). -/

namespace Sys2Proof.Machine

open Sys2Proof

/-- From the first back end to the second, the trace grows exactly when a visible value changes (R200). -/
def NotifiesChange (b b' : Backend) : Prop := b'.trace = b.trace ↔ visible b'.agg = visible b.agg

section Rules

variable {b b' : Backend}

theorem NotifiesChange.of_quiet (htrace : b'.trace = b.trace) (hvisible : visible b'.agg = visible b.agg) :
    NotifiesChange b b' := iff_of_true htrace hvisible

theorem NotifiesChange.of_noted {es : List Event} (htrace : b'.trace = b.trace ++ es) (hes : es ≠ [])
    (hvisible : visible b'.agg ≠ visible b.agg) : NotifiesChange b b' :=
  iff_of_false (by rw [htrace]; exact fun h => hes (List.append_right_eq_self.mp h)) hvisible

theorem NotifiesChange.refl (b : Backend) : NotifiesChange b b := .of_quiet rfl rfl

end Rules

/-! ## Broadcasts (R192) -/

section Broadcasts

variable {a : Agg}

theorem visible_site_iff {x : Option Broadcast} :
    visible { a with site := x } = visible a ↔ x.map Broadcast.payload = a.site.map Broadcast.payload := by
  simp [visible]

theorem visible_network_iff {x : Option Broadcast} :
    visible { a with network := x } = visible a ↔ x.map Broadcast.payload = a.network.map Broadcast.payload := by
  simp [visible]

/-- A broadcast's fold over its written store, when the store shows a change exactly for a changed payload. -/
theorem foldBroadcast_notifies (c : NCat) {m : Msg} {old : Option Broadcast} {b stored : Backend}
    (htrace : stored.trace = b.trace)
    (hvisible : visible stored.agg = visible b.agg ↔ some m.payload = old.map Broadcast.payload) :
    NotifiesChange b (foldBroadcast c m old stored) := by
  by_cases hsame : old.map Broadcast.payload = some m.payload
  · rw [foldBroadcast_of_same hsame]
    exact .of_quiet htrace (hvisible.mpr hsame.symm)
  · rw [foldBroadcast_of_changed hsame]
    exact .of_noted (by rw [notifyBack_trace, htrace]) (List.cons_ne_nil _ []) fun h => hsame (hvisible.mp h).symm

theorem foldSite_notifies (m : Msg) (b : Backend) : NotifiesChange b (foldSite m b) :=
  foldBroadcast_notifies .site rfl visible_site_iff

theorem foldNetwork_notifies (m : Msg) (b : Backend) : NotifiesChange b (foldNetwork m b) :=
  foldBroadcast_notifies .network rfl visible_network_iff

end Broadcasts

/-! ## Calls (R193, R196) -/

section Calls

variable {a : Agg} {b : Backend} {i : Nat} {old new : Call}

/-- What R200 calls visible of a call. -/
def callView (c : Call) : BitVec 28 × BitVec 28 × BitVec 28 := (c.source, c.target, c.channel)

theorem visible_calls_iff {calls : List (Option Call)} : visible { a with calls := calls } = visible a ↔
    calls.map (Option.map callView) = a.calls.map (Option.map callView) := by
  simp only [visible, Prod.mk.injEq, true_and]
  rfl

theorem visible_set_call_iff {x y : Option Call} (hslot : a.calls[i]? = some x) :
    visible { a with calls := a.calls.set i y } = visible a ↔ y.map callView = x.map callView := by
  obtain ⟨hi, hx⟩ := List.getElem?_eq_some_iff.mp hslot
  rw [visible_calls_iff, List.map_set]
  constructor
  · intro h
    have hat := congrArg (fun l => l[i]?) h
    simpa [hx, hi] using hat
  · intro h
    rw [h, ← hx, ← List.map_set, List.set_getElem_self]

theorem regrant_notifies (hslot : b.agg.calls[i]? = some (some old)) :
    NotifiesChange b (regrant i old new b) := by
  by_cases htarget : old.target = new.target
  · by_cases hsource : old.source = new.source
    · rw [regrant_of_same htarget hsource]
      exact .of_quiet rfl ((visible_set_call_iff hslot).mpr rfl)
    · rw [regrant_of_source_ne htarget hsource]
      refine .of_noted rfl (List.cons_ne_nil _ []) (mt (visible_set_call_iff hslot).mp ?_)
      simpa [callView] using Ne.symm hsource
  · rw [regrant_of_target_ne htarget, openCall_notifyClose]
    refine .of_noted rfl (List.cons_ne_nil _ _) (mt (visible_set_call_iff hslot).mp ?_)
    simpa [callView] using fun _ heq => absurd heq.symm htarget

theorem grantNew_notifies (hnew : findCall new.channel b.agg.calls = none) : NotifiesChange b (grantNew new b) := by
  cases hfree : freeSlot b.agg.calls with
  | some i =>
    rw [grantNew_of_free hfree]
    exact .of_noted rfl (List.cons_ne_nil _ []) (mt (visible_set_call_iff (freeSlot_some hfree).1).mp nofun)
  | none =>
    cases holdest : oldestCall b.agg.calls with
    | some x =>
      obtain ⟨hslot, -⟩ := oldestCall_some holdest
      have hchannel : x.2.channel ≠ new.channel := findCall_none.mp hnew x.1 x.2 hslot
      rw [grantNew_of_full hfree holdest, openCall_evictCall]
      refine .of_noted rfl (List.cons_ne_nil _ _) (mt (visible_set_call_iff hslot).mp ?_)
      simpa [callView] using fun _ _ heq => absurd heq.symm hchannel
    | none =>
      have hstays : grantNew new b = b := by
        rw [grantNew, hfree]
        dsimp only
        rw [holdest]
      rw [hstays]
      exact .refl b

theorem foldGrantCall_notifies (c : Call) (b : Backend) : NotifiesChange b (foldGrantCall c b) := by
  cases hfound : findCall c.channel b.agg.calls with
  | some x =>
    rw [foldGrantCall_of_carried hfound]
    exact regrant_notifies (findCall_some hfound).1
  | none =>
    rw [foldGrantCall_of_new hfound]
    exact grantNew_notifies hfound

theorem foldGrant_notifies (m : Msg) (b : Backend) : NotifiesChange b (foldGrant m b) := by
  unfold foldGrant
  split
  · exact foldGrantCall_notifies _ b
  · exact .refl b

theorem closeEvents_eq_nil_iff {q : Call → Bool} {calls : List (Option Call)} :
    closeEvents q i calls = [] ↔ ∀ c, some c ∈ calls → q c = false := by
  induction calls generalizing i with
  | nil => simp [closeEvents]
  | cons x rest ih =>
    cases x with
    | none => simp [closeEvents, ih]
    | some c => cases hq : q c <;> simp [closeEvents, ih, hq]

/-- A closed call is seen, and no other slot changes. -/
theorem visible_closedCalls_iff {q : Call → Bool} :
    visible { a with calls := closedCalls q a.calls } = visible a ↔ ∀ c, some c ∈ a.calls → q c = false := by
  rw [visible_calls_iff, closedCalls, List.map_map, List.map_inj_left]
  constructor
  · intro h c hc
    have hsame := h (some c) hc
    cases hq : q c with
    | false => rfl
    | true => simp [hq] at hsame
  · intro h x hx
    cases x with
    | none => rfl
    | some c => simp [h c hx]

theorem closeCalls_notifies (q : Call → Bool) (b : Backend) : NotifiesChange b (closeCalls q b) := by
  rw [NotifiesChange, closeCalls_trace, closeCalls_agg, visible_closedCalls_iff, List.append_right_eq_self,
    closeEvents_eq_nil_iff]

end Calls

/-! ## The neighbor table (R197) -/

section Neighbors

variable {p : Params} {a : Agg} {b : Backend} {e old : Neighbor} {ns : List Neighbor}

/-- What R200 calls visible of a table entry. -/
def neighborView (n : Neighbor) : BitVec 28 × Bits := (n.key, n.payload)

theorem visible_neighbors_iff :
    visible { a with neighbors := ns } = visible a ↔ ns.map neighborView = a.neighbors.map neighborView := by
  simp only [visible, Prod.mk.injEq, true_and, and_true]
  rfl

/-- An entry written over the one of its key is seen when its payload is another. -/
theorem map_neighborView_putNeighbor (h : KeysAscend ns) (hold : old ∈ ns) (hkey : old.key = e.key) :
    (putNeighbor e ns).map neighborView = ns.map neighborView ↔ old.payload = e.payload := by
  induction ns with
  | nil => cases hold
  | cons n rest ih =>
    obtain ⟨hfirst, hrest⟩ := List.pairwise_cons.mp h
    rw [putNeighbor]
    split
    next hsame =>
      have hon : old = n := h.eq_of_key_eq hold List.mem_cons_self (hkey.trans hsame)
      simp [neighborView, hon, hsame, eq_comm]
    next hne =>
      have hmem : old ∈ rest := (List.mem_cons.mp hold).resolve_left fun heq => hne (by rw [← hkey, heq])
      have hlt : n.key.toNat < e.key.toNat := hkey ▸ hfirst old hmem
      rw [if_neg (Nat.lt_asymm hlt), List.map_cons, List.map_cons, List.cons_inj_right]
      exact ih hrest hmem

theorem foldNeighborEntry_notifies (e : Neighbor) (hsorted : KeysAscend b.agg.neighbors) :
    NotifiesChange b (foldNeighborEntry p e b) := by
  by_cases hknown : ∃ old ∈ b.agg.neighbors, old.key = e.key
  · obtain ⟨old, hold, hkey⟩ := hknown
    have hvisible := (visible_neighbors_iff (a := b.agg)).trans (map_neighborView_putNeighbor hsorted hold hkey)
    rw [foldNeighborEntry_of_known hsorted hold hkey]
    by_cases hsame : old.payload = e.payload
    · exact .of_quiet (by simp [hsame]) (hvisible.mpr hsame)
    · rw [if_neg hsame]
      exact .of_noted rfl (List.cons_ne_nil _ []) (mt hvisible.mp hsame)
  · have hnew : ∀ n ∈ b.agg.neighbors, n.key ≠ e.key := fun n hn hkey => hknown ⟨n, hn, hkey⟩
    rcases Nat.lt_or_ge b.agg.neighbors.length p.maxNeighbors with hroom | hfull
    · rw [foldNeighborEntry_of_room hnew hroom]
      refine .of_noted rfl (List.cons_ne_nil _ []) (mt visible_neighbors_iff.mp fun hsame => ?_)
      have hlen := congrArg List.length hsame
      rw [List.length_map, List.length_map, putNeighbor_length_of_new hnew] at hlen
      omega
    · rw [foldNeighborEntry_of_full hnew hfull]
      exact .of_quiet rfl rfl

theorem foldNeighbor_notifies (m : Msg) (hsorted : KeysAscend b.agg.neighbors) :
    NotifiesChange b (foldNeighbor p m b) := by
  unfold foldNeighbor
  split
  · exact foldNeighborEntry_notifies _ hsorted
  · exact .refl b

end Neighbors

/-! ## The SCC set (R198) -/

section Scc

variable {p : Params} {b b' b'' : Backend}

/-- Folding declared pairs: nothing is seen and nothing notified, or the set and the trace both grow. -/
def SccGrowth (b b' : Backend) : Prop :=
  (b'.trace = b.trace ∧ b'.agg = b.agg)
    ∨ (b.trace.length < b'.trace.length ∧ b.agg.scc.length < b'.agg.scc.length)

theorem SccGrowth.trans (h : SccGrowth b b') (h' : SccGrowth b' b'') : SccGrowth b b'' := by
  rcases h with ⟨htrace, hagg⟩ | ⟨htrace, hscc⟩
  · rwa [SccGrowth, htrace, hagg] at h'
  · rcases h' with ⟨htrace', hagg'⟩ | ⟨htrace', hscc'⟩
    · exact .inr ⟨by rwa [htrace'], by rwa [hagg']⟩
    · exact .inr ⟨htrace.trans htrace', hscc.trans hscc'⟩

theorem SccGrowth.notifiesChange (h : SccGrowth b b') : NotifiesChange b b' := by
  rcases h with ⟨htrace, hagg⟩ | ⟨htrace, hscc⟩
  · exact .of_quiet htrace (by rw [hagg])
  · refine iff_of_false (fun heq => htrace.ne (by rw [heq])) fun hvisible => hscc.ne ?_
    simp only [visible, Prod.mk.injEq] at hvisible
    obtain ⟨-, -, -, hsame, -⟩ := hvisible
    rw [hsame]

theorem foldSccPair_growth (x : BitVec 16 × BitVec 8) (b : Backend) : SccGrowth b (foldSccPair p x b) := by
  by_cases hknown : x ∈ b.agg.scc
  · rw [foldSccPair_of_mem hknown]
    exact .inl ⟨rfl, rfl⟩
  · rcases Nat.lt_or_ge b.agg.scc.length p.maxScc with hroom | hfull
    · rw [foldSccPair_of_room hknown hroom]
      exact .inr ⟨by simp, by simp⟩
    · rw [foldSccPair_of_full hknown hfull]
      exact .inl ⟨rfl, rfl⟩

theorem foldSccRoles_growth (m : Msg) (r q : Role) (b : Backend) : SccGrowth b (foldSccRoles p m r q b) := by
  unfold foldSccRoles
  split
  · exact foldSccPair_growth _ b
  · exact .inl ⟨rfl, rfl⟩

theorem foldScc_notifies (m : Msg) (b : Backend) : NotifiesChange b (foldScc p m b) :=
  ((foldSccRoles_growth m .attrChannel .attrClass b).trans (foldSccRoles_growth m .attrChannel2 .attrClass2 _)).notifiesChange

end Scc

/-- Settles O60: fold by fold; of the invariant only the order of the neighbor table is needed. -/
theorem notifiesExactlyChanges : Obligations.NotifiesExactlyChanges := by
  intro p m cat b hok
  cases cat with
  | none => exact NotifiesChange.refl b
  | siteStatus => exact foldSite_notifies m b
  | networkStatus => exact foldNetwork_notifies m b
  | neighbor => exact foldNeighbor_notifies m hok.neighborsSorted
  | scc => exact foldScc_notifies m b
  | grant => exact foldGrant_notifies m b
  | terminate => exact closeCalls_notifies _ b
  | idle => exact closeCalls_notifies _ b

end Sys2Proof.Machine
end

