-- ==== Sys2Proof/Proofs/SweepSummary.lean ====
section
/-! PROOF of O17 and O18: SWEEP closes exactly the calls that timed out (R204, R221), and SUMMARY only adds its event, with
every word given (R206, R207, R222). -/

namespace Sys2Proof.Machine

open Sys2Proof

/-! ## Timeouts (R203) -/

section Timeouts

variable {t x : BitVec 64} {d : Nat}

theorem expired_iff : expired t x d = true ↔ x.toNat + d ≤ t.toNat := decide_eq_true_iff

theorem not_expired_iff : expired t x d = false ↔ t.toNat < x.toNat + d := by
  rw [← Bool.not_eq_true, expired_iff, Nat.not_le]

end Timeouts

/-! ## Sweeping (R204) -/

section Sweep

variable {c : CfgRegs} {t : BitVec 64} {b : Backend}

/-- The calls that SWEEP closes at a time (R203, R204). -/
def timedOut (c : CfgRegs) (t : BitVec 64) (call : Call) : Bool := expired t call.lastTs (callTimeout c)

theorem timedOut_eq (c : CfgRegs) (t : BitVec 64) : timedOut c t = fun call => decide
    (call.lastTs.toNat + (c.callTimeoutHi.toNat * 2 ^ 32 + c.callTimeoutLo.toNat) ≤ t.toNat) := by
  funext call
  rw [timedOut, expired, callTimeout_eq]

theorem closedCalls_getElem?_closed {q : Call → Bool} {calls : List (Option Call)} {i : Nat} (h : calls[i]? = some none) :
    (closedCalls q calls)[i]? = some none := by
  rw [closedCalls, List.getElem?_map, h]
  rfl

theorem closedCalls_getElem?_open {q : Call → Bool} {calls : List (Option Call)} {i : Nat} {call : Call}
    (h : calls[i]? = some (some call)) : (closedCalls q calls)[i]? = some (if q call then none else some call) := by
  rw [closedCalls, List.getElem?_map, h]
  rfl

theorem sweepPending_of_none (h : b.pending = none) : sweepPending c t b = b := by
  rw [sweepPending, h]

theorem sweepPending_of_due {q : Pending} (h : b.pending = some q) (hdue : expired t q.ts (pduTimeout c) = true) :
    sweepPending c t b = { b with
      pending := none, cnt := { b.cnt with pduAbandoned := b.cnt.pduAbandoned + 1 } } := by
  rw [sweepPending, h]
  exact if_pos hdue

theorem sweepPending_of_not_due {q : Pending} (h : b.pending = some q) (hdue : expired t q.ts (pduTimeout c) = false) :
    sweepPending c t b = b := by
  rw [sweepPending, h]
  exact if_neg (by simp [hdue])

/-- The pending sequence's sweep: no table, no event. -/
theorem sweepPending_frame (c : CfgRegs) (t : BitVec 64) (b : Backend) : sweepPending c t b = { b with
    cnt := { b.cnt with pduAbandoned := (sweepPending c t b).cnt.pduAbandoned }
    pending := (sweepPending c t b).pending } := by
  unfold sweepPending
  split
  · split
    · rfl
    · rfl
  · rfl

theorem sweepBack_eq (c : CfgRegs) (t : BitVec 64) (b : Backend) :
    sweepBack c t b = sweepPending c t (closeCalls (timedOut c t) b) := rfl

/-- SWEEP closes the calls whatever becomes of the pending sequence. -/
theorem sweepBack_frame (c : CfgRegs) (t : BitVec 64) (b : Backend) : sweepBack c t b = { b with
    cnt := { b.cnt with pduAbandoned := (sweepBack c t b).cnt.pduAbandoned }
    pending := (sweepBack c t b).pending
    agg := { b.agg with calls := closedCalls (timedOut c t) b.agg.calls }
    trace := b.trace ++ closingNotes (timedOut c t) b.agg.calls } := by
  rw [sweepBack_eq, sweepPending_frame, closeCalls_eq]

@[simp] theorem sweepBack_calls (c : CfgRegs) (t : BitVec 64) (b : Backend) :
    (sweepBack c t b).agg.calls = closedCalls (timedOut c t) b.agg.calls := by rw [sweepBack_frame]

@[simp] theorem sweepBack_trace (c : CfgRegs) (t : BitVec 64) (b : Backend) :
    (sweepBack c t b).trace = b.trace ++ closingNotes (timedOut c t) b.agg.calls := by rw [sweepBack_frame]

theorem sweepBack_pending_of_none (h : b.pending = none) :
    (sweepBack c t b).pending = none ∧ (sweepBack c t b).cnt.pduAbandoned = b.cnt.pduAbandoned := by
  have hclosed : (closeCalls (timedOut c t) b).pending = none := h
  rw [sweepBack_eq, sweepPending_of_none hclosed]
  exact ⟨h, rfl⟩

/-- A sequence whose timeout has passed is abandoned and counted; any other stays (R180). -/
theorem sweepBack_pending_of_some {q : Pending} (h : b.pending = some q) :
    (q.ts.toNat + pduTimeout c ≤ t.toNat →
        (sweepBack c t b).pending = none ∧ (sweepBack c t b).cnt.pduAbandoned = b.cnt.pduAbandoned + 1)
      ∧ (t.toNat < q.ts.toNat + pduTimeout c →
        (sweepBack c t b).pending = some q ∧ (sweepBack c t b).cnt.pduAbandoned = b.cnt.pduAbandoned) := by
  have hclosed : (closeCalls (timedOut c t) b).pending = some q := h
  rw [sweepBack_eq]
  constructor
  · intro hdue
    rw [sweepPending_of_due hclosed (expired_iff.mpr hdue)]
    exact ⟨rfl, rfl⟩
  · intro hdue
    rw [sweepPending_of_not_due hclosed (not_expired_iff.mpr hdue)]
    exact ⟨h, rfl⟩

theorem exec_sweep_of_running {s : State} (h : s.status.run = .running) :
    exec (.sweep t) s = .next { s with back := sweepBack s.cfg t s.back } := if_pos h

theorem exec_sweep_of_not_running {s : State} (h : s.status.run ≠ .running) :
    exec (.sweep t) s = .next (raiseStatus .cmdRejected s) := if_neg h

end Sweep

/-- Settles O17: the calls by the condition of R203, the pending sequence by its own timeout. -/
theorem sweepEffect : Obligations.SweepEffect := by
  intro t s
  refine ⟨fun hrun => ⟨_, exec_sweep_of_running hrun, ?_, ?_, ?_, ?_, ?_, sweepBack_pending_of_none, ?_⟩,
    exec_sweep_of_not_running⟩
  · dsimp only
    rw [sweepBack_calls, sweepBack_trace, ← sweepBack_frame]
  · dsimp only
    rw [sweepBack_calls, closedCalls_length]
  · intro i hclosed
    dsimp only
    rw [sweepBack_calls, closedCalls_getElem?_closed hclosed]
  · intro i call hopen
    dsimp only
    rw [sweepBack_calls, closedCalls_getElem?_open hopen, timedOut_eq]
    simp only [decide_eq_true_eq]
  · dsimp only
    rw [sweepBack_trace, timedOut_eq]
  · intro q hq
    rw [← pduTimeout_eq]
    exact sweepBack_pending_of_some hq

/-! ## The summary (R206) -/

section Summary

/-- S0 by its fields at their bit positions (R206). -/
theorem summaryS0_toNat (run : RunState) (a : Agg) :
    (summaryS0 run a).toNat = (runCode run).toNat + 2 ^ 8 * a.site.isSome.toNat + 2 ^ 9 * a.network.isSome.toNat
      + 2 ^ 16 * (a.neighbors.length % 2 ^ 8) + 2 ^ 24 * (a.scc.length % 2 ^ 8) := by
  simp only [summaryS0, toNat_append_add, BitVec.toNat_ofBool, BitVec.ofNat_eq_ofNat, BitVec.toNat_ofNat, Nat.zero_mod]
  omega

theorem summarySccWord_eq (x : BitVec 16 × BitVec 8) :
    summarySccWord x = BitVec.ofNat 32 (x.1.toNat * 2 ^ 8 + x.2.toNat) := by
  have hnum : (summarySccWord x).toNat = x.1.toNat * 2 ^ 8 + x.2.toNat := by
    simp only [summarySccWord, toNat_append_add, BitVec.ofNat_eq_ofNat, BitVec.toNat_ofNat, Nat.zero_mod]
    omega
  rw [← hnum, BitVec.ofNat_toNat, BitVec.setWidth_eq]

theorem mem_activeCalls {cfg : CfgRegs} {t : BitVec 64} {calls : List (Option Call)} {c : Call} :
    c ∈ activeCalls cfg t calls ↔ some c ∈ calls ∧ t.toNat < c.lastTs.toNat + callTimeout cfg := by
  rw [activeCalls, List.mem_filterMap, ← not_expired_iff]
  constructor
  · rintro ⟨x, hx, hactive⟩
    cases x with
    | none => cases hactive
    | some d =>
      dsimp only at hactive
      split at hactive
      · cases hactive
      next hopen =>
        obtain rfl := Option.some.inj hactive
        exact ⟨hx, Bool.not_eq_true _ ▸ hopen⟩
  · rintro ⟨hc, hopen⟩
    exact ⟨some c, hc, by simp [hopen]⟩

/-- A list filtered through its indices, as the claims write it. -/
theorem filterMap_eq_filterMap_range {α β : Type} (f : α → Option β) (l : List α) :
    l.filterMap f = (List.range l.length).filterMap fun i => l[i]?.bind f := by
  induction l with
  | nil => rfl
  | cons x rest ih =>
    rw [List.length_cons, List.range_succ_eq_map, List.filterMap_cons, List.filterMap_cons, List.filterMap_map, ih]
    rfl

/-- The words after S0, S1 and S2 (R206). -/
theorem summaryWords_eq (s : State) (t : BitVec 64) : summaryWords s t =
    summaryS0 s.status.run s.back.agg :: BitVec.ofNat 32 (activeCalls s.cfg t s.back.agg.calls).length
      :: s.back.cnt.msgInvalid
      :: (summaryBroadcast s.back.agg.site ++ summaryBroadcast s.back.agg.network
        ++ s.back.agg.neighbors.flatMap summaryNeighbor ++ s.back.agg.scc.map summarySccWord
        ++ (activeCalls s.cfg t s.back.agg.calls).flatMap summaryCall) := by
  simp [summaryWords]

theorem exec_summary (t : BitVec 64) (s : State) :
    exec (.summary t) s = .next { s with back.trace := s.back.trace ++ [.summary (summaryWords s t)] } := rfl

end Summary

/-- Settles O18: the words do not look at the trace, so that a second SUMMARY finds the same ones. -/
theorem summaryEffect : Obligations.SummaryEffect := by
  intro t s
  refine ⟨summaryWords s t, activeCalls s.cfg t s.back.agg.calls, exec_summary t s,
    exec_summary t { s with back.trace := s.back.trace ++ [.summary (summaryWords s t)] }, ?_, ?_, ?_, ?_, ?_, ?_⟩
  · intro c
    rw [mem_activeCalls, callTimeout_eq]
  · rw [summaryWords_eq]
    exact summaryS0_toNat ..
  · rw [summaryWords_eq]
    rfl
  · rw [summaryWords_eq]
    rfl
  · simp only [← callTimeout_eq]
    rw [activeCalls, filterMap_eq_filterMap_range]
    refine congrArg (List.filterMap · _) (funext fun i => ?_)
    rcases s.back.agg.calls[i]? with - | - | c
    · rfl
    · rfl
    · cases hactive : expired t c.lastTs (callTimeout s.cfg) with
      | true =>
        have hdue := Nat.not_lt.mpr (expired_iff.mp hactive)
        simp [hactive, hdue]
      | false =>
        have hrunning := not_expired_iff.mp hactive
        simp [hactive, hrunning]
  · rw [summaryWords_eq, funext summarySccWord_eq]
    rfl

end Sys2Proof.Machine
end

section
/-! PROOF of O8, O9, O11, O13, O16 and O19: the answers of the control and register commands, performed and refused. -/

namespace Sys2Proof.Machine

open Sys2Proof

/-! ## CFG_WRITE (R214) -/

section CfgWrite

variable {n : BitVec 8} {v : Word} {s : State}

theorem exec_cfgWrite_of_not_running {r : CfgReg} (hreg : regOfNum n = some (.cfg r)) (hidle : s.status.run ≠ .running) :
    exec (.cfgWrite n v) s = .next { s with cfg := cfgSet s.cfg r v } := by
  simp only [exec, execCfgWrite, hreg, if_neg hidle]

theorem exec_cfgWrite_of_running {r : CfgReg} (hreg : regOfNum n = some (.cfg r)) (hrun : s.status.run = .running) :
    exec (.cfgWrite n v) s = .next (raiseStatus .cmdRejected s) := by
  simp only [exec, execCfgWrite, hreg, if_pos hrun]

/-- BAD_REG is the first check, in every run state. -/
theorem exec_cfgWrite_of_badOperand (hreg : BadOperand (.cfgWrite n v)) :
    exec (.cfgWrite n v) s = .next (raiseStatus .badReg s) := by
  simp only [exec, execCfgWrite]
  split
  · next r hr => exact absurd hr (hreg r)
  · rfl
  · rfl
  · rfl

end CfgWrite

/-! ## SET_CORRECTION (R220) -/

section SetCorrection

variable {sel : BitVec 16} {v : Word} {s : State}

theorem corOfSel_of_two_lt (h : 2 < sel.toNat) : corOfSel sel = none := by
  unfold corOfSel
  split
  · omega
  · omega
  · omega
  · rfl

theorem corOfSel_zero (h : sel.toNat = 0) : corOfSel sel = some .slicerOffset := by simp [corOfSel, h]

theorem corOfSel_one (h : sel.toNat = 1) : corOfSel sel = some .slicerSpan := by simp [corOfSel, h]

theorem corOfSel_two (h : sel.toNat = 2) : corOfSel sel = some .timingPhase := by simp [corOfSel, h]

/-- The selectors that name a register. -/
theorem exists_corOfSel_of_le_two (h : sel.toNat ≤ 2) : ∃ r, corOfSel sel = some r := by
  obtain hsel | hsel | hsel : sel.toNat = 0 ∨ sel.toNat = 1 ∨ sel.toNat = 2 := by omega
  · exact ⟨_, corOfSel_zero hsel⟩
  · exact ⟨_, corOfSel_one hsel⟩
  · exact ⟨_, corOfSel_two hsel⟩

/-- BAD_REG is the first check. -/
theorem exec_setCorrection_of_badOperand (h : BadOperand (.setCorrection sel v)) :
    exec (.setCorrection sel v) s = .next (raiseStatus .badReg s) := by
  simp only [exec, execSetCorrection, corOfSel_of_two_lt h]

theorem exec_setCorrection_of_inRange {r : CorReg} (hsel : corOfSel sel = some r) (hv : corInRange s.cfg r v = true) :
    exec (.setCorrection sel v) s = .next { s with cor := corSet s.cor r v } := by
  simp only [exec, execSetCorrection, hsel, if_pos hv]

theorem exec_setCorrection_of_outOfRange {r : CorReg} (hsel : corOfSel sel = some r)
    (hv : ¬ corInRange s.cfg r v = true) :
    exec (.setCorrection sel v) s = .next (raiseStatus .badValue s) := by
  simp only [exec, execSetCorrection, hsel, if_neg hv]

theorem corInRange_offset_iff {c : CfgRegs} : corInRange c .slicerOffset v = true ↔ isFinite v = true := Iff.rfl

theorem corInRange_span_iff {c : CfgRegs} :
    corInRange c .slicerSpan v = true ↔ flt 0 v = true ∧ fle v fOne = true := Bool.and_eq_true_iff

theorem corInRange_phase_iff {c : CfgRegs} : corInRange c .timingPhase v = true ↔ v.toNat < c.sps.toNat :=
  decide_eq_true_iff

end SetCorrection

/-! ## START and STOP (R216, R217) -/

theorem exec_start_of_running {s : State} (hrun : s.status.run = .running) :
    exec .start s = .next (raiseStatus .cmdRejected s) := execStart_of_running hrun

theorem exec_start_of_not_running {s : State} (hidle : s.status.run ≠ .running) : exec .start s = .next (startRun s) :=
  if_neg hidle

theorem startStatus_zero (t : Status) : startStatus 0 t = { t with run := .running, cfgErrCode := 0 } := rfl

theorem startStatus_of_ne_zero {code : Nat} (h : code ≠ 0) (t : Status) :
    startStatus code t = { t with run := .configError, cfgErrCode := BitVec.ofNat 8 code } := if_neg h

/-- A code fits the field CFG_ERR_CODE (R22). -/
theorem toNat_ofNat_checkConfig (p : Params) (c : CfgRegs) (k : CorRegs) :
    (BitVec.ofNat 8 (checkConfig p c k)).toNat = checkConfig p c k :=
  (BitVec.toNat_ofNat ..).trans (Nat.mod_eq_of_lt ((checkConfig_le p c k).trans_lt (by decide)))

theorem clearPipeline_pipelineCleared (s : State) : PipelineCleared (clearPipeline s) := ⟨rfl, rfl, rfl, rfl, rfl⟩

theorem startRun_pipelineCleared (s : State) : PipelineCleared (startRun s) := ⟨rfl, rfl, rfl, rfl, rfl⟩

/-! ## The sticky bits (R236) -/

/-- The sticky bit of a cause, as STATUS holds it; `statusWord_getLsbD_causeBit` finds it in the word that a register
read gives. -/
def sticky (t : Status) : Cause → Bool
  | .illegalCmd => t.illegalCmd
  | .cmdRejected => t.cmdRejected
  | .badReg => t.badReg
  | .badValue => t.badValue

theorem statusWord_getLsbD_causeBit (t : Status) (c : Cause) : (statusWord t).getLsbD (causeBit c) = sticky t c := by
  simp only [statusWord, BitVec.getLsbD_append]
  cases c with
  | illegalCmd => simp [causeBit, sticky]
  | cmdRejected => simp [causeBit, sticky]
  | badReg => simp [causeBit, sticky]
  | badValue => simp [causeBit, sticky]

theorem exists_causeBit_eq {i : Nat} (hi : i < 4) : ∃ c, causeBit c = 8 + i :=
  match i, hi with
  | 0, _ => ⟨.illegalCmd, rfl⟩
  | 1, _ => ⟨.cmdRejected, rfl⟩
  | 2, _ => ⟨.badReg, rfl⟩
  | 3, _ => ⟨.badValue, rfl⟩

/-- Mask bit i clears STATUS bit 8 + i (R83, R223). -/
theorem sticky_clearCauses (t : Status) (m : BitVec 4) (c : Cause) :
    sticky (clearCauses t m) c = (sticky t c && !m.getLsbD (causeBit c - 8)) := by
  cases c with
  | illegalCmd => rfl
  | cmdRejected => rfl
  | badReg => rfl
  | badValue => rfl

/-! ## The statements -/

/-- Settles O8: the word 0 is the encoding of NOP. -/
theorem nopDoesNothing : Obligations.NopDoesNothing :=
  fun _ ws => ⟨rfl, decodeEncode .nop ws rfl⟩

/-- Settles O13. -/
theorem stopEffect : Obligations.StopEffect :=
  fun _ => ⟨_, rfl, rfl, clearPipeline_pipelineCleared _, rfl, rfl, rfl, rfl, rfl, rfl, rfl⟩

/-- Settles O19: each of the four bits is the sticky bit of a cause. -/
theorem clearStatusEffect : Obligations.ClearStatusEffect := by
  intro m s
  refine ⟨clearCauses s.status m, rfl, rfl, rfl, fun i hi => ?_⟩
  obtain ⟨c, hc⟩ := exists_causeBit_eq hi
  rw [← hc, statusWord_getLsbD_causeBit, statusWord_getLsbD_causeBit, sticky_clearCauses, hc, Nat.add_sub_cancel_left]

/-- Settles O9: what the number names, then the run state. -/
theorem cfgWriteEffect : Obligations.CfgWriteEffect :=
  fun _ v s => ⟨fun r hreg hidle => ⟨_, exec_cfgWrite_of_not_running hreg hidle, fun r' => cfgGet_cfgSet s.cfg r r' v⟩,
    fun _ hreg hrun => exec_cfgWrite_of_running hreg hrun, exec_cfgWrite_of_badOperand⟩

/-- Settles O11: the configuration check decides the new STATUS, the clears are those of `startRun`. -/
theorem startEffect : Obligations.StartEffect := by
  intro s
  refine ⟨exec_start_of_running, fun hidle => ⟨startRun s, exec_start_of_not_running hidle, fun hlegal => ?_,
    fun hcode => ?_, startRun_pipelineCleared s, rfl, rfl, rfl, rfl, rfl, rfl, rfl⟩⟩
  · rw [startRun_status, hlegal, startStatus_zero]
  · rw [startRun_status, startStatus_of_ne_zero hcode]
    exact ⟨rfl, toNat_ofNat_checkConfig ..⟩

/-- Settles O16: the selector names the register, and the register its range. -/
theorem setCorrectionEffect : Obligations.SetCorrectionEffect := by
  intro sel v s
  refine ⟨exec_setCorrection_of_badOperand,
    fun hsel hv => exec_setCorrection_of_inRange (corOfSel_zero hsel) (corInRange_offset_iff.mpr hv),
    fun hsel hpos hunit => exec_setCorrection_of_inRange (corOfSel_one hsel) (corInRange_span_iff.mpr ⟨hpos, hunit⟩),
    fun hsel hv => exec_setCorrection_of_inRange (corOfSel_two hsel) (corInRange_phase_iff.mpr hv), ?_⟩
  rintro (⟨hsel, hv⟩ | ⟨hsel, hv⟩ | ⟨hsel, hv⟩)
  · exact exec_setCorrection_of_outOfRange (corOfSel_zero hsel) (by rw [corInRange_offset_iff, hv]; decide)
  · exact exec_setCorrection_of_outOfRange (corOfSel_one hsel) (by rwa [corInRange_span_iff])
  · exact exec_setCorrection_of_outOfRange (corOfSel_two hsel) (by rwa [corInRange_phase_iff, Nat.not_lt])

end Sys2Proof.Machine
end

section
/-! PROOF of O22 and O24: the host table, and that a command which raises a sticky bit does nothing else. -/

namespace Sys2Proof.Machine

open Sys2Proof

/-! ## The sticky bits under the shared operations -/

theorem sticky_setCause (t : Status) (c c' : Cause) :
    sticky (setCause t c) c' = (decide (c' = c) || sticky t c') := by
  cases c <;> cases c' <;> rfl

/-- An exception raises its own bit only (R236). -/
theorem eq_of_sticky_setCause {t : Status} {c c' : Cause} (hclear : sticky t c' = false)
    (hset : sticky (setCause t c) c' = true) : c' = c := by
  rw [sticky_setCause, hclear, Bool.or_false] at hset
  exact of_decide_eq_true hset

/-- No exception lowers a bit. -/
theorem sticky_setCause_of_set {t : Status} {c c' : Cause} (hset : sticky t c' = true) :
    sticky (setCause t c) c' = true := by
  rw [sticky_setCause, hset, Bool.or_true]

/-- CLEAR_STATUS raises no bit. -/
theorem sticky_clearCauses_of_clear {t : Status} {m : BitVec 4} {c : Cause} (hclear : sticky t c = false) :
    sticky (clearCauses t m) c = false := by
  rw [sticky_clearCauses, hclear, Bool.false_and]

/-- START writes RUN_STATE and CFG_ERR_CODE only. -/
theorem sticky_startStatus (code : Nat) (t : Status) : sticky (startStatus code t) = sticky t := by
  unfold startStatus
  split
  · funext c; cases c <;> rfl
  · funext c; cases c <;> rfl

/-! ## The three outcomes of the host table (R227, R242) -/

/-- A bad register or selector is refused in every run state; REG_READ answers 0 before it. -/
theorem exec_of_badOperand {i : Instr} (h : BadOperand i) (s : State) :
    exec i s = .next (raiseStatus .badReg s)
      ∨ ∃ a, i = .regRead a ∧ exec i s = .next (raiseStatus .badReg (emitState (.response 0) s)) := by
  cases i with
  | cfgWrite n v => exact .inl (exec_cfgWrite_of_badOperand h)
  | regRead a => exact .inr ⟨a, rfl, execRegRead_of_none (regOfArg_eq_none h) s⟩
  | setCorrection sel v => exact .inl (exec_setCorrection_of_badOperand h)
  | _ => exact h.elim

/-- A CFG register number that is not a bad operand. -/
theorem exists_cfg_of_not_badOperand {n : BitVec 8} {v : Word} (h : ¬ BadOperand (.cfgWrite n v)) :
    ∃ r, regOfNum n = some (.cfg r) := not_forall_not.mp h

theorem exists_regOfArg_of_not_badOperand {a : BitVec 16} (h : ¬ BadOperand (.regRead a)) : ∃ r, regOfArg a = some r := by
  obtain ⟨hle, hreg⟩ := not_or.mp h
  rw [regOfArg_of_le (Nat.not_lt.mp hle)]
  exact Option.ne_none_iff_exists'.mp hreg

/-- A command that the table refuses in this run state raises CMD_REJECTED. -/
theorem exec_of_refusedByState {i : Instr} {s : State} (hoperand : ¬ BadOperand i) (h : RefusedByState s i) :
    exec i s = .next (raiseStatus .cmdRejected s) := by
  cases i with
  | cfgWrite n v =>
    obtain ⟨r, hreg⟩ := exists_cfg_of_not_badOperand hoperand
    exact exec_cfgWrite_of_running hreg h
  | start => exact exec_start_of_running h
  | pushReal xs => exact if_neg h
  | pushComplex xs => exact if_neg h
  | sweep t => exact exec_sweep_of_not_running h
  | _ => exact h.elim

/-- What a command that the table lets through does to the sticky bits: it keeps them, CLEAR_STATUS lowers those of its
mask, and SET_CORRECTION may find its value out of range. -/
inductive Performed (s : State) : Instr → State → Prop where
  | kept {i : Instr} {t : State} (h : sticky t.status = sticky s.status) : Performed s i t
  | cleared {m : BitVec 4} {t : State} (h : t.status = clearCauses s.status m) : Performed s (.clearStatus m) t
  | outOfRange {sel : BitVec 16} {v : Word} : Performed s (.setCorrection sel v) (raiseStatus .badValue s)

theorem exec_performed {i : Instr} {s : State} (hoperand : ¬ BadOperand i) (hstate : ¬ RefusedByState s i) :
    ∃ t, exec i s = .next t ∧ Performed s i t := by
  cases i with
  | nop => exact ⟨_, rfl, .kept rfl⟩
  | stop => exact ⟨_, rfl, .kept (by funext c; cases c <;> rfl)⟩
  | summary t => exact ⟨_, rfl, .kept rfl⟩
  | clearStatus m => exact ⟨_, rfl, .cleared rfl⟩
  | cfgWrite n v =>
    obtain ⟨r, hreg⟩ := exists_cfg_of_not_badOperand hoperand
    exact ⟨_, exec_cfgWrite_of_not_running hreg hstate, .kept rfl⟩
  | regRead a =>
    obtain ⟨r, hreg⟩ := exists_regOfArg_of_not_badOperand hoperand
    exact ⟨_, execRegRead_of_some hreg s, .kept rfl⟩
  | start => exact ⟨_, exec_start_of_not_running hstate, .kept (sticky_startStatus ..)⟩
  | pushReal xs =>
    obtain ⟨hrun, hkind⟩ := not_not.mp hstate
    exact ⟨_, execPushReal_of_running hrun hkind xs, .kept (by rw [pushSamples_status])⟩
  | pushComplex xs =>
    obtain ⟨hrun, hkind⟩ := not_not.mp hstate
    exact ⟨_, execPushComplex_of_running hrun hkind xs, .kept (by rw [pushSamples_status])⟩
  | sweep t => exact ⟨_, exec_sweep_of_running (not_not.mp hstate), .kept rfl⟩
  | setCorrection sel v =>
    obtain ⟨r, hsel⟩ := exists_corOfSel_of_le_two (Nat.not_lt.mp hoperand)
    by_cases hv : corInRange s.cfg r v = true
    · exact ⟨_, exec_setCorrection_of_inRange hsel hv, .kept rfl⟩
    · exact ⟨_, exec_setCorrection_of_outOfRange hsel hv, .outOfRange⟩

/-- A command that the table lets through raises no bit but BAD_VALUE, and that for SET_CORRECTION only. -/
theorem Performed.sticky_clear {i : Instr} {s t : State} (h : Performed s i t) {c : Cause}
    (hc : c = .badValue → ∀ sel v, i ≠ .setCorrection sel v) (hclear : sticky s.status c = false) :
    sticky t.status c = false := by
  cases h with
  | kept hsame => rw [hsame, hclear]
  | cleared hmask => rw [hmask]; exact sticky_clearCauses_of_clear hclear
  | outOfRange =>
    have hne : c ≠ .badValue := fun he => hc he _ _ rfl
    simpa [sticky_setCause, hne] using hclear

/-- Settles O24: one outcome for each entry of the table. -/
theorem hostTable : Obligations.HostTable := by
  intro i s
  refine ⟨fun hbad => ?_, fun hoperand hstate => exec_of_refusedByState hoperand hstate, fun hoperand hstate => ?_⟩
  · obtain h | ⟨a, -, h⟩ := exec_of_badOperand hbad s
    · exact ⟨_, h, rfl⟩
    · exact ⟨_, h, rfl⟩
  · obtain ⟨t, ht, hperf⟩ := exec_performed hoperand hstate
    refine ⟨t, ht, hperf.sticky_clear (c := .cmdRejected) nofun, hperf.sticky_clear (c := .badReg) nofun,
      fun hclear hi => hperf.sticky_clear (c := .badValue) (fun _ => hi) hclear, ?_⟩
    rintro rfl hcode
    cases (exec_start_of_not_running hstate).symm.trans ht
    rw [startRun_status, startStatus_of_ne_zero hcode]

/-! ## Refusals (R212, R236) -/

/-- Everything that a command can do to the sticky bits. -/
inductive StickyEffect (i : Instr) (s t : State) : Prop where
  | kept (h : sticky t.status = sticky s.status)
  | cleared (m : BitVec 4) (hi : i = .clearStatus m) (h : t.status = clearCauses s.status m)
  | raised (c : Cause) (h : t = raiseStatus c s)
  | badRead (a : BitVec 16) (hi : i = .regRead a) (h : t = raiseStatus .badReg (emitState (.response 0) s))

theorem exec_stickyEffect {i : Instr} {s t : State} (h : exec i s = .next t) : StickyEffect i s t := by
  by_cases hoperand : BadOperand i
  · obtain hexec | ⟨a, hi, hexec⟩ := exec_of_badOperand hoperand s
    · cases hexec.symm.trans h
      exact .raised .badReg rfl
    · cases hexec.symm.trans h
      exact .badRead a hi rfl
  · by_cases hstate : RefusedByState s i
    · cases (exec_of_refusedByState hoperand hstate).symm.trans h
      exact .raised .cmdRejected rfl
    · obtain ⟨u, hexec, hperf⟩ := exec_performed hoperand hstate
      cases hexec.symm.trans h
      cases hperf with
      | kept hsame => exact .kept hsame
      | cleared hmask => exact .cleared _ rfl hmask
      | outOfRange => exact .raised .badValue rfl

theorem StickyEffect.sticky_of_set {i : Instr} {s t : State} (h : StickyEffect i s t) (hi : ∀ m, i ≠ .clearStatus m)
    {c : Cause} (hset : sticky s.status c = true) : sticky t.status c = true := by
  cases h with
  | kept hsame => rw [hsame, hset]
  | cleared m hclear _ => exact absurd hclear (hi m)
  | raised c' ht => rw [ht]; exact sticky_setCause_of_set hset
  | badRead a _ ht => rw [ht]; exact sticky_setCause_of_set hset

/-- A bit that was clear and is set: its exception, and nothing else but the answer of REG_READ. -/
theorem StickyEffect.eq_raiseStatus {i : Instr} {s t : State} (h : StickyEffect i s t) {c : Cause}
    (hclear : sticky s.status c = false) (hset : sticky t.status c = true) :
    t = raiseStatus c s
      ∨ (c = .badReg ∧ (∃ a, i = .regRead a) ∧ t = raiseStatus .badReg (emitState (.response 0) s)) := by
  cases h with
  | kept hsame => exact absurd (hset.symm.trans (congrFun hsame c)) (by simp [hclear])
  | cleared m _ hmask =>
    rw [hmask, sticky_clearCauses_of_clear hclear] at hset
    cases hset
  | raised c' ht =>
    rw [ht] at hset ⊢
    rw [eq_of_sticky_setCause hclear hset]
    exact .inl rfl
  | badRead a hi ht =>
    rw [ht] at hset
    exact .inr ⟨eq_of_sticky_setCause hclear hset, ⟨a, hi⟩, ht⟩

/-- Settles O22. -/
theorem refusalsArePrecise : Obligations.RefusalsArePrecise := by
  intro i s t h
  have heff := exec_stickyEffect h
  simp only [statusWord_getLsbD_causeBit]
  exact ⟨fun hi _ => heff.sticky_of_set hi, fun _ => heff.eq_raiseStatus⟩

end Sys2Proof.Machine
end

section
/-! PROOF of O12: CheckConfig answers the code of the first check of R238 that fails. -/

namespace Sys2Proof.Machine

open Sys2Proof

/-! ## The first failure of a list -/

/-- The answer for a list of checks that starts at code n, and what each code claims: 0 when all hold, otherwise the
first code that does not. -/
theorem firstFailure_spec {C : Nat → Prop} (oks : List Bool) (n : Nat)
    (h : ∀ i (hi : i < oks.length), oks[i] = true ↔ C (n + i)) :
    (firstFailure n oks = 0 ∧ ∀ j, n ≤ j → j < n + oks.length → C j)
      ∨ (n ≤ firstFailure n oks ∧ firstFailure n oks < n + oks.length ∧ ¬ C (firstFailure n oks)
        ∧ ∀ j, n ≤ j → j < firstFailure n oks → C j) := by
  induction oks generalizing n with
  | nil => exact .inl ⟨rfl, fun j hle hlt => absurd hlt (Nat.not_lt.mpr hle)⟩
  | cons ok rest ih =>
    have hhead : ok = true ↔ C n := h 0 (Nat.succ_pos _)
    have htail : ∀ i (hi : i < rest.length), rest[i] = true ↔ C (n + 1 + i) := fun i hi => by
      rw [Nat.add_right_comm]
      exact h (i + 1) (Nat.succ_lt_succ hi)
    simp only [List.length_cons]
    cases ok with
    | false =>
      refine .inr ⟨Nat.le_refl n, Nat.lt_add_of_pos_right (Nat.succ_pos _), fun hn => ?_,
        fun j hle hlt => absurd hlt (Nat.not_lt.mpr hle)⟩
      exact absurd (hhead.mpr hn) (by decide)
    | true =>
      have hfirst : firstFailure n (true :: rest) = firstFailure (n + 1) rest := if_pos rfl
      have hn : C n := hhead.mp rfl
      rw [hfirst]
      obtain ⟨hzero, hall⟩ | ⟨hle, hlt, hfail, hbefore⟩ := ih (n + 1) htail
      · refine .inl ⟨hzero, fun j hj hend => ?_⟩
        obtain rfl | hj := Nat.eq_or_lt_of_le hj
        · exact hn
        · exact hall j hj (by omega)
      · refine .inr ⟨by omega, by omega, hfail, fun j hj hend => ?_⟩
        obtain rfl | hj := Nat.eq_or_lt_of_le hj
        · exact hn
        · exact hbefore j hj hend

/-! ## The checks -/

theorem zero_or_one_iff {v : Word} : (v == 0 || v == 1) = true ↔ v = 0 ∨ v = 1 := by
  rw [Bool.or_eq_true_iff, beq_iff_eq, beq_iff_eq]

/-- Code 4: CQPSK needs complex input. -/
theorem combination_iff {c : CfgRegs} :
    (!(c.modulation == 1 && c.inputKind == 1)) = true ↔ ¬ (c.modulation = 1 ∧ c.inputKind = 1) := by
  rw [Bool.not_eq_true', ← Bool.not_eq_true, Bool.and_eq_true_iff, beq_iff_eq, beq_iff_eq]

theorem gainsF_iff_gainsLegal {lo hi init : Word} : gainsF lo hi init = true ↔ GainsLegal lo hi init := by
  simp only [gainsF, positiveF, GainsLegal, Bool.and_eq_true, and_assoc]

/-- Code 24: TRELLIS_MAX is below N_MIN exactly when it is below BLOCK_LEN / 4 of every half-rate block (R37). -/
theorem trellisMaxOk_iff {P : Profile} (hblocks : blockLens P ≠ []) {v : Word} :
    trellisMaxOk P v = true ↔ ∀ bl ∈ blockLens P, v.toNat < bl / 4 := by
  have hsome : nMin P ≠ none := fun hnone => hblocks (List.map_eq_nil_iff.mp (List.min?_eq_none_iff.mp hnone))
  obtain ⟨n, hn⟩ := Option.ne_none_iff_exists'.mp hsome
  have hmin : v.toNat < n ↔ ∀ m ∈ (blockLens P).map (· / 4), v.toNat < m := List.le_min?_iff hn
  rw [trellisMaxOk, hn, decide_eq_true_iff, hmin, List.forall_mem_map]

/-- Codes 25 and 26: a timeout of two registers is not 0. -/
theorem callTimeout_check_iff {c : CfgRegs} :
    (callTimeout c != 0) = true ↔ c.callTimeoutHi.toNat * 2 ^ 32 + c.callTimeoutLo.toNat ≠ 0 := by
  rw [bne_iff_ne, callTimeout_eq]

theorem pduTimeout_check_iff {c : CfgRegs} :
    (pduTimeout c != 0) = true ↔ c.pduTimeoutHi.toNat * 2 ^ 32 + c.pduTimeoutLo.toNat ≠ 0 := by
  rw [bne_iff_ne, pduTimeout_eq]

/-- The checks that the model evaluates are those of R238, code by code. -/
theorem configChecks_iff {p : Params} (hblocks : blockLens p.profile ≠ []) (c : CfgRegs) (k : CorRegs) :
    ∀ i (hi : i < (configChecks p c k).length), (configChecks p c k)[i] = true ↔ CheckHolds p c k (1 + i)
  | 0, _ => zero_or_one_iff
  | 1, _ => zero_or_one_iff
  | 2, _ => beq_iff_eq (a := c.decoderType)
  | 3, _ => combination_iff
  | 4, _ => List.contains_iff_mem
  | 5, _ => zero_or_one_iff
  | 6, _ => decide_eq_true_iff
  | 7, _ => decide_eq_true_iff
  | 8, _ => Bool.and_eq_true_iff
  | 9, _ => Bool.and_eq_true_iff
  | 10, _ => Bool.and_eq_true_iff
  | 11, _ => Bool.and_eq_true_iff
  | 12, _ => Bool.and_eq_true_iff
  | 13, _ => gainsF_iff_gainsLegal
  | 14, _ => Bool.and_eq_true_iff
  | 15, _ => Bool.and_eq_true_iff
  | 16, _ => Bool.and_eq_true_iff
  | 17, _ => gainsF_iff_gainsLegal
  | 18, _ => Bool.and_eq_true_iff
  | 19, _ => Bool.and_eq_true_iff
  | 20, _ => Bool.and_eq_true_iff
  | 21, _ => Bool.and_eq_true_iff
  | 22, _ => decide_eq_true_iff
  | 23, _ => trellisMaxOk_iff hblocks
  | 24, _ => callTimeout_check_iff
  | 25, _ => pduTimeout_check_iff
  | 26, _ => decide_eq_true_iff
  | i + 27, hi => absurd hi (Nat.not_lt.mpr (Nat.le_add_left 27 i))

/-- Settles O12. -/
theorem configCheckCodes : Obligations.ConfigCheckCodes := by
  intro p c k hblocks
  obtain ⟨hzero, hall⟩ | ⟨hpos, hlt, hfail, hbefore⟩ := firstFailure_spec _ 1 (configChecks_iff hblocks c k)
  · exact .inl ⟨hzero, fun j hj hle => hall j hj (Nat.lt_succ_of_le hle)⟩
  · exact .inr ⟨hpos, Nat.le_of_lt_succ hlt, hfail, hbefore⟩

end Sys2Proof.Machine
end

section
/-! PROOF of O14 and O15: a PUSH is SampleStep on each sample in order, or is refused as a whole, and what each path of
the pipeline leaves of the other's state. -/

namespace Sys2Proof.Machine

open Sys2Proof

/-! ## A PUSH as a fold over its payload -/

theorem pushSamples_map {α : Type} (kind : α → Sample) (xs : List α) (s : State) :
    pushSamples (xs.map kind) s = xs.foldl (fun u x => sampleStep u (kind x)) s := List.foldl_map

/-! ## The events of one sample -/

theorem isFeedback_of_isRecord {e : Event} (h : e.isRecord = true) : e.isFeedback = false := by
  cases e with
  | feedback w => cases h
  | _ => rfl

/-- The feedback value of a sample is its one FEEDBACK event. -/
theorem filter_isFeedback_of_sample {f : Option Word} {es : List Event} (h : ∀ e ∈ es, e.isRecord = true) :
    ((f.toList.map Event.feedback ++ es).filter Event.isFeedback).length = f.toList.length := by
  have hnone : es.filter Event.isFeedback = [] :=
    List.filter_eq_nil_iff.mpr fun e he => by simp [isFeedback_of_isRecord (h e he)]
  rw [List.filter_append, hnone, List.append_nil]
  cases f with
  | none => rfl
  | some w => rfl

theorem isRecord_or_isFeedback_of_sample {f : Option Word} {es : List Event} (h : ∀ e ∈ es, e.isRecord = true) :
    ∀ e ∈ f.toList.map Event.feedback ++ es, e.isRecord = true ∨ e.isFeedback = true := by
  refine List.forall_mem_append.mpr ⟨List.forall_mem_map.mpr fun w _ => .inr rfl, fun e he => .inl (h e he)⟩

/-! ## The real path (R105, R111) -/

/-- What PUSH_REAL leaves alone besides the host's registers, and the events that it adds. -/
structure RealFrame (s t : State) : Prop where
  feedback : t.back.cnt.feedback = s.back.cnt.feedback
  trace : ∃ es, t.back.trace = s.back.trace ++ es ∧ ∀ e ∈ es, e.isRecord = true
  cfLineIm : t.cond.cfLineIm = s.cond.cfLineIm
  envRing : t.cond.envRing = s.cond.envRing
  demod : t.demod = { s.demod with sfLine := t.demod.sfLine, sdgcGain := t.demod.sdgcGain }

theorem RealFrame.refl (s : State) : RealFrame s s := ⟨rfl, ⟨[], by simp, by simp⟩, rfl, rfl, rfl⟩

theorem RealFrame.trans {s t u : State} (h : RealFrame s t) (g : RealFrame t u) : RealFrame s u := by
  obtain ⟨es, hes, hrecords⟩ := h.trace
  obtain ⟨fs, hfs, hrecords'⟩ := g.trace
  refine ⟨g.feedback.trans h.feedback, ⟨es ++ fs, ?_, List.forall_mem_append.mpr ⟨hrecords, hrecords'⟩⟩,
    g.cfLineIm.trans h.cfLineIm, g.envRing.trans h.envRing, ?_⟩
  · rw [hfs, hes, List.append_assoc]
  · have hdemod := g.demod
    rw [h.demod] at hdemod
    exact hdemod

theorem sampleStep_real_frame (s : State) (x : Word) : RealFrame s (sampleStep s (.real x)) := by
  obtain ⟨-, hfeedback, -, es, htrace, hrecords⟩ := sampleStep_spec s (.real x)
  have hnone : (demodulate s.env s.demod (condition s.env s.cond (.real x)).1).feedback = none := rfl
  rw [hnone] at htrace
  exact ⟨hfeedback, ⟨es, by simpa using htrace, hrecords⟩, rfl, rfl, rfl⟩

theorem pushReal_frame (xs : List Word) (s : State) : RealFrame s (pushSamples (xs.map Sample.real) s) := by
  refine pushSamples_induction _ s (.refl s) fun t x hx ht => ?_
  obtain ⟨w, -, rfl⟩ := List.mem_map.mp hx
  exact ht.trans (sampleStep_real_frame t w)

/-- Settles O14. -/
theorem pushRealEffect : Obligations.PushRealEffect := by
  intro xs s
  refine ⟨fun hrun hkind => ?_, fun hstate => exec_of_refusedByState (i := .pushReal xs) id hstate⟩
  obtain ⟨hfeedback, htrace, hline, hring, hdemod⟩ := pushReal_frame xs s
  exact ⟨_, execPushReal_of_running hrun hkind xs, pushSamples_map Sample.real xs s, pushSamples_host _ s,
    by rw [pushSamples_sampleCount, List.length_map], hfeedback, htrace, hline, hring, hdemod⟩

/-! ## The complex path (R103, R111, R119) -/

/-- What PUSH_COMPLEX of n samples leaves alone besides the host's registers, and the events that it adds. -/
structure ComplexFrame (n : Nat) (s t : State) : Prop where
  cfg : t.cfg = s.cfg
  trace : ∃ es, t.back.trace = s.back.trace ++ es
    ∧ (es.filter Event.isFeedback).length = (if s.cfg.modulation = 1 then n else 0)
    ∧ ∀ e ∈ es, e.isRecord = true ∨ e.isFeedback = true
  dgcGain : t.cond.dgcGain = s.cond.dgcGain
  cqpsk : s.cfg.modulation = 1 →
    t.demod.discPrev = s.demod.discPrev ∧ t.demod.sfLine = s.demod.sfLine ∧ t.demod.sdgcGain = s.demod.sdgcGain
  c4fm : s.cfg.modulation ≠ 1 →
    t.back.cnt.feedback = s.back.cnt.feedback
      ∧ t.demod = { s.demod with
          discPrev := t.demod.discPrev, sfLine := t.demod.sfLine, sdgcGain := t.demod.sdgcGain }

theorem ComplexFrame.refl (s : State) : ComplexFrame 0 s s :=
  ⟨rfl, ⟨[], by simp, by simp, by simp⟩, rfl, fun _ => ⟨rfl, rfl, rfl⟩, fun _ => ⟨rfl, rfl⟩⟩

theorem ComplexFrame.trans {m n : Nat} {s t u : State} (h : ComplexFrame m s t) (g : ComplexFrame n t u) :
    ComplexFrame (m + n) s u := by
  obtain ⟨hcfg, ⟨es, hes, hcount, hkinds⟩, hgain, hcqpsk, hc4fm⟩ := h
  obtain ⟨gcfg, ⟨fs, gfs, gcount, gkinds⟩, ggain, gcqpsk, gc4fm⟩ := g
  rw [hcfg] at gcount gcqpsk gc4fm
  refine ⟨gcfg.trans hcfg, ⟨es ++ fs, ?_, ?_, List.forall_mem_append.mpr ⟨hkinds, gkinds⟩⟩, ggain.trans hgain,
    fun hmod => ?_, fun hmod => ?_⟩
  · rw [gfs, hes, List.append_assoc]
  · rw [List.filter_append, List.length_append, hcount, gcount]
    split
    · rfl
    · rfl
  · obtain ⟨hprev, hline, hsdgc⟩ := hcqpsk hmod
    obtain ⟨gprev, gline, gsdgc⟩ := gcqpsk hmod
    exact ⟨gprev.trans hprev, gline.trans hline, gsdgc.trans hsdgc⟩
  · obtain ⟨hfeedback, hdemod⟩ := hc4fm hmod
    obtain ⟨gfeedback, gdemod⟩ := gc4fm hmod
    rw [hdemod] at gdemod
    exact ⟨gfeedback.trans hfeedback, gdemod⟩

/-- The CQPSK path of a complex sample. -/
theorem demodulate_complex_cqpsk {e : Env} (hmod : e.cfg.modulation = 1) (m : Demod) (c : Cplx) :
    demodulate e m (.complex c) = costas e m c := if_pos (beq_iff_eq.mpr hmod)

/-- The C4FM path of a complex sample, behind the discriminator. -/
theorem demodulate_complex_c4fm {e : Env} (hmod : e.cfg.modulation ≠ 1) (m : Demod) (c : Cplx) :
    demodulate e m (.complex c) = symbolPath e (discriminate m c).2 (discriminate m c).1 :=
  if_neg fun h => hmod (beq_iff_eq.mp h)

/-- A complex sample has a feedback value in CQPSK mode only (R42, R119). -/
theorem demodulate_complex_feedback_length (e : Env) (m : Demod) (c : Cplx) :
    (demodulate e m (.complex c)).feedback.toList.length = if e.cfg.modulation = 1 then 1 else 0 := by
  rw [demodulate_feedback]
  dsimp only
  split
  · rfl
  · rfl

theorem sampleStep_complex_frame (s : State) (x : Cplx) : ComplexFrame 1 s (sampleStep s (.complex x)) := by
  obtain ⟨z, hz⟩ : ∃ z, (condition s.env s.cond (.complex x)).1 = .complex z := ⟨_, rfl⟩
  obtain ⟨-, hfeedback, -, es, htrace, hrecords⟩ := sampleStep_spec s (.complex x)
  have hdemod := sampleStep_demod s (.complex x)
  rw [hz] at hfeedback htrace hdemod
  refine ⟨rfl, ⟨_, htrace.trans (List.append_assoc ..), ?_, ?_⟩, rfl, fun hmod => ?_, fun hmod => ?_⟩
  · rw [filter_isFeedback_of_sample hrecords]
    exact demodulate_complex_feedback_length ..
  · exact isRecord_or_isFeedback_of_sample hrecords
  · rw [hdemod, demodulate_complex_cqpsk hmod]
    exact ⟨rfl, rfl, rfl⟩
  · rw [hfeedback, hdemod, demodulate_complex_c4fm hmod]
    exact ⟨rfl, rfl⟩

theorem pushComplex_frame (xs : List (Word × Word)) (s : State) :
    ComplexFrame xs.length s (pushSamples (xs.map Sample.complex) s) := by
  induction xs generalizing s with
  | nil => exact .refl s
  | cons x xs ih =>
    rw [List.map_cons, pushSamples_cons, List.length_cons, Nat.add_comm]
    exact (sampleStep_complex_frame s x).trans (ih _)

/-- Settles O15. -/
theorem pushComplexEffect : Obligations.PushComplexEffect := by
  intro xs s
  refine ⟨fun hrun hkind => ?_, fun hstate => exec_of_refusedByState (i := .pushComplex xs) id hstate⟩
  obtain ⟨-, htrace, hgain, hcqpsk, hc4fm⟩ := pushComplex_frame xs s
  exact ⟨_, execPushComplex_of_running hrun hkind xs, pushSamples_map Sample.complex xs s, pushSamples_host _ s,
    by rw [pushSamples_sampleCount, List.length_map], htrace, hgain, hcqpsk, hc4fm⟩

end Sys2Proof.Machine
end
